-- ==== Sys2Proof/Word.lean ====
section
/-! DEFINITION. The block's word types. Every value is unsigned (00_scope R10); the widths are those of 00_scope R9. -/

namespace Sys2Proof

/-- `u8` of 00_scope R10. -/
abbrev Byte := BitVec 8

/-- `u32` of 00_scope R10: addresses, CRC values, the launcher's two words. -/
abbrev Word := BitVec 32

end Sys2Proof
end

