-- ==== Sys2Proof/Config.lean ====
section
/-! DEFINITION. What the spec fixes as a parameter (00_scope R8), and the free values.

A `def` is a parameter whose value R8 gives (log 5). An `opaque` constant is a value the spec leaves open: nothing can
evaluate it, so a claim about the model holds whatever it is (log 9, 10, 11, 1). -/

namespace Sys2Proof

/-- What a flash or option port call answers (10_state R40). -/
inductive PortResult where
  | ok
  | fail
  deriving DecidableEq, Repr

/-- What `FlashErase` answers: the low-level result and the status word (10_state R40). -/
structure EraseAnswer where
  ll   : PortResult
  word : Word
  deriving DecidableEq, Repr

/-- The units `P_CRC_UNIT` may name (40_dispatcher R140). -/
inductive CrcUnit where
  | byteAsWord
  | byteAsByte
  deriving DecidableEq, Repr

/-- The values of `P_WAIT_POLICY`; `Bounded(n)` has no meaning in this spec (D47). -/
inductive WaitPolicy where
  | forever
  deriving DecidableEq, Repr

/-- An address window, inclusive on both ends (10_state R34). -/
structure Window where
  base : Nat
  last : Nat
  deriving DecidableEq, Repr

/-- Inclusive bounds on both ends (41_engines R170). -/
def Window.contains (w : Window) (a : Nat) : Bool := decide (w.base ≤ a) && decide (a ≤ w.last)

/-- The number of bytes of a window. -/
def Window.size (w : Window) : Nat := w.last + 1 - w.base

/-- One entry of the sector table (10_state R33). -/
structure Sector where
  base : Nat
  size : Nat
  deriving DecidableEq, Repr

/-- The addresses of a sector. -/
def Sector.contains (t : Sector) (a : Nat) : Bool := decide (t.base ≤ a) && decide (a < t.base + t.size)

/-- The version record (10_state R35). -/
structure Version where
  vendor : Byte
  major  : Byte
  minor  : Byte
  patch  : Byte
  deriving DecidableEq, Repr

namespace Config

/-- `P_ACK`. -/
def ack : Byte := 0x79
/-- `P_NACK`. -/
def nack : Byte := 0x1F
/-- `P_NUM_OPCODES`. -/
def numOpcodes : Nat := 15
/-- `P_FRAME_BUF`. -/
abbrev frameBuf : Nat := 256
/-- `P_MIN_FRAME_LEN`. -/
def minFrameLen : Nat := 5
/-- `P_CRC_POLY`. -/
def crcPoly : Word := 0x04C11DB7
/-- `P_CRC_INIT`. -/
def crcInit : Word := 0xFFFFFFFF
/-- `P_CRC_XOROUT`. -/
def crcXorOut : Word := 0x00000000
/-- `P_CRC_UNIT`. -/
def crcUnit : CrcUnit := .byteAsWord
/-- `P_RAM_A_BASE`, `P_RAM_A_END`. -/
def ramA : Window := ⟨0x20010000, 0x2004BFFF⟩
/-- `P_RAM_B_BASE`, `P_RAM_B_END`. -/
def ramB : Window := ⟨0x2004C000, 0x2004FFFF⟩
/-- `P_FLASH_BASE`, `P_FLASH_END`. -/
def flash : Window := ⟨0x08000000, 0x080FFFFF⟩
/-- `P_NUM_SECTORS`. -/
def numSectors : Nat := 8
/-- `P_SECTOR_LAYOUT` (10_state R33). -/
def sectors : List Sector :=
  [⟨0x08000000, 0x8000⟩, ⟨0x08008000, 0x8000⟩, ⟨0x08010000, 0x8000⟩, ⟨0x08018000, 0x8000⟩,
   ⟨0x08020000, 0x20000⟩, ⟨0x08040000, 0x40000⟩, ⟨0x08080000, 0x40000⟩, ⟨0x080C0000, 0x40000⟩]
/-- `P_MASS_ERASE`. -/
def massErase : Byte := 0xFF
/-- `P_ERASE_OK`. -/
def eraseOk : Word := 0xFFFFFFFF
/-- `P_ERASED`. -/
def erased : Byte := 0xFF
/-- `P_RDP_L0`. -/
def rdpL0 : Byte := 0xAA
/-- `P_RDP_L1`. -/
def rdpL1 : Byte := 0x55
/-- `P_RDP_L2`. -/
def rdpL2 : Byte := 0xCC
/-- `P_VERSION`. -/
def version : Version := ⟨200, 1, 0, 0⟩
/-- `ST_OK`. -/
def stOk : Byte := 0x00
/-- `ST_ADDR_INVALID`. -/
def stAddrInvalid : Byte := 0x01
/-- `ST_FAILED`. -/
def stFailed : Byte := 0x02
/-- `P_WAIT_POLICY`. -/
def waitPolicy : WaitPolicy := .forever

/-- `P_VOLTAGE_RANGE`: passed on every erase request, read by no rule (41_engines R181). DESIGN CHOICE: the spec gives it no
type; the model makes it a 32-bit word (log 27). -/
opaque voltageRange : Word
/-- `P_IDCODE` at reset (10_state R36). -/
opaque idcode : Word
/-- `P_APP_BASE` at reset (70_reset R342). -/
opaque appBase : Word
/-- `P_IFETCH_COHERENT`: about the launched application's fetches only, so no rule of the block reads it (20_memory R72). -/
opaque ifetchCoherent : Bool
/-- `P_PROGRAM_RESULT(old, v)` for an `old` that is not erased (41_engines R176, D23). -/
opaque programResult : Byte → Byte → Byte

/-- The `n`-th draw as the answer of `FlashUnlock`, `FlashProgramByte` or `FlashLock`; `none` is a hold. -/
opaque flashAnswer : Nat → Option PortResult
/-- The `n`-th draw as the answer of `FlashErase`; `none` is a hold. -/
opaque eraseAnswer : Nat → Option EraseAnswer
/-- The `n`-th draw as the answer of an option-store call; `none` is a hold. -/
opaque optAnswer : Nat → Option PortResult
/-- Whether the failed program at draw `n` left the new value (41_engines R176). -/
opaque programTook : Nat → Bool
/-- Whether the failed erase at draw `n` erased the byte at an address (41_engines R179). -/
opaque eraseTook : Nat → Nat → Bool
/-- Whether the failed option program or commit at draw `n` left the new RDP byte (41_engines R188, R189). -/
opaque rdpTook : Nat → Bool
/-- Which WRP bits the failed option program or commit at draw `n` left new (41_engines R188, R189). -/
opaque wrpTook : Nat → Byte
/-- The flash byte at an address after the RDP decrease committed at draw `n` (41_engines R189). -/
opaque flashDraw : Nat → Nat → Byte

end Config

end Sys2Proof
end

