-- ==== Sys2Proof/Machine/Crc.lean ====
section
/-! DEFINITION. The CRC function of the integrity verifier (40_dispatcher R140). -/

namespace Sys2Proof

/-- One round of `CrcStep`: shift left by one, and XOR the polynomial when bit 31 was 1. -/
def crcRound (c : Word) : Word :=
  if c.getLsbD 31 then (c <<< 1) ^^^ Config.crcPoly else c <<< 1

/-- `n` rounds. -/
def crcRounds : Nat → Word → Word
  | 0, c => c
  | n + 1, c => crcRounds n (crcRound c)

/-- `CrcStep(c, w)`: one 32-bit unit, most significant bit first. -/
def crcStep (c w : Word) : Word := crcRounds 32 (c ^^^ w)

/-- One byte folded as the unit that `P_CRC_UNIT` names: a zero-extended word and 32 rounds, or the top byte and 8. -/
def crcFold (u : CrcUnit) (c : Word) (b : Byte) : Word :=
  match u with
  | .byteAsWord => crcStep c (b.setWidth 32)
  | .byteAsByte => crcRounds 8 (c ^^^ (b.setWidth 32 <<< 24))

/-- The accumulator after the bytes of `d`, in order. -/
def crcAccumulate (u : CrcUnit) (c : Word) (d : List Byte) : Word := d.foldl (crcFold u) c

/-- `CRC(d)` with the unit as an argument. -/
def crcWith (u : CrcUnit) (d : List Byte) : Word := crcAccumulate u Config.crcInit d ^^^ Config.crcXorOut

/-- `CRC(d)` (40_dispatcher R140). -/
def crc (d : List Byte) : Word := crcWith Config.crcUnit d

end Sys2Proof
end

