-- ==== Sys2Proof/Machine/Operands.lean ====
section
/-! DEFINITION. Operand assembly and byte order (00_scope R11, 30_encoding R103, 20_memory R60). -/

namespace Sys2Proof

/-- `le16` (00_scope R11). -/
def le16 (b0 b1 : Byte) : BitVec 16 := b0.setWidth 16 ||| (b1.setWidth 16 <<< 8)

/-- `le32` (00_scope R11). -/
def le32 (b0 b1 b2 b3 : Byte) : Word :=
  b0.setWidth 32 ||| (b1.setWidth 32 <<< 8) ||| (b2.setWidth 32 <<< 16) ||| (b3.setWidth 32 <<< 24)

/-- `bytes_le32` (00_scope R11). -/
def bytesLe32 (v : Word) : List Byte :=
  [v.extractLsb' 0 8, v.extractLsb' 8 8, v.extractLsb' 16 8, v.extractLsb' 24 8]

/-- Byte `i` of a frame, `0x00` past its end: the buffer beyond a frame is `0x00` (40_dispatcher R133). -/
def byteAt (f : List Byte) (i : Nat) : Byte := f.getD i 0

/-- The 32-bit field whose first byte is byte `i` of a frame (30_encoding R95, R96, R92). -/
def wordAt (f : List Byte) (i : Nat) : Word :=
  le32 (byteAt f i) (byteAt f (i + 1)) (byteAt f (i + 2)) (byteAt f (i + 3))

/-- The 12-bit identifier as the 2-byte reply of GET_ID, least significant byte first (42_info_commands R222). -/
def idBytes (idcode : Word) : List Byte :=
  let id : BitVec 16 := (idcode.extractLsb' 0 12).setWidth 16
  [id.extractLsb' 0 8, id.extractLsb' 8 8]

end Sys2Proof
end

