-- ==== Sys2Proof/Syntax.lean ====
section
/-! DEFINITION. The commands of the block: one constructor of `Instr` per row of the opcode table (30_encoding R104). -/

namespace Sys2Proof

/-- The payload formats (30_encoding R94 to R101). -/
inductive Format where
  /-- no payload (R94) -/
  | f0
  /-- address (R95) -/
  | fa
  /-- address, count, data (R96) -/
  | fw
  /-- sector, count (R97) -/
  | fe
  /-- sector count, sector code (R98) -/
  | fp
  /-- level (R99) -/
  | fl
  /-- unimplemented, never read (R101) -/
  | fu
  deriving DecidableEq, Repr

/-- The names of the opcode table, in table order (30_encoding R104). -/
inductive Opcode where
  | getHelp | getVersion | getId | readMemory | goToAddress | writeMemory | erase | extendedErase | special
  | extendedSpecial | writeProtect | writeUnprotect | readoutProtect | readoutUnprotect | checksum
  deriving DecidableEq, Repr

/-- A command with its operands. Pad bytes and the payload of an unimplemented command are no operands: the block
ignores the first (30_encoding R100) and never reads the second (R101). -/
inductive Instr where
  /-- GET_HELP (42_info_commands R220) -/
  | getHelp
  /-- GET_VERSION (R221) -/
  | getVersion
  /-- GET_ID (R222) -/
  | getId
  /-- READ_MEMORY, unimplemented (45_unimplemented_commands R271) -/
  | readMemory
  /-- GO_TO_ADDRESS (43_memory_commands R230) -/
  | goToAddress (addr : Word)
  /-- WRITE_MEMORY (R231); `n` of format FW is the length of `data` -/
  | writeMemory (addr : Word) (data : List Byte)
  /-- ERASE (R232) -/
  | erase (sector count : Byte)
  /-- EXTENDED_ERASE, unimplemented (R272) -/
  | extendedErase
  /-- SPECIAL, unimplemented (R273) -/
  | special
  /-- EXTENDED_SPECIAL, unimplemented (R274) -/
  | extendedSpecial
  /-- WRITE_PROTECT (44_protection_commands R250) -/
  | writeProtect (sectorCount sectorCode : Byte)
  /-- WRITE_UNPROTECT (R251) -/
  | writeUnprotect (sectorCount sectorCode : Byte)
  /-- READOUT_PROTECT (R252) -/
  | readoutProtect
  /-- READOUT_UNPROTECT (R253) -/
  | readoutUnprotect (level : Byte)
  /-- CHECKSUM, unimplemented (R275) -/
  | checksum
  deriving DecidableEq, Repr

/-- The opcode of a command. -/
def Instr.opcode : Instr → Opcode
  | .getHelp => .getHelp
  | .getVersion => .getVersion
  | .getId => .getId
  | .readMemory => .readMemory
  | .goToAddress _ => .goToAddress
  | .writeMemory _ _ => .writeMemory
  | .erase _ _ => .erase
  | .extendedErase => .extendedErase
  | .special => .special
  | .extendedSpecial => .extendedSpecial
  | .writeProtect _ _ => .writeProtect
  | .writeUnprotect _ _ => .writeUnprotect
  | .readoutProtect => .readoutProtect
  | .readoutUnprotect _ => .readoutUnprotect
  | .checksum => .checksum

end Sys2Proof
end

