-- ==== Sys2Proof/WellFormed.lean ====
section
/-! DEFINITION. Which terms of `Instr` an encoding exists for. -/

namespace Sys2Proof

/-- The largest data count of format FW: `L <= 255` and `L = 10 + n` (30_encoding R96). -/
def maxData : Nat := 245

/-- A term of `Instr` that some frame encodes: only WRITE_MEMORY has a limit, on its data count (30_encoding R96). -/
def Instr.wellFormed : Instr → Bool
  | .writeMemory _ data => decide (data.length ≤ maxData)
  | .getHelp => true
  | .getVersion => true
  | .getId => true
  | .readMemory => true
  | .goToAddress _ => true
  | .erase _ _ => true
  | .extendedErase => true
  | .special => true
  | .extendedSpecial => true
  | .writeProtect _ _ => true
  | .writeUnprotect _ _ => true
  | .readoutProtect => true
  | .readoutUnprotect _ => true
  | .checksum => true

end Sys2Proof
end

