-- ==== Sys2Proof/Decode.lean ====
section
/-! DEFINITION. The command table, the decoder (total on any bytes, rejecting by name) and, after it, the encoder
(30_encoding). Decoding never looks at the CRC trailer: verification is the dispatcher's check (6) (40_dispatcher R131). -/

namespace Sys2Proof

/-- The opcode byte (30_encoding R104). -/
def Opcode.byte : Opcode → Byte
  | .getHelp => 0x00
  | .getVersion => 0x01
  | .getId => 0x02
  | .readMemory => 0x11
  | .goToAddress => 0x21
  | .writeMemory => 0x31
  | .erase => 0x43
  | .extendedErase => 0x44
  | .special => 0x50
  | .extendedSpecial => 0x51
  | .writeProtect => 0x63
  | .writeUnprotect => 0x73
  | .readoutProtect => 0x82
  | .readoutUnprotect => 0x92
  | .checksum => 0xA1

/-- The command table's entries, in table order (10_state R35). -/
def commandTable : List Opcode :=
  [.getHelp, .getVersion, .getId, .readMemory, .goToAddress, .writeMemory, .erase, .extendedErase, .special,
   .extendedSpecial, .writeProtect, .writeUnprotect, .readoutProtect, .readoutUnprotect, .checksum]

/-- The table's entry for an opcode byte, by exact match (30_encoding R104); `none` for an illegal opcode (R105). -/
def Opcode.ofByte (b : Byte) : Option Opcode := commandTable.find? (fun op => op.byte == b)

/-- The payload format of a command (30_encoding R104). -/
def Opcode.format : Opcode → Format
  | .getHelp => .f0
  | .getVersion => .f0
  | .getId => .f0
  | .readMemory => .fu
  | .goToAddress => .fa
  | .writeMemory => .fw
  | .erase => .fe
  | .extendedErase => .fu
  | .special => .fu
  | .extendedSpecial => .fu
  | .writeProtect => .fp
  | .writeUnprotect => .fp
  | .readoutProtect => .f0
  | .readoutUnprotect => .fl
  | .checksum => .fu

/-- The ACK reply length of a command; `none` for the five that get no ACK (30_encoding R104). -/
def Opcode.replyLen : Opcode → Option Nat
  | .getHelp => some 19
  | .getVersion => some 4
  | .getId => some 2
  | .readMemory => none
  | .goToAddress => some 1
  | .writeMemory => some 1
  | .erase => some 1
  | .extendedErase => none
  | .special => none
  | .extendedSpecial => none
  | .writeProtect => some 1
  | .writeUnprotect => some 1
  | .readoutProtect => some 1
  | .readoutUnprotect => some 1
  | .checksum => none

/-- The ten commands with a behaviour; the other five have format FU (45_unimplemented_commands R270). -/
def Opcode.implemented (op : Opcode) : Bool := op.format != .fu

/-- `MinLenOk(op, L, buf)` (30_encoding R100). Format FW is checked in two parts, so that byte 6 is read only when it is
a payload byte. Format FU has no minimum of its own (R101). -/
def minLenOk (fmt : Format) (len : Nat) (f : List Byte) : Bool :=
  match fmt with
  | .f0 => decide (5 ≤ len)
  | .fa => decide (9 ≤ len)
  | .fw => decide (10 ≤ len) && decide (10 + (byteAt f 6).toNat ≤ len)
  | .fe => decide (7 ≤ len)
  | .fp => decide (7 ≤ len)
  | .fl => decide (6 ≤ len)
  | .fu => true

/-- The operands of a frame, at the offsets of 30_encoding R94 to R99. -/
def operands (op : Opcode) (f : List Byte) : Instr :=
  match op with
  | .getHelp => .getHelp
  | .getVersion => .getVersion
  | .getId => .getId
  | .readMemory => .readMemory
  | .goToAddress => .goToAddress (wordAt f 2)
  | .writeMemory => .writeMemory (wordAt f 2) ((f.drop 7).take (byteAt f 6).toNat)
  | .erase => .erase (byteAt f 2) (byteAt f 3)
  | .extendedErase => .extendedErase
  | .special => .special
  | .extendedSpecial => .extendedSpecial
  | .writeProtect => .writeProtect (byteAt f 2) (byteAt f 3)
  | .writeUnprotect => .writeUnprotect (byteAt f 2) (byteAt f 3)
  | .readoutProtect => .readoutProtect
  | .readoutUnprotect => .readoutUnprotect (byteAt f 2)
  | .checksum => .checksum

/-- Why bytes are no command. -/
inductive DecodeError where
  /-- fewer than `L` bytes follow the length byte, or there is no length byte (30_encoding R102) -/
  | incomplete
  /-- `L < 5` (30_encoding R93) -/
  | malformed
  /-- an opcode outside the table (30_encoding R105) -/
  | unknownOpcode (op : Byte)
  /-- `L < MinLen(op, buf)` (30_encoding R100) -/
  | tooShort
  deriving DecidableEq, Repr

/-- The first command of a byte sequence and the bytes after its frame. The frame's length comes from its first byte
alone (30_encoding R102); the checks are (2), (3) and (5) of 40_dispatcher R131, in that order. -/
def decode (bytes : List Byte) : Except DecodeError (Instr × List Byte) :=
  match bytes with
  | [] => .error .incomplete
  | l :: rest =>
    if rest.length < l.toNat then .error .incomplete
    else if l.toNat < Config.minFrameLen then .error .malformed
    else
      match Opcode.ofByte (byteAt bytes 1) with
      | none => .error (.unknownOpcode (byteAt bytes 1))
      | some op =>
        if minLenOk op.format l.toNat bytes then .ok (operands op bytes, bytes.drop (l.toNat + 1))
        else .error .tooShort

/-! ## The encoder -/

/-- The payload of a command, with no pad bytes (30_encoding R94 to R99, R101). -/
def Instr.payload : Instr → List Byte
  | .getHelp => []
  | .getVersion => []
  | .getId => []
  | .readMemory => []
  | .goToAddress addr => bytesLe32 addr
  | .writeMemory addr data => bytesLe32 addr ++ BitVec.ofNat 8 data.length :: data
  | .erase sector count => [sector, count]
  | .extendedErase => []
  | .special => []
  | .extendedSpecial => []
  | .writeProtect sectorCount sectorCode => [sectorCount, sectorCode]
  | .writeUnprotect sectorCount sectorCode => [sectorCount, sectorCode]
  | .readoutProtect => []
  | .readoutUnprotect level => [level]
  | .checksum => []

/-- The bytes the CRC covers: length byte, opcode, payload (30_encoding R91). -/
def frameBody (op : Byte) (payload : List Byte) : List Byte :=
  BitVec.ofNat 8 (1 + payload.length + 4) :: op :: payload

/-- `FRAME(op, payload)` (30_encoding R110). -/
def frame (op : Byte) (payload : List Byte) : List Byte :=
  frameBody op payload ++ bytesLe32 (crc (frameBody op payload))

/-- `BAD_CRC FRAME(op, payload)`: bit 0 of trailer byte `c0` flipped (30_encoding R110). -/
def badCrcFrame (op : Byte) (payload : List Byte) : List Byte :=
  frameBody op payload ++ bytesLe32 (crc (frameBody op payload) ^^^ 1)

/-- The frame of a command whose payload is followed by the pad bytes `pad` (30_encoding R100). -/
def encodePadded (pad : List Byte) (i : Instr) : List Byte := frame i.opcode.byte (i.payload ++ pad)

/-- `PAD(k)`: `k` zero bytes appended to the payload (30_encoding R110). -/
def padFrame (k : Nat) (i : Instr) : List Byte := encodePadded (List.replicate k 0) i

/-- The shortest frame of a command. -/
def encode (i : Instr) : List Byte := frame i.opcode.byte i.payload

/-! ## The host's numbering of a table row's bits -/

/-- The bytes of `w`, least significant first. -/
def bytesOfNat : Nat → Nat → List Byte
  | 0, _ => []
  | k + 1, w => BitVec.ofNat 8 w :: bytesOfNat k (w / 256)

/-- How many payload bytes a format's operands take; `n` is the data count of format FW. -/
def Format.operandBytes (fmt : Format) (n : Nat) : Nat :=
  match fmt with
  | .f0 => 0
  | .fa => 4
  | .fw => 5 + n
  | .fe => 2
  | .fp => 2
  | .fl => 1
  | .fu => 0

/-- The frame of an instruction whose bits are `w`, numbered as the opcode table numbers them: its match stands for frame
byte 1 (`match_byte`), so bits 7..0 are the opcode and bits 15..8 the first payload byte. The length byte and the CRC
trailer, to which the table gives no bits, are those of the frame (log 14). -/
def tableFrame (nbits w : Nat) : List Byte :=
  let op : Byte := BitVec.ofNat 8 w
  let given := nbits / 8 - 1
  let n := if given < 5 then 0 else (BitVec.ofNat 8 (w / 2 ^ 40)).toNat
  let need := match Opcode.ofByte op with
    | some o => o.format.operandBytes n
    | none => 0
  frame op (bytesOfNat (max given need) (w % 2 ^ nbits / 256))

/-- The instruction the decoder reads from an instruction whose bits are `w`. -/
def decodeTableWord (nbits w : Nat) : Option Instr :=
  match decode (tableFrame nbits w) with
  | .ok (i, _) => some i
  | .error _ => none

end Sys2Proof
end

