-- ==== Sys2Proof/Machine/State.lean ====
section
/-! DEFINITION. The block's state as plain data (10_state), the reasons a run can stop, and reset (70_reset_and_hazards). -/

namespace Sys2Proof.Machine

/-- A model fault, with the base address of the launch that raised it (60_exceptions R311). -/
inductive Fault where
  /-- `FaultMisalignedLaunch`: raised by a launch whose base is not a multiple of 4. Safe: the block stops where the
  hardware may go on (D27). -/
  | misalignedLaunch (base : Word)
  /-- `FaultLaunchRead`: raised by a launch when one of the 8 entry-region bytes lies outside the windows or has no
  value. Safe, for the same reason. -/
  | launchRead (base : Word)
  deriving DecidableEq, Repr

/-- Why `step` has no meaning to give. -/
inductive Refusal where
  /-- Raised by an arm of `exec` whose instruction has no meaning yet. No arm does. -/
  | notModelled (mnemonic : String)
  /-- Raised by `step` in the final state `Launched`, which has no further step (41_engines R202). Safe. -/
  | launched
  /-- Raised by `step` in a state no run reaches: a command is being acknowledged or acted on and the frame buffer holds
  no frame of that command (log 17). Safe. -/
  | noFrame
  deriving DecidableEq, Repr

/-! ## Result enumerations (00_scope R15) -/

inductive VerifyResult where
  | pass
  | fail
  deriving DecidableEq, Repr

inductive WriteResult where
  | pass
  | fail
  deriving DecidableEq, Repr

inductive EraseResult where
  | pass
  | fail
  deriving DecidableEq, Repr

/-- The source's `Result` of `set_rdp`. -/
inductive RdpResult where
  | valid
  | invalid
  deriving DecidableEq, Repr

/-- The source's `Result` of `set_wrp`. -/
inductive WrpResult where
  | success
  | failed
  deriving DecidableEq, Repr

inductive Classification where
  | valid
  | invalid
  deriving DecidableEq, Repr

/-- The result of `OptChain` (41_engines R182). -/
inductive ChainResult where
  | ok
  | failed
  deriving DecidableEq, Repr

/-- The protocol's read-protection levels (00_scope R16, 41_engines R183, R184). -/
inductive RdpLevel where
  | level0
  | level1
  | level2
  deriving DecidableEq, Repr

/-! ## Port calls and events (10_state R39, R40) -/

/-- The `req` argument of `FlashErase`. -/
inductive EraseReq where
  | mass
  | sectors (first count : Byte)
  deriving DecidableEq, Repr

/-- The `cfg` argument of `OptProgram`. -/
inductive OptCfg where
  | rdp (byte : Byte)
  | wrp (enable : Bool) (mask : Byte)
  deriving DecidableEq, Repr

inductive FlashCall where
  | unlock
  | program (a : Word) (v : Byte)
  | erase (req : EraseReq) (vr : Word)
  | lock
  deriving DecidableEq, Repr

inductive FlashAnswer where
  | result (r : PortResult)
  | erase (a : EraseAnswer)
  deriving DecidableEq, Repr

inductive OptCall where
  | unlock
  | program (cfg : OptCfg)
  | launch
  | lock
  deriving DecidableEq, Repr

/-- The one diagnostic event the block records (D48). -/
inductive DiagEvent where
  | unknownCommand (op : Byte)
  deriving DecidableEq, Repr

/-- One event of the block's trace (10_state R39). -/
inductive Event where
  | rx (b : Byte)
  | rxFailed
  | tx (b : Byte)
  | flash (call : FlashCall) (answer : FlashAnswer)
  | opt (call : OptCall) (answer : PortResult)
  | id (v : Word)
  | diag (ev : DiagEvent)
  | launch (sp pc : Word)
  deriving DecidableEq, Repr

/-! ## The environment behind the ports (log 1, 15) -/

/-- An answer of `RxByte()`. -/
inductive RxAnswer where
  | byte (b : Byte)
  | rxFail
  deriving DecidableEq, Repr

/-- How a port with one answer, accepted, takes the calls to come: always, or so many more and then it holds. -/
inductive Acceptance where
  | always
  | upTo (n : Nat)
  deriving DecidableEq, Repr

/-- What the environment has in store for the ports. An answer `none` is a call that is never answered. -/
structure Env where
  /-- the answers of `RxByte()`, oldest first; none left: the call holds -/
  rx    : List RxAnswer
  /-- whether `TxByte` accepts or holds -/
  tx    : Acceptance
  /-- the known answers of `FlashUnlock`, `FlashProgramByte` and `FlashLock`; none left: a free value of `Config` -/
  flash : List (Option PortResult)
  /-- the known answers of `FlashErase`; none left: a free value of `Config` -/
  erase : List (Option EraseAnswer)
  /-- the known answers of the option-store calls; none left: a free value of `Config` -/
  opt   : List (Option PortResult)
  /-- the counter to which the free values are applied -/
  draws : Nat
  deriving DecidableEq, Repr

/-- The platform inputs of a run, which no step writes (10_state R36, 70_reset R342, 40_dispatcher R136; log 16). -/
structure Straps where
  idcode       : Word
  appBase      : Word
  nackOnRxFail : Bool
  deriving DecidableEq, Repr

/-! ## The sequencing state (10_state R22) -/

/-- The position inside a command's recipe, named by the port call that comes next. -/
inductive ActPos where
  /-- the recipe's beginning -/
  | start
  /-- WritePayload: data byte `i` is next, or the lock when there is none (41_engines R172) -/
  | program (i : Nat)
  /-- WritePayload: the lock step on a path with this result -/
  | writeLock (r : WriteResult)
  /-- Erase: the erase request is next (R177) -/
  | eraseCall
  /-- Erase: the lock step, after which this is the result -/
  | eraseLock (r : EraseResult)
  /-- OptChain: the program step is next (R182) -/
  | optProgram
  /-- OptChain: the commit is next -/
  | optLaunch
  /-- OptChain: the lock step; `failed` on a clean-up path -/
  | optLock (r : ChainResult)
  /-- GO_TO_ADDRESS: the status byte is out and the launch is next (43_memory_commands R230) -/
  | launch
  deriving DecidableEq, Repr

/-- The register `state`. -/
inductive Phase where
  /-- before the first step of a block whose P_BOOT_LAUNCH is true (70_reset R342; log 8) -/
  | bootLaunch
  | awaitLength
  | awaitPayload
  | dispatch
  | verify
  | sendNack
  /-- `ackSent` says that the first of the two bytes is out -/
  | sendAck (ackSent : Bool)
  | act (op : Opcode) (pos : ActPos)
  /-- the reply bytes still to send -/
  | sendReply (bytes : List Byte)
  | done
  | launched
  | faulted (r : Fault)
  deriving DecidableEq, Repr

/-! ## Registers, memory, State -/

/-- `FLASH_CTL` (10_state R29). `lock = true` is the field's value 1. -/
structure FlashCtl where
  lock : Bool
  deriving DecidableEq, Repr

/-- `OPT_CTL` (10_state R30). -/
structure OptCtl where
  optlock : Bool
  deriving DecidableEq, Repr

/-- The fields of `OPT` and `OPT_STAGED` (10_state R31, R32). Bit `i` of `wrp` is sector `i`; `P_NUM_SECTORS` is 8. -/
structure OptConfig where
  rdp : Byte
  wrp : Byte
  deriving DecidableEq, Repr

/-- `mem` (10_state R37): the bytes that differ from what an unlisted address reads as, addresses rising (log 7). -/
abbrev Memory := List Host.Cell

/-- `buf` (10_state R25). -/
abbrev FrameBuffer := Vector Byte Config.frameBuf

/-- The state of the block and of the environment behind its ports (10_state R20, R42). -/
structure State where
  /-- the register `state` (R22) -/
  phase     : Phase
  /-- R25 -/
  buf       : FrameBuffer
  /-- LEN (R26) -/
  len       : Byte
  /-- RXCNT (R27) -/
  rxcnt     : BitVec 9
  /-- CRC.ACC (R28) -/
  crcAcc    : Word
  /-- R29 -/
  flashCtl  : FlashCtl
  /-- R30 -/
  optCtl    : OptCtl
  /-- the committed option configuration (R31) -/
  opt       : OptConfig
  /-- the staged option configuration (R32) -/
  optStaged : OptConfig
  /-- R37 -/
  mem       : Memory
  /-- R39, oldest event first -/
  trace     : List Event
  /-- R41 -/
  fault     : Option Fault
  /-- the platform inputs of the run -/
  straps    : Straps
  /-- the environment behind the ports -/
  env       : Env
  deriving DecidableEq, Repr

/-- The frame buffer with every byte `0x00` (R25). -/
def FrameBuffer.zero : FrameBuffer := Vector.replicate Config.frameBuf 0

/-! ## Reset -/

/-- The environment at reset: no byte sent yet, no refusal to take a byte, no known answer (log 15). -/
def Env.quiet : Env :=
  { rx := [], tx := .always, flash := [], erase := [], opt := [], draws := 0 }

/-- The parameters on which the reset state depends (70_reset R341, R342). -/
structure ResetParams where
  /-- P_BOOT_LAUNCH -/
  bootLaunch : Bool
  /-- P_OPT_RDP0 -/
  optRdp0    : Byte
  /-- P_OPT_WRP0 -/
  optWrp0    : Byte
  /-- P_FLASH_IMAGE: the flash bytes that are not erased, in the canonical form of `Memory` -/
  flashImage : Memory
  straps     : Straps
  env        : Env
  deriving DecidableEq, Repr

/-- The state right after reset, for any value of the parameters (10_state R42, 70_reset R340 to R345). -/
def State.resetWith (p : ResetParams) : State :=
  { phase     := if p.bootLaunch then .bootLaunch else .awaitLength
    buf       := FrameBuffer.zero
    len       := 0
    rxcnt     := 0
    crcAcc    := Config.crcInit
    flashCtl  := { lock := true }
    optCtl    := { optlock := true }
    opt       := { rdp := p.optRdp0, wrp := p.optWrp0 }
    optStaged := { rdp := p.optRdp0, wrp := p.optWrp0 }
    mem       := p.flashImage
    trace     := []
    fault     := none
    straps    := p.straps
    env       := p.env }

/-- The parameters of `State.reset`: the defaults of 95_test_vectors, an erased flash window, and the opaque constants
for P_IDCODE and P_APP_BASE (log 6, 7, 8, 9, 15). -/
def ResetParams.standard : ResetParams :=
  { bootLaunch := false
    optRdp0    := Config.rdpL0
    optWrp0    := 0
    flashImage := []
    straps     := { idcode := Config.idcode, appBase := Config.appBase, nackOnRxFail := true }
    env        := Env.quiet }

/-- The machine right after reset. -/
def State.reset : State := State.resetWith ResetParams.standard

end Sys2Proof.Machine
end

