-- ==== Sys2Proof/Machine/Flags.lean ====
section
/-! DEFINITION. Results and status bytes. The block has no flags (10_state R24): what stands for them is the status byte
into which a command turns its engine's result (30_encoding R106). -/

namespace Sys2Proof.Machine

/-- Status of a write (30_encoding R106). -/
def WriteResult.status : WriteResult → Byte
  | .pass => Config.stOk
  | .fail => Config.stFailed

/-- Status of an erase (R106). -/
def EraseResult.status : EraseResult → Byte
  | .pass => Config.stOk
  | .fail => Config.stFailed

/-- Status of a read-protection change (R106). -/
def RdpResult.status : RdpResult → Byte
  | .valid => Config.stOk
  | .invalid => Config.stFailed

/-- Status of a write-protection change (R106). -/
def WrpResult.status : WrpResult → Byte
  | .success => Config.stOk
  | .failed => Config.stFailed

/-- `SetRdp`'s result of its chain (41_engines R186). -/
def ChainResult.rdp : ChainResult → RdpResult
  | .ok => .valid
  | .failed => .invalid

/-- `SetWrp`'s result of its chain (41_engines R187). -/
def ChainResult.wrp : ChainResult → WrpResult
  | .ok => .success
  | .failed => .failed

/-- The chain's result after its lock step: a failed final lock fails it (41_engines R182). -/
def ChainResult.afterLock (r : ChainResult) (answer : PortResult) : ChainResult :=
  match r, answer with
  | .ok, .ok => .ok
  | .ok, .fail => .failed
  | .failed, _ => .failed

/-- `Erase`'s result: the status word alone decides (41_engines R180). -/
def eraseResult (a : EraseAnswer) : EraseResult := if a.word = Config.eraseOk then .pass else .fail

/-- What the committed RDP byte reads back as (41_engines R184). -/
def rdpLevel (b : Byte) : RdpLevel :=
  if b = Config.rdpL0 then .level0 else if b = Config.rdpL1 then .level1 else .level2

/-- `Sentinel(level)` (41_engines R183). -/
def RdpLevel.sentinel : RdpLevel → Byte
  | .level0 => Config.rdpL0
  | .level1 => Config.rdpL1
  | .level2 => Config.rdpL2

/-- The level a `level` byte names; `none` above 2 (44_protection_commands R253). -/
def RdpLevel.ofByte (b : Byte) : Option RdpLevel :=
  if b = 0 then some .level0 else if b = 1 then some .level1 else if b = 2 then some .level2 else none

/-- `Classify(a)` (41_engines R170). -/
def classify (a : Word) : Classification :=
  if Config.ramA.contains a.toNat || Config.ramB.contains a.toNat || Config.flash.contains a.toNat then .valid
  else .invalid

end Sys2Proof.Machine
end

