-- ==== Sys2Proof/Machine/Memory.lean ====
section
/-! DEFINITION. The platform memory: reading and writing one byte, the canonical form, erasing, the sector table
(10_state R33, R34, R37; 20_memory R60 to R68). -/

namespace Sys2Proof.Machine

/-- An address inside one of the three windows (10_state R34). -/
def mapped (a : Nat) : Bool := Config.ramA.contains a || Config.ramB.contains a || Config.flash.contains a

/-- What an address that the memory does not list reads as: an erased byte in the flash window, no value elsewhere
(10_state R37; log 7). -/
def unlisted (a : Nat) : Option Byte := if Config.flash.contains a then some Config.erased else none

namespace Memory

/-- The byte listed for an address. -/
def lookup : Memory → Nat → Option Byte
  | [], _ => none
  | c :: m, a => if c.1 = a then some c.2 else lookup m a

/-- `mem[a]`: a byte, or `none` for `⊥`; an address outside the windows has no value (10_state R37). -/
def read (m : Memory) (a : Nat) : Option Byte :=
  if mapped a then
    match lookup m a with
    | some v => some v
    | none => unlisted a
  else none

/-- The list with the byte `v` for `a`, in address order. -/
def insert : Memory → Nat → Byte → Memory
  | [], a, v => [(a, v)]
  | c :: m, a, v =>
    if a < c.1 then (a, v) :: c :: m
    else if a = c.1 then (a, v) :: m
    else c :: insert m a v

/-- The list without `a`. -/
def remove (m : Memory) (a : Nat) : Memory := m.filter (fun c => c.1 != a)

/-- `mem[a] <- v`. An address outside the windows is outside the model, and the write has no effect (41_engines R176). -/
def write (m : Memory) (a : Nat) (v : Byte) : Memory :=
  if mapped a then
    if unlisted a = some v then remove m a else insert m a v
  else m

/-- Every flash byte whose address `p` selects becomes `P_ERASED`, which is what an unlisted flash address reads as. -/
def eraseWhere (m : Memory) (p : Nat → Bool) : Memory := m.filter (fun c => !(Config.flash.contains c.1 && p c.1))

/-- Every flash byte becomes the byte `f` gives its address; the RAM windows keep theirs. -/
def redrawFlash (m : Memory) (f : Nat → Byte) : Memory :=
  m.filter (fun c => decide (c.1 < Config.flash.base))
    ++ (List.range' Config.flash.base Config.flash.size).filterMap
        (fun a => if f a = Config.erased then none else some (a, f a))
    ++ m.filter (fun c => decide (Config.flash.last < c.1))

/-- The listed bytes of the flash window. -/
def flashPart (m : Memory) : Memory := m.filter (fun c => Config.flash.contains c.1)

/-- The canonical form: addresses strictly rising, each in a window, none with the byte an unlisted address reads as. -/
def wf (m : Memory) : Bool :=
  decide (m.Pairwise (fun c d => c.1 < d.1)) && m.all (fun c => mapped c.1 && !decide (unlisted c.1 = some c.2))

/-- The byte at a 32-bit address. -/
def byte (m : Memory) (a : Word) : Option Byte := read m a.toNat

/-- `MemRead(a, 4)` (00_scope R12): little-endian, addresses modulo 2^32 (20_memory R67); `none` where a byte has no
value. -/
def read32 (m : Memory) (a : Word) : Option Word :=
  match byte m a, byte m (a + 1), byte m (a + 2), byte m (a + 3) with
  | some b0, some b1, some b2, some b3 => some (le32 b0 b1 b2 b3)
  | _, _, _, _ => none

end Memory

/-! ## Programming, sectors, write protection -/

/-- `P_PROGRAM_RESULT(old, v)`: over an erased byte the byte `v` (41_engines R176, 70_reset R357), over any other a free
value (log 10). -/
def programResult (old v : Byte) : Byte := if old = Config.erased then v else Config.programResult old v

/-- The effect on `mem` of a program of `v` at `a` that takes place (41_engines R176): the program result in the flash
window, `v` in a RAM window, none elsewhere. -/
def Memory.program (m : Memory) (a : Word) (v : Byte) : Memory :=
  if Config.flash.contains a.toNat then
    match m.byte a with
    | some old => m.write a.toNat (programResult old v)
    | none => m
  else m.write a.toNat v

/-- Sector `i` of the table holds address `a`. -/
def inSector (i a : Nat) : Bool :=
  match Config.sectors[i]? with
  | some t => t.contains a
  | none => false

/-- Sector `i` is in the request: every sector of the table for a mass erase, sectors `f .. f+c-1` otherwise
(41_engines R179). -/
def EraseReq.coversSector (req : EraseReq) (i : Nat) : Bool :=
  match req with
  | .mass => decide (i < Config.numSectors)
  | .sectors first count =>
    decide (i < Config.numSectors) && decide (first.toNat ≤ i) && decide (i < first.toNat + count.toNat)

/-- The table's sector numbers. -/
def sectorNumbers : List Nat := List.range Config.numSectors

/-- Address `a` is in `S(req)` (41_engines R179). -/
def EraseReq.covers (req : EraseReq) (a : Nat) : Bool :=
  sectorNumbers.any (fun i => req.coversSector i && inSector i a)

/-- Address `a` lies in a sector whose committed WRP bit is 1 (41_engines R176, D55). -/
def protectedByte (wrp : Byte) (a : Nat) : Bool := sectorNumbers.any (fun i => wrp.getLsbD i && inSector i a)

/-- `W` is not empty: the request covers a sector whose committed WRP bit is 1 (41_engines R179). -/
def EraseReq.hitsProtected (req : EraseReq) (wrp : Byte) : Bool :=
  sectorNumbers.any (fun i => req.coversSector i && wrp.getLsbD i)

end Sys2Proof.Machine
end

