-- ==== Sys2Proof/Machine/Ops.lean ====
section
/-! DEFINITION. The named operations: one per port call (10_state R40), raising a fault (10_state R41), the launch
(41_engines R200). An operation with an answer that may hold is an `Option`: `none` is the hold (60_exceptions R312). -/

namespace Sys2Proof.Machine

/-- The three outcomes of a step of this machine. -/
abbrev Outcome := Host.Outcome State Fault Refusal

/-! ## Updates of the state -/

/-- `state <- p`. -/
def State.goto (s : State) (p : Phase) : State := { s with phase := p }

/-- The port call's event, appended to the trace (10_state R39). -/
def State.emit (s : State) (e : Event) : State := { s with trace := s.trace ++ [e] }

/-- The environment after an answer. -/
def State.withEnv (s : State) (e : Env) : State := { s with env := e }

/-- The position inside the running command's recipe; its beginning where no command is running. -/
def State.pos (s : State) : ActPos :=
  match s.phase with
  | .act _ pos => pos
  | _ => .start

/-- `raise Fault(r)` (10_state R41): taking the block's one kind of exception. Nothing is saved but the reason, and no
step leaves the state it enters (00_scope R14). -/
def State.raise (s : State) (r : Fault) : State := { s with fault := some r, phase := .faulted r }

/-- From an error or any other end of an exchange the block returns through `Done` (40_dispatcher R139, 60_exceptions
R316): the frame registers are cleared and the block waits for a length byte. -/
def State.nextExchange (s : State) : State :=
  { s with buf := FrameBuffer.zero, len := 0, rxcnt := 0, phase := .awaitLength }

/-- A step that is one port call: its next state, or no step while the port holds. The wait policy has no other value
(60_exceptions R318); a step that does not happen leaves the state as it is (log 2). -/
def answered (s : State) (r : Option State) : Outcome :=
  match Config.waitPolicy with
  | .forever => .next (r.getD s)

/-! ## The environment's answers (log 1) -/

/-- Whether the next call is accepted. -/
def Acceptance.accepts : Acceptance → Bool
  | .always => true
  | .upTo n => decide (0 < n)

/-- After one accepted call. -/
def Acceptance.spend : Acceptance → Acceptance
  | .always => .always
  | .upTo n => .upTo (n - 1)

/-- The next answer of `FlashUnlock`, `FlashProgramByte` or `FlashLock`. -/
def Env.flashAnswer (e : Env) : Option PortResult :=
  match e.flash with
  | r :: _ => r
  | [] => Config.flashAnswer e.draws

/-- After that answer. -/
def Env.afterFlash (e : Env) : Env := { e with flash := e.flash.tail, draws := e.draws + 1 }

/-- The next answer of `FlashErase`, before write protection forces it. -/
def Env.eraseAnswer (e : Env) : Option EraseAnswer :=
  match e.erase with
  | r :: _ => r
  | [] => Config.eraseAnswer e.draws

/-- After that answer. -/
def Env.afterErase (e : Env) : Env := { e with erase := e.erase.tail, draws := e.draws + 1 }

/-- The next answer of an option-store call. -/
def Env.optAnswer (e : Env) : Option PortResult :=
  match e.opt with
  | r :: _ => r
  | [] => Config.optAnswer e.draws

/-- After that answer. -/
def Env.afterOpt (e : Env) : Env := { e with opt := e.opt.tail, draws := e.draws + 1 }

/-! ## Transport, identity and diagnostic ports -/

/-- `TxByte(b)` (10_state R40). -/
def txByte (b : Byte) (s : State) : Option State :=
  if s.env.tx.accepts then some ((s.emit (.tx b)).withEnv { s.env with tx := s.env.tx.spend }) else none

/-- `Diag(ev)`, which never holds (10_state R40). -/
def recordDiag (ev : DiagEvent) (s : State) : State := s.emit (.diag ev)

/-- `ReadIdcode()`, which never holds (10_state R40): the answer and the state after it. -/
def readIdcode (s : State) : Word × State := (s.straps.idcode, s.emit (.id s.straps.idcode))

/-! ## Flash controller -/

/-- `FlashUnlock()` (41_engines R175). -/
def flashUnlock (s : State) : Option (PortResult × State) :=
  s.env.flashAnswer.map fun r =>
    (r, { s with
      flashCtl := { lock := if r = .ok then false else s.flashCtl.lock }
      trace := s.trace ++ [.flash .unlock (.result r)]
      env := s.env.afterFlash })

/-- `FlashLock()` (41_engines R175). -/
def flashLock (s : State) : Option (PortResult × State) :=
  s.env.flashAnswer.map fun r =>
    (r, { s with
      flashCtl := { lock := if r = .ok then true else s.flashCtl.lock }
      trace := s.trace ++ [.flash .lock (.result r)]
      env := s.env.afterFlash })

/-- The answer of `FlashProgramByte`: `Fail` for a byte in a write-protected sector, a draw otherwise (R176, D55). -/
def programAnswer (wrp : Byte) (a : Word) (drawn : PortResult) : PortResult :=
  if protectedByte wrp a.toNat then .fail else drawn

/-- `mem` after `FlashProgramByte(a, v)` answered `r` (R176): `took` says which of its two values a failed program of an
unprotected byte left. -/
def programEffect (m : Memory) (wrp : Byte) (a : Word) (v : Byte) (r : PortResult) (took : Bool) : Memory :=
  if protectedByte wrp a.toNat then m
  else
    match r with
    | .ok => m.program a v
    | .fail => if took then m.program a v else m

/-- `FlashProgramByte(a, v)` (41_engines R176). -/
def flashProgramByte (a : Word) (v : Byte) (s : State) : Option (PortResult × State) :=
  s.env.flashAnswer.map fun drawn =>
    let r := programAnswer s.opt.wrp a drawn
    (r, { s with
      mem := programEffect s.mem s.opt.wrp a v r (Config.programTook s.env.draws)
      trace := s.trace ++ [.flash (.program a v) (.result r)]
      env := s.env.afterFlash })

/-- The answer of `FlashErase`: where the request covers a protected byte the word is not `P_ERASE_OK` (R179, D55). A draw
of `P_ERASE_OK` then becomes another word; every other word is its own draw (log 12). -/
def forcedEraseAnswer (req : EraseReq) (wrp : Byte) (drawn : EraseAnswer) : EraseAnswer :=
  if req.hitsProtected wrp && decide (drawn.word = Config.eraseOk) then { drawn with word := drawn.word ^^^ 1 } else drawn

/-- `mem` after `FlashErase(req, vr)` answered the word `word` (R179): `took` says which bytes a failed erase erased. -/
def eraseEffect (m : Memory) (wrp : Byte) (req : EraseReq) (word : Word) (took : Nat → Bool) : Memory :=
  if word = Config.eraseOk then m.eraseWhere req.covers
  else m.eraseWhere (fun a => req.covers a && !protectedByte wrp a && took a)

/-- `FlashErase(req, P_VOLTAGE_RANGE)` (41_engines R179, R181). -/
def flashErase (req : EraseReq) (s : State) : Option (EraseAnswer × State) :=
  s.env.eraseAnswer.map fun drawn =>
    let ans := forcedEraseAnswer req s.opt.wrp drawn
    (ans, { s with
      mem := eraseEffect s.mem s.opt.wrp req ans.word (Config.eraseTook s.env.draws)
      trace := s.trace ++ [.flash (.erase req Config.voltageRange) (.erase ans)]
      env := s.env.afterErase })

/-! ## Option store -/

/-- `OptUnlock()` (41_engines R190). -/
def optUnlock (s : State) : Option (PortResult × State) :=
  s.env.optAnswer.map fun r =>
    (r, { s with
      optCtl := { optlock := if r = .ok then false else s.optCtl.optlock }
      trace := s.trace ++ [.opt .unlock r]
      env := s.env.afterOpt })

/-- `OptLock()` (41_engines R190). -/
def optLock (s : State) : Option (PortResult × State) :=
  s.env.optAnswer.map fun r =>
    (r, { s with
      optCtl := { optlock := if r = .ok then true else s.optCtl.optlock }
      trace := s.trace ++ [.opt .lock r]
      env := s.env.afterOpt })

/-- `new(cfg)` (41_engines R188). -/
def OptCfg.apply (cfg : OptCfg) (staged : OptConfig) : OptConfig :=
  match cfg with
  | .rdp x => { staged with rdp := x }
  | .wrp true mask => { staged with wrp := staged.wrp ||| mask }
  | .wrp false mask => { staged with wrp := staged.wrp &&& ~~~mask }

/-- A configuration each of whose fields is that of `old` or that of `new`: RDP by a Boolean, each WRP bit by a mask
(41_engines R188, R189). -/
def mixConfig (old new : OptConfig) (rdpNew : Bool) (wrpNew : Byte) : OptConfig :=
  { rdp := if rdpNew then new.rdp else old.rdp
    wrp := (old.wrp &&& ~~~wrpNew) ||| (new.wrp &&& wrpNew) }

/-- `OptProgram(cfg)` (41_engines R188). -/
def optProgram (cfg : OptCfg) (s : State) : Option (PortResult × State) :=
  s.env.optAnswer.map fun r =>
    (r, { s with
      optStaged :=
        if r = .ok then cfg.apply s.optStaged
        else mixConfig s.optStaged (cfg.apply s.optStaged) (Config.rdpTook s.env.draws) (Config.wrpTook s.env.draws)
      trace := s.trace ++ [.opt (.program cfg) r]
      env := s.env.afterOpt })

/-- `OPT` after `OptLaunch()` answered `r` (41_engines R189). -/
def launchedConfig (s : State) (r : PortResult) : OptConfig :=
  if r = .ok then s.optStaged
  else mixConfig s.opt s.optStaged (Config.rdpTook s.env.draws) (Config.wrpTook s.env.draws)

/-- The commit lowers RDP from Level 1 to Level 0 (41_engines R189, D35). -/
def regresses (old new : OptConfig) : Bool :=
  decide (rdpLevel old.rdp = .level1) && decide (rdpLevel new.rdp = .level0)

/-- `OptLaunch()` (41_engines R189). -/
def optLaunch (s : State) : Option (PortResult × State) :=
  s.env.optAnswer.map fun r =>
    let new := launchedConfig s r
    (r, { s with
      opt := new
      mem := if regresses s.opt new then s.mem.redrawFlash (Config.flashDraw s.env.draws) else s.mem
      trace := s.trace ++ [.opt .launch r]
      env := s.env.afterOpt })

/-! ## Launch -/

/-- `LaunchTransfer(sp, pc)` (41_engines R201). Its effects on the platform are the one event. -/
def launchTransfer (sp pc : Word) (s : State) : State := (s.emit (.launch sp pc)).goto .launched

/-- `Launch(base)` (41_engines R200): one atomic step. -/
def launchAt (base : Word) (s : State) : State :=
  if base.toNat % 4 ≠ 0 then s.raise (.misalignedLaunch base)
  else
    match s.mem.read32 base, s.mem.read32 (base + 4) with
    | some sp, some pc => launchTransfer sp pc s
    | _, _ => s.raise (.launchRead base)

/-! ## Replies -/

/-- One step of `SendReply` (40_dispatcher R138): the next of the reply bytes goes out, and after the last the exchange
is `Done`. -/
def sendReply (bytes : List Byte) (s : State) : Option State :=
  match bytes with
  | [] => some (s.goto .done)
  | b :: rest => (txByte b s).map fun t => t.goto (if rest.isEmpty then .done else .sendReply rest)

/-- A command that makes no port call before its reply: the first reply byte goes out in this step. -/
def replyNow (bytes : List Byte) (s : State) : Outcome := answered s (sendReply bytes s)

end Sys2Proof.Machine
end

