-- ==== Sys2Proof/Machine/Info.lean ====
section
/-! DEFINITION. The information commands (42_info_commands). -/

namespace Sys2Proof.Machine

/-- The version record as bytes (10_state R35). -/
def versionBytes : List Byte :=
  [Config.version.vendor, Config.version.major, Config.version.minor, Config.version.patch]

/-- The command table's opcode bytes, in table order (10_state R35). -/
def opcodeBytes : List Byte := commandTable.map Opcode.byte

/-- GET_HELP (R220). -/
def execGetHelp (s : State) : Outcome := replyNow (versionBytes ++ opcodeBytes) s

/-- GET_VERSION (R221). -/
def execGetVersion (s : State) : Outcome := replyNow versionBytes s

/-- GET_ID (R222). -/
def execGetId (s : State) : Outcome :=
  let r := readIdcode s
  .next (r.2.goto (.sendReply (idBytes r.1)))

end Sys2Proof.Machine
end

