-- ==== Sys2Proof/Machine/Engines.lean ====
section
/-! DEFINITION. The flash sequencer and the protection controller, one port call a step (41_engines R172 to R191). Each
takes the position in the running command's recipe from the state. -/

namespace Sys2Proof.Machine

/-! ## Flash program/erase engine -/

/-- The lock step of a write, whose answer is ignored (41_engines R172, R174). -/
def writeLockStep (r : WriteResult) (s : State) : Outcome :=
  answered s ((flashLock s).map fun (_, t) => t.goto (.sendReply [r.status]))

/-- `WritePayload(data, a)` (41_engines R172, R173). -/
def writePayload (data : List Byte) (a : Word) (s : State) : Outcome :=
  match s.pos with
  | .program i =>
    match data[i]? with
    | some v =>
      answered s ((flashProgramByte (a + BitVec.ofNat 32 i) v s).map fun (r, t) =>
        t.goto (.act .writeMemory (match r with | .ok => .program (i + 1) | .fail => .writeLock .fail)))
    | none => writeLockStep .pass s
  | .writeLock r => writeLockStep r s
  | _ =>
    answered s ((flashUnlock s).map fun (r, t) =>
      t.goto (.act .writeMemory (match r with | .ok => .program 0 | .fail => .writeLock .fail)))

/-- The erase request that `Erase(sector, count)` submits; `none` where it fails with no port call (41_engines R177). -/
def eraseRequest (sector count : Byte) : Option EraseReq :=
  if Config.numSectors < count.toNat then none
  else if sector = Config.massErase then some .mass
  else if sector.toNat < Config.numSectors then
    some (.sectors sector (BitVec.ofNat 8 (min count.toNat (Config.numSectors - sector.toNat))))
  else none

/-- `Erase(sector, count)` (41_engines R177). -/
def eraseSequence (sector count : Byte) (s : State) : Outcome :=
  match eraseRequest sector count with
  | none => replyNow [EraseResult.fail.status] s
  | some req =>
    match s.pos with
    | .eraseCall =>
      answered s ((flashErase req s).map fun (ans, t) => t.goto (.act .erase (.eraseLock (eraseResult ans))))
    | .eraseLock r => answered s ((flashLock s).map fun (_, t) => t.goto (.sendReply [r.status]))
    | _ =>
      answered s ((flashUnlock s).map fun (r, t) =>
        t.goto (.act .erase (match r with | .ok => .eraseCall | .fail => .eraseLock .fail)))

/-! ## Protection controller -/

/-- A position after the option chain's unlock. -/
def ActPos.inChain : ActPos → Bool
  | .optProgram => true
  | .optLaunch => true
  | .optLock _ => true
  | _ => false

/-- `OptChain(cfg)` for the command `op`, whose status byte the chain's result becomes (41_engines R182). -/
def optChain (op : Opcode) (cfg : OptCfg) (status : ChainResult → Byte) (s : State) : Outcome :=
  match s.pos with
  | .optProgram =>
    answered s ((optProgram cfg s).map fun (r, t) =>
      t.goto (.act op (match r with | .ok => .optLaunch | .fail => .optLock .failed)))
  | .optLaunch =>
    answered s ((optLaunch s).map fun (r, t) =>
      t.goto (.act op (.optLock (match r with | .ok => .ok | .fail => .failed))))
  | .optLock c => answered s ((optLock s).map fun (r, t) => t.goto (.sendReply [status (c.afterLock r)]))
  | _ =>
    answered s ((optUnlock s).map fun (r, t) =>
      t.goto (.act op (match r with | .ok => .optProgram | .fail => .optLock .failed)))

/-- The Level-2 gate turns the request away: the committed level is 2 and the request is for another
(41_engines R186, D33). -/
def gateRefuses (s : State) (level : RdpLevel) : Bool :=
  decide (rdpLevel s.opt.rdp = .level2) && decide (level ≠ .level2)

/-- `SetRdp(level)` (41_engines R186). The gate stands before the chain. -/
def setRdp (op : Opcode) (level : RdpLevel) (s : State) : Outcome :=
  if !s.pos.inChain && gateRefuses s level then replyNow [RdpResult.invalid.status] s
  else optChain op (.rdp level.sentinel) (fun c => c.rdp.status) s

/-- `SetWrp(sector_count, sector_code, enable)` (41_engines R187). -/
def setWrp (op : Opcode) (sectorCount sectorCode : Byte) (enable : Bool) (s : State) : Outcome :=
  if Config.numSectors < sectorCount.toNat then replyNow [WrpResult.failed.status] s
  else optChain op (.wrp enable sectorCode) (fun c => c.wrp.status) s

end Sys2Proof.Machine
end

