-- ==== Sys2Proof/Machine/MemoryCommands.lean ====
section
/-! DEFINITION. The memory commands (43_memory_commands). -/

namespace Sys2Proof.Machine

/-- GO_TO_ADDRESS (R230): the address is classified, the status byte goes out, and a valid address is launched. -/
def execGoToAddress (addr : Word) (s : State) : Outcome :=
  match s.pos with
  | .launch => .next (launchAt addr s)
  | _ =>
    match classify addr with
    | .invalid => replyNow [Config.stAddrInvalid] s
    | .valid => answered s ((txByte Config.stOk s).map fun t => t.goto (.act .goToAddress .launch))

/-- A position inside `WritePayload`. -/
def ActPos.inWrite : ActPos → Bool
  | .program _ => true
  | .writeLock _ => true
  | _ => false

/-- WRITE_MEMORY (R231): the start address is classified before any flash call. -/
def execWriteMemory (addr : Word) (data : List Byte) (s : State) : Outcome :=
  if !s.pos.inWrite && decide (classify addr = .invalid) then replyNow [Config.stAddrInvalid] s
  else writePayload data addr s

/-- ERASE (R232). -/
def execErase (sector count : Byte) (s : State) : Outcome := eraseSequence sector count s

end Sys2Proof.Machine
end

