-- ==== Sys2Proof/Machine/Protection.lean ====
section
/-! DEFINITION. The protection commands (44_protection_commands). -/

namespace Sys2Proof.Machine

/-- WRITE_PROTECT (R250). -/
def execWriteProtect (sectorCount sectorCode : Byte) (s : State) : Outcome :=
  setWrp .writeProtect sectorCount sectorCode true s

/-- WRITE_UNPROTECT (R251). -/
def execWriteUnprotect (sectorCount sectorCode : Byte) (s : State) : Outcome :=
  setWrp .writeUnprotect sectorCount sectorCode false s

/-- READOUT_PROTECT (R252). -/
def execReadoutProtect (s : State) : Outcome := setRdp .readoutProtect .level1 s

/-- READOUT_UNPROTECT (R253). -/
def execReadoutUnprotect (level : Byte) (s : State) : Outcome :=
  match RdpLevel.ofByte level with
  | none => replyNow [Config.stFailed] s
  | some l => setRdp .readoutUnprotect l s

end Sys2Proof.Machine
end

