-- ==== Sys2Proof/Machine/Unimplemented.lean ====
section
/-! DEFINITION. The five commands that carry no behaviour (45_unimplemented_commands): no port call, no response. -/

namespace Sys2Proof.Machine

/-- The common behaviour: the exchange ends, silently (R270). -/
def silent (s : State) : Outcome := .next (s.goto .done)

/-- READ_MEMORY (R271). -/
def execReadMemory (s : State) : Outcome := silent s

/-- EXTENDED_ERASE (R272). -/
def execExtendedErase (s : State) : Outcome := silent s

/-- SPECIAL (R273). -/
def execSpecial (s : State) : Outcome := silent s

/-- EXTENDED_SPECIAL (R274). -/
def execExtendedSpecial (s : State) : Outcome := silent s

/-- CHECKSUM (R275). -/
def execChecksum (s : State) : Outcome := silent s

end Sys2Proof.Machine
end

