-- ==== Sys2Proof/Machine/Dispatch.lean ====
section
/-! DEFINITION. One arm per command: the next step of its recipe, or its first step where it is not running (log 4). -/

namespace Sys2Proof.Machine

def exec (i : Instr) (s : State) : Host.Outcome State Fault Refusal :=
  match i with
  | .getHelp => Sys2Proof.Machine.execGetHelp s
  | .getVersion => Sys2Proof.Machine.execGetVersion s
  | .getId => Sys2Proof.Machine.execGetId s
  | .readMemory => Sys2Proof.Machine.execReadMemory s
  | .goToAddress addr => Sys2Proof.Machine.execGoToAddress addr s
  | .writeMemory addr data => Sys2Proof.Machine.execWriteMemory addr data s
  | .erase sector count => Sys2Proof.Machine.execErase sector count s
  | .extendedErase => Sys2Proof.Machine.execExtendedErase s
  | .special => Sys2Proof.Machine.execSpecial s
  | .extendedSpecial => Sys2Proof.Machine.execExtendedSpecial s
  | .writeProtect sectorCount sectorCode => Sys2Proof.Machine.execWriteProtect sectorCount sectorCode s
  | .writeUnprotect sectorCount sectorCode => Sys2Proof.Machine.execWriteUnprotect sectorCount sectorCode s
  | .readoutProtect => Sys2Proof.Machine.execReadoutProtect s
  | .readoutUnprotect level => Sys2Proof.Machine.execReadoutUnprotect level s
  | .checksum => Sys2Proof.Machine.execChecksum s

end Sys2Proof.Machine
end

