-- ==== Sys2Proof/Machine/Exchange.lean ====
section
/-! DEFINITION. The exchange: receiving a frame, the checks on it, verification, acknowledgement (40_dispatcher).

A step is one port call together with the pure computation before it (00_scope R13, D51): `settle` is that computation. -/

namespace Sys2Proof.Machine

/-! ## Receiving -/

/-- A receive failure ends the frame (40_dispatcher R136). -/
def rxFailure (s : State) : State := (s.emit .rxFailed).goto (if s.straps.nackOnRxFail then .sendNack else .done)

/-- A received byte is stored at index RXCNT; the first is also the length byte (40_dispatcher R132, R133). -/
def storeByte (b : Byte) (s : State) : State :=
  match s.phase with
  | .awaitLength => { s.emit (.rx b) with buf := s.buf.set 0 b, len := b, rxcnt := 1, phase := .awaitPayload }
  | _ => { s.emit (.rx b) with buf := s.buf.setIfInBounds s.rxcnt.toNat b, rxcnt := s.rxcnt + 1 }

/-- `RxByte()` (10_state R40). -/
def receive (s : State) : Option State :=
  match s.env.rx with
  | [] => none
  | .byte b :: rest => some (storeByte b (s.withEnv { s.env with rx := rest }))
  | .rxFail :: rest => some (rxFailure (s.withEnv { s.env with rx := rest }))

/-- `RXCNT = 1 + LEN`: the frame is complete (40_dispatcher R133). -/
def frameComplete (s : State) : Bool := decide (1 + s.len.toNat ≤ s.rxcnt.toNat)

/-! ## The checks on a complete frame -/

/-- The received frame, `buf[0 .. LEN]` (30_encoding R90). -/
def State.frameBytes (s : State) : List Byte := s.buf.toList.take (s.len.toNat + 1)

/-- The command in the frame buffer. -/
def State.fetch (s : State) : Except DecodeError Instr := (decode s.frameBytes).map Prod.fst

/-- The bytes the CRC covers, `buf[0 .. L-4]` (30_encoding R91). -/
def State.coveredBytes (s : State) : List Byte := s.frameBytes.take (s.len.toNat - 3)

/-- The claimed CRC, `le32(buf[L-3..L])` (30_encoding R92). -/
def State.claimedCrc (s : State) : Word := wordAt s.frameBytes (s.len.toNat - 3)

/-- `Verify(data, claimed)` (40_dispatcher R141): the result, and CRC.ACC reset (R142). -/
def verifyData (data : List Byte) (claimed : Word) (s : State) : VerifyResult × State :=
  let acc := crcAccumulate Config.crcUnit s.crcAcc data
  (if acc ^^^ Config.crcXorOut = claimed then .pass else .fail, { s with crcAcc := Config.crcInit })

/-- What the checks of 40_dispatcher R131 say of a complete frame. -/
inductive Verdict where
  /-- check (2) -/
  | malformed
  /-- check (3) -/
  | unknown (op : Byte)
  /-- check (4) -/
  | silent (i : Instr)
  /-- check (5) -/
  | tooShort
  /-- none of these applies: verification comes next -/
  | toVerify (i : Instr)
  deriving DecidableEq, Repr

/-- Checks (2) to (5), in their order (40_dispatcher R131, R134). The buffer holds 256 bytes, so a frame in it is never
incomplete. -/
def verdict (s : State) : Verdict :=
  match s.fetch with
  | .error .incomplete => .malformed
  | .error .malformed => .malformed
  | .error (.unknownOpcode op) => .unknown op
  | .error .tooShort => .tooShort
  | .ok i => if i.opcode.implemented then .toVerify i else .silent i

/-- From `Verify`: check (6) (40_dispatcher R131, R141). -/
def settleVerify (s : State) : State :=
  match verifyData s.coveredBytes s.claimedCrc s with
  | (.pass, t) => t.goto (.sendAck false)
  | (.fail, t) => t.goto .sendNack

/-- From `Dispatch`: to the phase of the port call the verdict asks for. An unknown opcode and an unimplemented one stay
in `Dispatch`, from where the diagnostic call or the silent end follows (40_dispatcher R130). -/
def settleDispatch (s : State) : State :=
  match verdict s with
  | .malformed => s.goto .sendNack
  | .unknown _ => s.goto .dispatch
  | .silent _ => s.goto .dispatch
  | .tooShort => s.goto .sendNack
  | .toVerify _ => settleVerify (s.goto .verify)

/-- The pure computation up to the next port call. -/
def settle (s : State) : State :=
  match s.phase with
  | .awaitPayload => if frameComplete s then settleDispatch (s.goto .dispatch) else s
  | .dispatch => settleDispatch s
  | .verify => settleVerify s
  | _ => s

/-! ## Port calls of the dispatcher -/

/-- The diagnostic event of an unknown opcode; NACK follows (40_dispatcher R134). -/
def diagUnknown (op : Byte) (s : State) : State := (recordDiag (.unknownCommand op) s).goto .sendNack

/-- `SendNack` (40_dispatcher R137). -/
def sendNack (s : State) : Option State := (txByte Config.nack s).map fun t => t.goto .done

/-- The first step of `SendAck(n)` (40_dispatcher R137). -/
def sendAckByte (s : State) : Option State := (txByte Config.ack s).map fun t => t.goto (.sendAck true)

/-- The byte `n` of `SendAck(n)`: the command's table reply length (30_encoding R104). -/
def replyLenByte (op : Opcode) : Byte := BitVec.ofNat 8 (op.replyLen.getD 0)

/-- The second step of `SendAck(n)`, after which the command's recipe begins (40_dispatcher R130, R137). -/
def sendAckLen (op : Opcode) (s : State) : Option State :=
  (txByte (replyLenByte op) s).map fun t => t.goto (.act op .start)

/-! ## Placing a frame where the block acts on it (log 14) -/

/-- The frame buffer that holds the bytes of a frame from index 0 on, and `0x00` after them. -/
def FrameBuffer.ofBytes (f : List Byte) : FrameBuffer :=
  ⟨((f ++ List.replicate Config.frameBuf 0).take Config.frameBuf).toArray, by simp⟩

/-- The state with the received frame `f`, at the point where its command is run next: at the beginning of its recipe, or
in `Dispatch` for a frame that never comes to `Act`. -/
def State.withFrame (s : State) (f : List Byte) : State :=
  { s with
    buf := FrameBuffer.ofBytes f
    len := byteAt f 0
    rxcnt := BitVec.ofNat 9 (1 + (byteAt f 0).toNat)
    phase :=
      match Opcode.ofByte (byteAt f 1) with
      | some op => if op.implemented then .act op .start else .dispatch
      | none => .dispatch }

/-! ## Sequences of runs -/

/-- The reset state of the run after the one that ended in `s`: the option store and the flash window persist, nothing
else does (70_reset R345). -/
def State.powerCycle (s : State) (bootLaunch : Bool) (env : Env) : State :=
  State.resetWith
    { bootLaunch := bootLaunch
      optRdp0 := s.opt.rdp
      optWrp0 := s.opt.wrp
      flashImage := s.mem.flashPart
      straps := s.straps
      env := env }

end Sys2Proof.Machine
end

