-- ==== Sys2Proof/Machine/Step.lean ====
section
/-! DEFINITION. One step of the block: at most one port call (10_state R23). -/

namespace Sys2Proof.Machine

/-- One step. The pure computation up to the next port call comes first; where that call holds, nothing happens. -/
def step (s : State) : Host.Outcome State Fault Refusal :=
  let t := settle s
  match t.phase with
  | .bootLaunch => .next (launchAt t.straps.appBase t)
  | .awaitLength => answered s (receive t)
  | .awaitPayload => answered s (receive t)
  | .dispatch =>
    match verdict t with
    | .unknown op => .next (diagUnknown op t)
    | .silent i => exec i t
    | _ => .refused .noFrame
  | .verify => .refused .noFrame
  | .sendNack => answered s (sendNack t)
  | .sendAck false => answered s (sendAckByte t)
  | .sendAck true =>
    match t.fetch with
    | .ok i => answered s (sendAckLen i.opcode t)
    | .error _ => .refused .noFrame
  | .act op _ =>
    match t.fetch with
    | .ok i => if i.opcode = op then exec i t else .refused .noFrame
    | .error _ => .refused .noFrame
  | .sendReply bytes => answered s (sendReply bytes t)
  | .done => .next t.nextExchange
  | .launched => .refused .launched
  | .faulted r => .fault r

/-- `s` with the instruction whose bits are `w` (numbered as the opcode table numbers them) where the next step runs it:
its whole frame in the buffer, received and, for an implemented command, acknowledged (log 14). -/
def State.withFetchWord (s : State) (nbits w : Nat) : State := s.withFrame (tableFrame nbits w)

end Sys2Proof.Machine
end

