-- ==== Sys2Proof/Safety.lean ====
section
/-! DEFINITION. What the spec says of whole exchanges and runs, in the terms claims use: error causes (60_exceptions),
exchange outcomes (40_dispatcher R145), and the invariant of the block. -/

namespace Sys2Proof.Machine

/-! ## Error causes -/

/-- The causes E1 to E10 of 60_exceptions R300, in that order. No byte on the wire and no register carries them. -/
inductive ErrorCause where
  | integrityFailure | addressInvalid | flashOperationFailed | protectionOperationFailed | unknownCommand
  | transportFailure | malformedFrame | frameTooShort | policyRefused | parameterRejected
  deriving DecidableEq, Repr

/-- What the host receives for a cause: before the ACK the NACK byte, or nothing for a receive failure where
P_NACK_ON_RX_FAIL is false; after the ACK a status byte (60_exceptions R300). -/
def ErrorCause.response (nackOnRxFail : Bool) : ErrorCause → List Byte
  | .integrityFailure => [Config.nack]
  | .addressInvalid => [Config.stAddrInvalid]
  | .flashOperationFailed => [Config.stFailed]
  | .protectionOperationFailed => [Config.stFailed]
  | .unknownCommand => [Config.nack]
  | .transportFailure => if nackOnRxFail then [Config.nack] else []
  | .malformedFrame => [Config.nack]
  | .frameTooShort => [Config.nack]
  | .policyRefused => [Config.stFailed]
  | .parameterRejected => [Config.stFailed]

/-- The cause for which a complete frame gets NACK (40_dispatcher R131, 60_exceptions R314); `none` for a frame that is
acknowledged or silent. -/
def frameCause (s : State) : Option ErrorCause :=
  match verdict s with
  | .malformed => some .malformedFrame
  | .unknown _ => some .unknownCommand
  | .silent _ => none
  | .tooShort => some .frameTooShort
  | .toVerify _ => if (verifyData s.coveredBytes s.claimedCrc s).1 = .pass then none else some .integrityFailure

/-- The read-protection level a command asks for. -/
def rdpRequest : Instr → Option RdpLevel
  | .getHelp => none
  | .getVersion => none
  | .getId => none
  | .readMemory => none
  | .goToAddress _ => none
  | .writeMemory _ _ => none
  | .erase _ _ => none
  | .extendedErase => none
  | .special => none
  | .extendedSpecial => none
  | .writeProtect _ _ => none
  | .writeUnprotect _ _ => none
  | .readoutProtect => some .level1
  | .readoutUnprotect level => RdpLevel.ofByte level
  | .checksum => none

/-- The cause for which a command is turned away before any port call of its action (60_exceptions R302, R308, R314). -/
def commandCause (i : Instr) (s : State) : Option ErrorCause :=
  match i with
  | .goToAddress addr => if classify addr = .invalid then some .addressInvalid else none
  | .writeMemory addr _ => if classify addr = .invalid then some .addressInvalid else none
  | .erase sector count => if eraseRequest sector count = none then some .parameterRejected else none
  | .writeProtect sectorCount _ => if Config.numSectors < sectorCount.toNat then some .parameterRejected else none
  | .writeUnprotect sectorCount _ => if Config.numSectors < sectorCount.toNat then some .parameterRejected else none
  | .readoutProtect => if gateRefuses s .level1 then some .policyRefused else none
  | .readoutUnprotect level =>
    match RdpLevel.ofByte level with
    | none => some .parameterRejected
    | some l => if gateRefuses s l then some .policyRefused else none
  | .getHelp => none
  | .getVersion => none
  | .getId => none
  | .readMemory => none
  | .extendedErase => none
  | .special => none
  | .extendedSpecial => none
  | .checksum => none

/-! ## The protection commands' chain -/

/-- The option configuration that a protection command programs; `none` where it makes no option call
(44_protection_commands). -/
def chainCfg : Instr → Option OptCfg
  | .getHelp => none
  | .getVersion => none
  | .getId => none
  | .readMemory => none
  | .goToAddress _ => none
  | .writeMemory _ _ => none
  | .erase _ _ => none
  | .extendedErase => none
  | .special => none
  | .extendedSpecial => none
  | .writeProtect sectorCount sectorCode =>
    if Config.numSectors < sectorCount.toNat then none else some (.wrp true sectorCode)
  | .writeUnprotect sectorCount sectorCode =>
    if Config.numSectors < sectorCount.toNat then none else some (.wrp false sectorCode)
  | .readoutProtect => some (.rdp RdpLevel.level1.sentinel)
  | .readoutUnprotect level => (RdpLevel.ofByte level).map fun l => .rdp l.sentinel
  | .checksum => none

/-- The status byte into which a protection command turns its chain's result (30_encoding R106). -/
def chainStatus : ChainResult → Byte
  | .ok => Config.stOk
  | .failed => Config.stFailed

/-! ## Exchange outcomes -/

/-- What one exchange ended with (40_dispatcher R145). It is not stored. -/
inductive ExchangeOutcome where
  | nack
  | silent
  | acked
  | launched
  deriving DecidableEq, Repr

/-- The outcome of the exchange that the step from `s` to `t` ends; `none` where it ends none. DESIGN CHOICE: a launch at
reset (70_reset R342), which reads no frame and so ends no exchange in the sense of 00_scope R16, has the outcome `launched`
too, because 40_dispatcher R145 says of `Launched` only that control went to the application (log 28). DESIGN CHOICE: an exchange that ends in `Faulted`,
a GO_TO_ADDRESS whose launch faults after `79 01 00`, has no outcome, for R145 names no outcome for it (log 29). -/
def exchangeOutcome (s t : State) : Option ExchangeOutcome :=
  match t.phase with
  | .launched => some .launched
  | .done =>
    match (settle s).phase with
    | .awaitLength => some .nack
    | .awaitPayload => some .nack
    | .sendNack => some .nack
    | .dispatch => some .silent
    | .act _ _ => some .acked
    | .sendReply _ => some .acked
    | _ => none
  | _ => none

/-- The bytes the host has received (10_state R39). -/
def sentBytes (trace : List Event) : List Byte :=
  trace.filterMap fun e => match e with
    | .tx b => some b
    | _ => none

/-! ## What an event says of the state -/

/-- What the port call recorded as `e` does to the control registers and the memory (10_state R29 to R32, R37, R40;
41_engines R175, R176, R179, R188 to R190). What the rules draw is existentially quantified. -/
def eventEffect (s : State) (e : Event) (t : State) : Prop :=
  t.flashCtl.lock =
    (match e with
    | .flash .unlock (.result .ok) => false
    | .flash .lock (.result .ok) => true
    | _ => s.flashCtl.lock) ∧
  t.optCtl.optlock =
    (match e with
    | .opt .unlock .ok => false
    | .opt .lock .ok => true
    | _ => s.optCtl.optlock) ∧
  (match e with
    | .opt (.program cfg) .ok => t.optStaged = cfg.apply s.optStaged
    | .opt (.program cfg) .fail =>
      ∃ rdpNew wrpNew, t.optStaged = mixConfig s.optStaged (cfg.apply s.optStaged) rdpNew wrpNew
    | _ => t.optStaged = s.optStaged) ∧
  (match e with
    | .opt .launch .ok => t.opt = s.optStaged
    | .opt .launch .fail => ∃ rdpNew wrpNew, t.opt = mixConfig s.opt s.optStaged rdpNew wrpNew
    | _ => t.opt = s.opt) ∧
  (match e with
    | .flash (.program a v) (.result r) =>
      (protectedByte s.opt.wrp a.toNat = true → r = .fail) ∧ ∃ took, t.mem = programEffect s.mem s.opt.wrp a v r took
    | .flash (.erase req _) (.erase ans) =>
      (req.hitsProtected s.opt.wrp = true → ans.word ≠ Config.eraseOk) ∧
        ∃ took, t.mem = eraseEffect s.mem s.opt.wrp req ans.word took
    | .opt .launch _ =>
      if regresses s.opt t.opt then ∃ f, t.mem = s.mem.redrawFlash f else t.mem = s.mem
    | _ => t.mem = s.mem)

/-! ## The invariant -/

/-- The frame registers: `buf[0] = LEN` (10_state R26), RXCNT counts no further than the frame (R27), nothing stands in
the buffer beyond the bytes received (40_dispatcher R133), and a command is looked at only when its frame is complete. -/
def State.frameInv (s : State) : Prop :=
  byteAt s.buf.toList 0 = s.len ∧ s.rxcnt.toNat ≤ 1 + s.len.toNat ∧
  (∀ i, s.rxcnt.toNat ≤ i → byteAt s.buf.toList i = 0) ∧
  match s.phase with
  | .bootLaunch => s.rxcnt = 0
  | .awaitLength => s.rxcnt = 0
  | .awaitPayload => s.rxcnt ≠ 0
  | .dispatch => frameComplete s = true
  | .verify => frameComplete s = true
  | .sendAck _ => frameComplete s = true
  | .act _ _ => frameComplete s = true
  | .sendReply _ => frameComplete s = true
  | _ => True

/-- The positions of WRITE_MEMORY's recipe. -/
def writePos (addr : Word) (data : List Byte) (pos : ActPos) : Bool :=
  match pos with
  | .start => true
  | .program k => decide (k ≤ data.length) && decide (classify addr = .valid)
  | .writeLock _ => decide (classify addr = .valid)
  | _ => false

/-- The positions of ERASE's recipe. -/
def erasePos (sector count : Byte) (pos : ActPos) : Bool :=
  match pos with
  | .start => true
  | .eraseCall => (eraseRequest sector count).isSome
  | .eraseLock _ => (eraseRequest sector count).isSome
  | _ => false

/-- The positions of a protection command's recipe, whose chain runs only where `allowed`. -/
def chainPos (allowed : Bool) (pos : ActPos) : Bool := decide (pos = .start) || (pos.inChain && allowed)

/-- The positions that belong to a command's recipe. -/
def posBelongs (i : Instr) (pos : ActPos) : Bool :=
  match i with
  | .getHelp => decide (pos = .start)
  | .getVersion => decide (pos = .start)
  | .getId => decide (pos = .start)
  | .readMemory => decide (pos = .start)
  | .goToAddress addr => decide (pos = .start) || (decide (pos = .launch) && decide (classify addr = .valid))
  | .writeMemory addr data => writePos addr data pos
  | .erase sector count => erasePos sector count pos
  | .extendedErase => decide (pos = .start)
  | .special => decide (pos = .start)
  | .extendedSpecial => decide (pos = .start)
  | .writeProtect sectorCount _ => chainPos (decide (sectorCount.toNat ≤ Config.numSectors)) pos
  | .writeUnprotect sectorCount _ => chainPos (decide (sectorCount.toNat ≤ Config.numSectors)) pos
  | .readoutProtect => chainPos true pos
  | .readoutUnprotect level => chainPos (RdpLevel.ofByte level).isSome pos
  | .checksum => decide (pos = .start)

/-- A command is verified, acknowledged, acted on and replied to only while the buffer holds its frame, it is acted on at a
position of its own recipe, and a reply in progress has a byte left. -/
def State.commandInv (s : State) : Prop :=
  match s.phase with
  | .verify => ∃ i, s.fetch = .ok i ∧ i.opcode.implemented = true
  | .sendAck _ => ∃ i, s.fetch = .ok i ∧ i.opcode.implemented = true
  | .act op pos => ∃ i, s.fetch = .ok i ∧ i.opcode.implemented = true ∧ i.opcode = op ∧ posBelongs i pos = true
  | .sendReply bytes => bytes ≠ [] ∧ ∃ i, s.fetch = .ok i ∧ i.opcode.implemented = true
  | _ => True

/-- A program, an erase, an option program and a commit come next only while their controller is unlocked
(10_state R29, R30). -/
def State.unlockInv (s : State) : Prop :=
  match s.phase with
  | .act _ (.program _) => s.flashCtl.lock = false
  | .act _ .eraseCall => s.flashCtl.lock = false
  | .act _ .optProgram => s.optCtl.optlock = false
  | .act _ .optLaunch => s.optCtl.optlock = false
  | _ => True

/-- INV-RDP2 (41_engines R191): at Level 2 the staged RDP byte is neither `0xAA` nor `0x55`. With it, so that a step
keeps it: an RDP program that comes next at Level 2 is one for Level 2. -/
def State.rdpInv (s : State) : Prop :=
  (rdpLevel s.opt.rdp = .level2 → rdpLevel s.optStaged.rdp = .level2) ∧
  match s.phase with
  | .act _ .optProgram =>
    ∀ i level, s.fetch = .ok i → rdpRequest i = some level → rdpLevel s.opt.rdp = .level2 → level = .level2
  | _ => True

/-- The fault mark agrees with the phase (10_state R41). -/
def State.faultInv (s : State) : Prop :=
  s.fault = match s.phase with
    | .faulted r => some r
    | _ => none

/-- The invariant of the block. -/
structure State.Inv (s : State) : Prop where
  memory  : s.mem.wf = true
  crc     : s.crcAcc = Config.crcInit
  frame   : s.frameInv
  command : s.commandInv
  unlock  : s.unlockInv
  rdp     : s.rdpInv
  fault   : s.faultInv

end Sys2Proof.Machine
end

