-- ==== Sys2Proof/Certificates/Slice0/Obligations.lean ====
section
/-! DEFINITION. The statements for the provers. Each is listed in OBLIGATIONS.json with the rules it formalises. -/

namespace Sys2Proof.Machine

/-! ## Vocabulary of the statements -/

/-- The state after the byte `b` is transmitted and the phase becomes `p`; nothing else changes. -/
def State.afterTx (s : State) (b : Byte) (p : Phase) : State :=
  { s with phase := p, trace := s.trace ++ [.tx b], env := { s.env with tx := s.env.tx.spend } }

/-- The command `i` is acknowledged and its recipe comes next. -/
def State.begins (s : State) (i : Instr) : Prop := s.phase = .act i.opcode .start ∧ s.fetch = .ok i

/-- A complete frame waits for its checks. -/
def State.frameReceived (s : State) : Prop :=
  s.phase = .awaitPayload ∧ frameComplete s = true ∧ byteAt s.frameBytes 0 = s.len ∧ s.crcAcc = Config.crcInit

/-- `mem` after the bytes of `data` are programmed one after the other from `a` on, addresses modulo 2^32. -/
def programmed (m : Memory) (a : Word) : List Byte → Memory
  | [] => m
  | v :: rest => programmed (m.program a v) (a + 1) rest

/-- The program events of a write that no call of fails, in ascending address order. -/
def programEvents (a : Word) : List Byte → List Event
  | [] => []
  | v :: rest => .flash (.program a v) (.result .ok) :: programEvents (a + 1) rest

end Sys2Proof.Machine

section
open Sys2Proof Sys2Proof.Machine

/-! ## Encoding -/

/-- 30_encoding R90 to R102: decoding the frame of a well-formed command, with any pad bytes that fit, gives back the
command with every operand, and exactly the bytes after the frame. -/
def Obligations.DecodeOfEncodedCommandGivesItBack : Prop :=
  ∀ (i : Instr) (pad rest : List Byte), i.wellFormed = true → i.payload.length + pad.length ≤ 250 →
    decode (encodePadded pad i ++ rest) = .ok (i, rest)

/-- 95_test_vectors: frames written out there decode to the commands they stand for, one of each payload format. -/
def Obligations.WrittenOutFramesDecode : Prop :=
  decode [0x05, 0x01, 0xE0, 0x42, 0x3C, 0x04] = .ok (.getVersion, []) ∧
  decode [0x09, 0x21, 0x00, 0x80, 0x00, 0x08, 0x67, 0x84, 0x4A, 0x09] = .ok (.goToAddress 0x08008000, []) ∧
  decode [0x0C, 0x31, 0x00, 0x00, 0x01, 0x20, 0x02, 0x11, 0x22, 0x26, 0xAC, 0x92, 0xC3] =
    .ok (.writeMemory 0x20010000 [0x11, 0x22], []) ∧
  decode [0x07, 0x43, 0x06, 0x05, 0x26, 0x10, 0x2D, 0x11] = .ok (.erase 6 5, []) ∧
  decode [0x07, 0x63, 0x02, 0x03, 0xAD, 0xE9, 0xD5, 0x1B] = .ok (.writeProtect 2 3, []) ∧
  decode [0x07, 0x92, 0x02, 0x00, 0xE9, 0xF8, 0x65, 0x6F] = .ok (.readoutUnprotect 2, []) ∧
  decode [0x05, 0xA1, 0xEE, 0x14, 0x13, 0xF5] = .ok (.checksum, []) ∧
  decode [0x05, 0x99, 0xC6, 0x94, 0x29, 0x07] = .error (.unknownOpcode 0x99) ∧
  decode [0x06, 0x43, 0x02, 0x01, 0x00, 0x00, 0x00] = .error .tooShort ∧
  decode [0x04, 0x01, 0x00, 0x00, 0x00] = .error .malformed

/-- 40_dispatcher R143: whenever a verification passes, flipping any one bit of the data or of the claimed CRC makes it
fail. -/
def Obligations.VerifyDetectsEverySingleBitFlip : Prop :=
  ∀ (data : List Byte) (claimed : Word) (s : State), s.crcAcc = Config.crcInit →
    (verifyData data claimed s).1 = .pass →
    (∀ k bit, k < data.length → bit < 8 →
      (verifyData (data.modify k (fun b => b ^^^ (1 <<< bit))) claimed s).1 = .fail) ∧
    (∀ bit, bit < 32 → (verifyData data (claimed ^^^ (1 <<< bit)) s).1 = .fail)

/-! ## The exchange -/

/-- 40_dispatcher R132, R136: in AwaitLength a byte is stored as `buf[0]`, LEN and the start of the frame; a receive
failure ends the frame; and with no answer the block holds. -/
def Obligations.LengthByteIsReceived : Prop :=
  ∀ s : State, s.phase = .awaitLength →
    (∀ b rest, s.env.rx = .byte b :: rest →
      step s = .next { s with
        phase := .awaitPayload, buf := s.buf.set 0 b, len := b, rxcnt := 1
        trace := s.trace ++ [.rx b], env := { s.env with rx := rest } }) ∧
    (∀ rest, s.env.rx = .rxFail :: rest →
      step s = .next { s with
        phase := if s.straps.nackOnRxFail then .sendNack else .done
        trace := s.trace ++ [.rxFailed], env := { s.env with rx := rest } }) ∧
    (s.env.rx = [] → step s = .next s)

/-- 40_dispatcher R133, R136: while RXCNT < 1 + LEN a byte is stored at index RXCNT, which is inside the buffer; a receive
failure ends the frame; with no answer the block holds. A complete frame is received no further. -/
def Obligations.PayloadBytesAreReceived : Prop :=
  ∀ s : State, s.phase = .awaitPayload →
    (s.rxcnt.toNat < 1 + s.len.toNat →
      (∀ b rest, s.env.rx = .byte b :: rest →
        step s = .next { s with
          buf := s.buf.setIfInBounds s.rxcnt.toNat b, rxcnt := s.rxcnt + 1
          trace := s.trace ++ [.rx b], env := { s.env with rx := rest } }) ∧
      s.rxcnt.toNat < Config.frameBuf ∧
      (∀ rest, s.env.rx = .rxFail :: rest →
        step s = .next { s with
          phase := if s.straps.nackOnRxFail then .sendNack else .done
          trace := s.trace ++ [.rxFailed], env := { s.env with rx := rest } }) ∧
      (s.env.rx = [] → step s = .next s)) ∧
    (1 + s.len.toNat ≤ s.rxcnt.toNat → ∀ t, step s = .next t → t.env.rx = s.env.rx ∧ t.buf = s.buf)

/-- 40_dispatcher R131 (2) to (7), R134: the checks on a complete frame, in their order, each with the port call of the
step that makes it. -/
def Obligations.FrameChecksComeInOrder : Prop :=
  ∀ s : State, s.frameReceived → s.env.tx.accepts = true →
    (s.len.toNat < 5 → step s = .next (s.afterTx 0x1F .done)) ∧
    (5 ≤ s.len.toNat →
      (Opcode.ofByte (byteAt s.frameBytes 1) = none →
        step s = .next { s with
          phase := .sendNack, trace := s.trace ++ [.diag (.unknownCommand (byteAt s.frameBytes 1))] }) ∧
      (∀ op, Opcode.ofByte (byteAt s.frameBytes 1) = some op →
        (op.implemented = false → step s = .next { s with phase := .done }) ∧
        (op.implemented = true →
          (minLenOk op.format s.len.toNat s.frameBytes = false → step s = .next (s.afterTx 0x1F .done)) ∧
          (minLenOk op.format s.len.toNat s.frameBytes = true →
            (crc (s.frameBytes.take (s.len.toNat - 3)) ≠ wordAt s.frameBytes (s.len.toNat - 3) →
              step s = .next (s.afterTx 0x1F .done)) ∧
            (crc (s.frameBytes.take (s.len.toNat - 3)) = wordAt s.frameBytes (s.len.toNat - 3) →
              step s = .next (s.afterTx 0x79 (.sendAck true)))))))

/-- 40_dispatcher R137: NACK is one step and ends the exchange; ACK is two steps, the second byte being the command's table
reply length, after which its recipe begins. The reply lengths are 19 for GET_HELP, 4 for GET_VERSION, 2 for GET_ID, 1 for
the seven other implemented commands, and none for the five unimplemented ones, which get no ACK (30_encoding R104). -/
def Obligations.NackAndAckAreSent : Prop :=
  (∀ s : State, s.env.tx.accepts = true →
    (s.phase = .sendNack → step s = .next (s.afterTx 0x1F .done)) ∧
    (s.phase = .sendAck false → step s = .next (s.afterTx 0x79 (.sendAck true))) ∧
    (∀ i n, s.phase = .sendAck true → s.fetch = .ok i → i.opcode.replyLen = some n →
      step s = .next (s.afterTx (BitVec.ofNat 8 n) (.act i.opcode .start)))) ∧
  Opcode.getHelp.replyLen = some 19 ∧ Opcode.getVersion.replyLen = some 4 ∧ Opcode.getId.replyLen = some 2 ∧
  (∀ op : Opcode,
    op = .goToAddress ∨ op = .writeMemory ∨ op = .erase ∨ op = .writeProtect ∨ op = .writeUnprotect ∨
      op = .readoutProtect ∨ op = .readoutUnprotect → op.replyLen = some 1) ∧
  (∀ op : Opcode,
    op = .readMemory ∨ op = .extendedErase ∨ op = .special ∨ op = .extendedSpecial ∨ op = .checksum →
      op.replyLen = none)

/-- 40_dispatcher R138: a reply of `n` bytes is `n` steps, one byte each, in order, and then `Done`. -/
def Obligations.ReplyIsSentByteByByte : Prop :=
  ∀ (s : State) (bytes : List Byte), s.phase = .sendReply bytes → bytes ≠ [] → s.env.tx = .always →
    Sys2Proof.core.run bytes.length s =
      .next ({ s with phase := .done, trace := s.trace ++ bytes.map Event.tx } : State)

/-- 40_dispatcher R139: from Done one step with no port call clears the frame registers and waits for a length byte. -/
def Obligations.DoneClearsTheFrame : Prop :=
  ∀ s : State, s.phase = .done →
    step s = .next { s with phase := .awaitLength, buf := Vector.replicate 256 0, len := 0, rxcnt := 0 }

/-- 40_dispatcher R142: after a verification, pass or fail, CRC.ACC is `0xFFFFFFFF`, nothing else is written, and the result
depends on the data and the claimed CRC alone. -/
def Obligations.VerificationsDoNotCombine : Prop :=
  ∀ (data : List Byte) (claimed : Word) (s s' : State), s.crcAcc = Config.crcInit → s'.crcAcc = Config.crcInit →
    (verifyData data claimed s).2 = { s with crcAcc := 0xFFFFFFFF } ∧
    (verifyData data claimed s).1 = (verifyData data claimed s').1 ∧
    ((verifyData data claimed s).1 = .pass ↔ crc data = claimed)

/-- 60_exceptions R312 and log 2: while a port call is not answered the block makes no step, in the dispatcher and in every
command. The dispatcher's calls are the two receives, the NACK or ACK byte of the step that completes a frame's checks (a
malformed frame or an implemented opcode; the others make no transmit call there), the NACK and ACK steps, and the reply
bytes. A command's calls are the first byte of its reply, the status byte of a command turned away included, and its flash
and option calls. -/
def Obligations.HeldPortMakesNoStep : Prop :=
  ∀ s : State,
    (s.env.rx = [] →
      (s.phase = .awaitLength → step s = .next s) ∧
      (s.phase = .awaitPayload → frameComplete s = false → step s = .next s)) ∧
    (s.env.tx.accepts = false →
      (s.frameReceived →
        s.len.toNat < 5 ∨ (∃ op, Opcode.ofByte (byteAt s.frameBytes 1) = some op ∧ op.implemented = true) →
        step s = .next s) ∧
      (s.phase = .sendNack → step s = .next s) ∧ (s.phase = .sendAck false → step s = .next s) ∧
      (∀ i, s.phase = .sendAck true → s.fetch = .ok i → step s = .next s) ∧
      (∀ b rest, s.phase = .sendReply (b :: rest) → step s = .next s) ∧
      exec .getHelp s = .next s ∧ exec .getVersion s = .next s ∧
      (∀ addr, s.pos ≠ .launch → exec (.goToAddress addr) s = .next s) ∧
      (∀ addr data, s.pos.inWrite = false → classify addr = .invalid → exec (.writeMemory addr data) s = .next s) ∧
      (∀ sector count, eraseRequest sector count = none → exec (.erase sector count) s = .next s) ∧
      (∀ sectorCount sectorCode : Byte, 8 < sectorCount.toNat →
        exec (.writeProtect sectorCount sectorCode) s = .next s ∧
        exec (.writeUnprotect sectorCount sectorCode) s = .next s) ∧
      (∀ level : Byte, 2 < level.toNat → exec (.readoutUnprotect level) s = .next s) ∧
      (∀ i level, rdpRequest i = some level → gateRefuses s level = true → s.pos.inChain = false →
        exec i s = .next s)) ∧
    (s.env.flashAnswer = none →
      (∀ addr data, s.pos.inWrite = true ∨ classify addr = .valid → exec (.writeMemory addr data) s = .next s) ∧
      (∀ sector count, (eraseRequest sector count).isSome = true → s.pos ≠ .eraseCall →
        exec (.erase sector count) s = .next s)) ∧
    (s.env.eraseAnswer = none → ∀ sector count, (eraseRequest sector count).isSome = true → s.pos = .eraseCall →
      exec (.erase sector count) s = .next s) ∧
    (s.env.optAnswer = none → ∀ i cfg, chainCfg i = some cfg →
      s.pos.inChain = true ∨ (∀ level, rdpRequest i = some level → gateRefuses s level = false) → exec i s = .next s)

/-- 40_dispatcher R146: a byte is received only while the block awaits a frame, while it awaits a frame's first byte nothing is
sent, and it comes to await one only from Done. -/
def Obligations.ExchangesNeverOverlap : Prop :=
  ∀ s t : State, step s = .next t →
    (s.phase ≠ .awaitLength → s.phase ≠ .awaitPayload →
      t.env.rx = s.env.rx ∧ (∀ b, t.trace ≠ s.trace ++ [.rx b]) ∧ t.trace ≠ s.trace ++ [.rxFailed]) ∧
    (s.phase = .awaitLength → ∀ b, t.trace ≠ s.trace ++ [.tx b]) ∧
    (t.phase = .awaitLength → s.phase ≠ .awaitLength → s.phase = .done)

/-- 40_dispatcher R145: in a state of the invariant, a step that enters Done or Launched ends an exchange with one of the
four outcomes. Nack: the byte `0x1F` was sent, or a receive failed where P_NACK_ON_RX_FAIL is false. Silent: the command is
an unimplemented one, and no port call was made. Acked: the step sent the reply's last byte. Launched: a launch. That the
launch at reset, where no exchange is under way, counts as one with the outcome Launched is the model's choice (log 28), and so is that an exchange that ends in a fault has no outcome, so that nothing is said of it here
(log 29). -/
def Obligations.EveryExchangeEndsWithOneOutcome : Prop :=
  ∀ s t : State, s.Inv → step s = .next t → (t.phase = .done ∨ t.phase = .launched) →
    ∃ o, exchangeOutcome s t = some o ∧
      (o = .nack → t.trace = s.trace ++ [.tx 0x1F] ∨ (t.trace = s.trace ++ [.rxFailed] ∧ s.straps.nackOnRxFail = false)) ∧
      (o = .silent → t.trace = s.trace ∧ ∃ i, s.fetch = .ok i ∧ i.opcode.implemented = false) ∧
      (o = .acked → ∃ i b, s.fetch = .ok i ∧ i.opcode.implemented = true ∧ t.trace = s.trace ++ [.tx b]) ∧
      (o = .launched → ∃ sp pc, t.trace = s.trace ++ [.launch sp pc])

/-! ## Validator and launcher -/

/-- 41_engines R170: an address is Valid exactly when it lies in one of the three windows, bounds included. -/
def Obligations.ClassifyIsWindowMembership : Prop :=
  ∀ a : Word, classify a = .valid ↔
    (0x20010000 ≤ a.toNat ∧ a.toNat ≤ 0x2004BFFF) ∨ (0x2004C000 ≤ a.toNat ∧ a.toNat ≤ 0x2004FFFF) ∨
    (0x08000000 ≤ a.toNat ∧ a.toNat ≤ 0x080FFFFF)

/-- 41_engines R200, 20_memory R61, R62: a launch of a misaligned base, or over an entry region one of whose 8 bytes lies
outside the windows or has no value, raises its fault; every other launch transfers control with the two little-endian
words. A launch writes nothing but the trace, the phase and the fault mark. -/
def Obligations.LaunchReadsEntryRegion : Prop :=
  ∀ (base : Word) (s : State),
    (base.toNat % 4 ≠ 0 →
      launchAt base s = { s with fault := some (.misalignedLaunch base), phase := .faulted (.misalignedLaunch base) }) ∧
    (base.toNat % 4 = 0 →
      (∀ k : Nat, k < 8 → s.mem.byte (base + BitVec.ofNat 32 k) = none →
        launchAt base s = { s with fault := some (.launchRead base), phase := .faulted (.launchRead base) }) ∧
      (∀ b : Nat → Byte, (∀ k : Nat, k < 8 → s.mem.byte (base + BitVec.ofNat 32 k) = some (b k)) →
        launchAt base s = { s with
          phase := .launched
          trace := s.trace ++ [.launch (le32 (b 0) (b 1) (b 2) (b 3)) (le32 (b 4) (b 5) (b 6) (b 7))] })) ∧
    (∀ a : Word, classify a = .invalid → s.mem.byte a = none)

/-- 41_engines R202, 00_scope R14 and log 3: no step leaves Launched or a fault state. -/
def Obligations.FinalStatesHaveNoStep : Prop :=
  ∀ s : State, (s.phase = .launched → step s = .refused .launched) ∧
    (∀ r, s.phase = .faulted r → step s = .fault r)

/-! ## Flash engine -/

/-- 41_engines R176: what a byte program answers and leaves. -/
def Obligations.ProgramByteEffect : Prop :=
  ∀ (a : Word) (v : Byte) (s t : State) (r drawn : PortResult), s.env.flashAnswer = some drawn →
    flashProgramByte a v s = some (r, t) →
    (protectedByte s.opt.wrp a.toNat = true → r = .fail ∧ t.mem = s.mem) ∧
    (protectedByte s.opt.wrp a.toNat = false → r = drawn ∧
      (∀ old, Config.flash.contains a.toNat = true → s.mem.byte a = some old →
        (r = .ok → t.mem.byte a = some (programResult old v)) ∧
        (r = .fail → t.mem.byte a = some old ∨ t.mem.byte a = some (programResult old v))) ∧
      (Config.ramA.contains a.toNat = true ∨ Config.ramB.contains a.toNat = true →
        (r = .ok → t.mem.byte a = some v) ∧
        (r = .fail → t.mem.byte a = s.mem.byte a ∨ t.mem.byte a = some v)) ∧
      (classify a = .invalid → t.mem = s.mem)) ∧
    (∀ b, b ≠ a.toNat → t.mem.read b = s.mem.read b) ∧
    programResult 0xFF v = v ∧
    t = { s with mem := t.mem, trace := s.trace ++ [.flash (.program a v) (.result r)], env := s.env.afterFlash }

/-- 41_engines R177: which request an erase submits, and for which operands it fails with no port call. -/
def Obligations.EraseRequestIsChosen : Prop :=
  ∀ sector count : Byte,
    (8 < count.toNat → eraseRequest sector count = none) ∧
    (count.toNat ≤ 8 →
      (sector = 0xFF → eraseRequest sector count = some .mass) ∧
      (sector.toNat < 8 →
        eraseRequest sector count =
          some (.sectors sector (BitVec.ofNat 8 (min count.toNat (8 - sector.toNat))))) ∧
      (8 ≤ sector.toNat → sector ≠ 0xFF → eraseRequest sector count = none))

/-- 41_engines R178: an erase request never names a sector outside the table. -/
def Obligations.EraseClampStaysInTable : Prop :=
  ∀ sector count first n : Byte, eraseRequest sector count = some (.sectors first n) →
    first = sector ∧ n.toNat ≤ count.toNat ∧ first.toNat + n.toNat ≤ 8 ∧
    ∀ a, (EraseReq.sectors first n).covers a = true → 0x08000000 ≤ a ∧ a ≤ 0x080FFFFF

/-- 41_engines R179: what an erase call answers and leaves. -/
def Obligations.EraseCallEffect : Prop :=
  ∀ (req : EraseReq) (s t : State) (ans drawn : EraseAnswer), s.env.eraseAnswer = some drawn →
    flashErase req s = some (ans, t) →
    (req.hitsProtected s.opt.wrp = true → ans.word ≠ 0xFFFFFFFF) ∧
    (req.hitsProtected s.opt.wrp = false → ans = drawn) ∧
    (ans.word = 0xFFFFFFFF → ∀ a, t.mem.read a = if req.covers a then some 0xFF else s.mem.read a) ∧
    (ans.word ≠ 0xFFFFFFFF → ∀ a,
      (req.covers a = true → protectedByte s.opt.wrp a = false →
        t.mem.read a = s.mem.read a ∨ t.mem.read a = some 0xFF) ∧
      (req.covers a = false ∨ protectedByte s.opt.wrp a = true → t.mem.read a = s.mem.read a)) ∧
    t = { s with
      mem := t.mem, trace := s.trace ++ [.flash (.erase req Config.voltageRange) (.erase ans)], env := s.env.afterErase }

/-! ## Protection controller -/

/-- 41_engines R183, R184: the sentinels, and what a committed RDP byte reads back as. -/
def Obligations.RdpLevelsAndSentinels : Prop :=
  RdpLevel.level0.sentinel = 0xAA ∧ RdpLevel.level1.sentinel = 0x55 ∧ RdpLevel.level2.sentinel = 0xCC ∧
  (∀ b : Byte, (rdpLevel b = .level0 ↔ b = 0xAA) ∧ (rdpLevel b = .level1 ↔ b = 0x55) ∧
    (rdpLevel b = .level2 ↔ b ≠ 0xAA ∧ b ≠ 0x55)) ∧
  ∀ l : RdpLevel, rdpLevel l.sentinel = l

/-- 41_engines R188: what the program step of the option chain leaves in OPT_STAGED, field by field; nothing else but the
trace changes. -/
def Obligations.OptProgramEffect : Prop :=
  ∀ (cfg : OptCfg) (s t : State) (r : PortResult), optProgram cfg s = some (r, t) →
    (∀ x, cfg = .rdp x → t.optStaged.wrp = s.optStaged.wrp ∧
      (r = .ok → t.optStaged.rdp = x) ∧ (r = .fail → t.optStaged.rdp = s.optStaged.rdp ∨ t.optStaged.rdp = x)) ∧
    (∀ enable mask, cfg = .wrp enable mask → t.optStaged.rdp = s.optStaged.rdp ∧
      ∀ k, k < 8 →
        (mask.getLsbD k = false → t.optStaged.wrp.getLsbD k = s.optStaged.wrp.getLsbD k) ∧
        (mask.getLsbD k = true →
          (r = .ok → t.optStaged.wrp.getLsbD k = enable) ∧
          (r = .fail →
            t.optStaged.wrp.getLsbD k = s.optStaged.wrp.getLsbD k ∨ t.optStaged.wrp.getLsbD k = enable))) ∧
    t = { s with
      optStaged := t.optStaged, trace := s.trace ++ [.opt (.program cfg) r], env := s.env.afterOpt }

/-- 41_engines R189: what the commit leaves in OPT, field by field, and in memory: unchanged, but for a flash window that
is drawn when the level went from 1 to 0. -/
def Obligations.OptLaunchEffect : Prop :=
  ∀ (s t : State) (r : PortResult), optLaunch s = some (r, t) →
    (r = .ok → t.opt = s.optStaged) ∧
    (r = .fail →
      (t.opt.rdp = s.opt.rdp ∨ t.opt.rdp = s.optStaged.rdp) ∧
      ∀ k, t.opt.wrp.getLsbD k = s.opt.wrp.getLsbD k ∨ t.opt.wrp.getLsbD k = s.optStaged.wrp.getLsbD k) ∧
    (¬ (s.opt.rdp = 0x55 ∧ t.opt.rdp = 0xAA) → t.mem = s.mem) ∧
    (s.opt.rdp = 0x55 ∧ t.opt.rdp = 0xAA → ∀ a : Nat,
      (0x08000000 ≤ a ∧ a ≤ 0x080FFFFF → t.mem.read a = some (Config.flashDraw s.env.draws a)) ∧
      (¬ (0x08000000 ≤ a ∧ a ≤ 0x080FFFFF) → t.mem.read a = s.mem.read a)) ∧
    t = { s with opt := t.opt, mem := t.mem, trace := s.trace ++ [.opt .launch r], env := s.env.afterOpt }

/-- 41_engines R182, R190: the option chain of a protection command, one port call a step: unlock, program, commit, lock;
any failed step goes to the lock at once; the status byte is 0 only when every step answered Ok. -/
def Obligations.OptionChainSteps : Prop :=
  ∀ (i : Instr) (cfg : OptCfg) (s : State) (r : PortResult), chainCfg i = some cfg → s.env.optAnswer = some r →
    (s.pos.inChain = false → (∀ level, rdpRequest i = some level → gateRefuses s level = false) →
      exec i s = .next { s with
        optCtl := { optlock := if r = .ok then false else s.optCtl.optlock }
        trace := s.trace ++ [.opt .unlock r], env := s.env.afterOpt
        phase := .act i.opcode (if r = .ok then .optProgram else .optLock .failed) }) ∧
    (s.pos = .optProgram → ∃ t, optProgram cfg s = some (r, t) ∧
      exec i s = .next { t with phase := .act i.opcode (if r = .ok then .optLaunch else .optLock .failed) }) ∧
    (s.pos = .optLaunch → ∃ t, optLaunch s = some (r, t) ∧
      exec i s = .next { t with phase := .act i.opcode (.optLock (if r = .ok then .ok else .failed)) }) ∧
    (∀ earlier, s.pos = .optLock earlier →
      exec i s = .next { s with
        optCtl := { optlock := if r = .ok then true else s.optCtl.optlock }
        trace := s.trace ++ [.opt .lock r], env := s.env.afterOpt
        phase := .sendReply [if earlier = .ok ∧ r = .ok then 0x00 else 0x02] })

/-- 41_engines R191: INV-RDP2 holds at reset and every step keeps it (in the form of `State.rdpInv`); with it no step leaves
Level 2, and at Level 2 a request for another level answers `0x02` with no port call. -/
def Obligations.Level2IsIrreversible : Prop :=
  (∀ p, (State.resetWith p).rdpInv) ∧
  (∀ s t : State, s.rdpInv → step s = .next t →
    t.rdpInv ∧ (rdpLevel s.opt.rdp = .level2 → rdpLevel t.opt.rdp = .level2)) ∧
  (∀ (s : State) (i : Instr) (level : RdpLevel), rdpRequest i = some level → level ≠ .level2 →
    rdpLevel s.opt.rdp = .level2 → s.pos.inChain = false → s.env.tx.accepts = true →
    exec i s = .next (s.afterTx 0x02 .done))

/-! ## Information commands -/

/-- 42_info_commands R220: GET_HELP's encoding; its first step sends the first byte of the version record and opcode table, and its
exchange from there to Done is those 19 bytes and nothing else. -/
def Obligations.GetHelpReplies : Prop :=
  (Opcode.getHelp.byte = 0x00 ∧ Opcode.getHelp.format = .f0 ∧ Opcode.getHelp.replyLen = some 19) ∧
  (∀ s : State, s.env.tx.accepts = true →
    exec .getHelp s = .next (s.afterTx 0xC8 (.sendReply
      [0x01, 0x00, 0x00, 0x00, 0x01, 0x02, 0x11, 0x21, 0x31, 0x43, 0x44, 0x50, 0x51, 0x63, 0x73, 0x82, 0x92, 0xA1]))) ∧
  (∀ s : State, s.begins .getHelp → s.env.tx = .always →
    Sys2Proof.core.run 19 s = .next ({ s with
      phase := .done
      trace := s.trace ++ [0xC8, 0x01, 0x00, 0x00, 0x00, 0x01, 0x02, 0x11, 0x21, 0x31, 0x43, 0x44, 0x50, 0x51, 0x63, 0x73,
        0x82, 0x92, 0xA1].map Event.tx } : State))

/-- 42_info_commands R221: GET_VERSION's encoding; it replies the 4-byte version record. -/
def Obligations.GetVersionReplies : Prop :=
  (Opcode.getVersion.byte = 0x01 ∧ Opcode.getVersion.format = .f0 ∧ Opcode.getVersion.replyLen = some 4) ∧
  (∀ s : State, s.env.tx.accepts = true →
    exec .getVersion s = .next (s.afterTx 0xC8 (.sendReply [0x01, 0x00, 0x00]))) ∧
  (∀ s : State, s.begins .getVersion → s.env.tx = .always →
    Sys2Proof.core.run 4 s = .next ({ s with
      phase := .done, trace := s.trace ++ [.tx 0xC8, .tx 0x01, .tx 0x00, .tx 0x00] } : State))

/-- 42_info_commands R222: GET_ID's encoding; it reads the identity word, and replies its low 12 bits in two bytes, least significant byte
first. -/
def Obligations.GetIdReplies : Prop :=
  (Opcode.getId.byte = 0x02 ∧ Opcode.getId.format = .f0 ∧ Opcode.getId.replyLen = some 2) ∧
  ∀ s : State,
    exec .getId s = .next { s with
      phase := .sendReply
        [s.straps.idcode.extractLsb' 0 8, (s.straps.idcode.extractLsb' 8 4).setWidth 8]
      trace := s.trace ++ [.id s.straps.idcode] } ∧
    (s.begins .getId → s.env.tx = .always →
      Sys2Proof.core.run 3 s = .next ({ s with
        phase := .done
        trace := s.trace ++ [.id s.straps.idcode, .tx (s.straps.idcode.extractLsb' 0 8),
          .tx ((s.straps.idcode.extractLsb' 8 4).setWidth 8)] } : State))

/-! ## Memory commands -/

/-- 43_memory_commands R230: GO_TO_ADDRESS answers an invalid address with `0x01`, a valid one with `0x00` and then the
launch of that address. -/
def Obligations.GoToAddressSteps : Prop :=
  ∀ (addr : Word) (s : State),
    (s.pos ≠ .launch → s.env.tx.accepts = true →
      (classify addr = .invalid → exec (.goToAddress addr) s = .next (s.afterTx 0x01 .done)) ∧
      (classify addr = .valid →
        exec (.goToAddress addr) s = .next (s.afterTx 0x00 (.act .goToAddress .launch)))) ∧
    (s.pos = .launch → exec (.goToAddress addr) s = .next (launchAt addr s))

/-- 43_memory_commands R230 over 41_engines R200: GO_TO_ADDRESS of a valid address, from its recipe's beginning, sends `0x00`
and then launches: it enters Launched with the two words of the entry region; it faults where the address is misaligned, or
where one of the 8 bytes has no value. -/
def Obligations.GoToAddressLaunches : Prop :=
  ∀ (addr : Word) (s : State), s.begins (.goToAddress addr) → classify addr = .valid → s.env.tx = .always →
    (addr.toNat % 4 = 0 →
      (∀ b : Nat → Byte, (∀ k : Nat, k < 8 → s.mem.byte (addr + BitVec.ofNat 32 k) = some (b k)) →
        Sys2Proof.core.run 2 s = .next ({ s with
          phase := .launched
          trace := s.trace ++
            [.tx 0x00, .launch (le32 (b 0) (b 1) (b 2) (b 3)) (le32 (b 4) (b 5) (b 6) (b 7))] } : State)) ∧
      (∀ k : Nat, k < 8 → s.mem.byte (addr + BitVec.ofNat 32 k) = none →
        Sys2Proof.core.run 2 s = .next ({ s with
          phase := .faulted (.launchRead addr), fault := some (.launchRead addr), trace := s.trace ++ [.tx 0x00] } : State))) ∧
    (addr.toNat % 4 ≠ 0 →
      Sys2Proof.core.run 2 s = .next ({ s with
        phase := .faulted (.misalignedLaunch addr), fault := some (.misalignedLaunch addr)
        trace := s.trace ++ [.tx 0x00] } : State))

/-- 41_engines R172, R173 and 43_memory_commands R231: each step of WRITE_MEMORY. An invalid start address is answered with
no flash call; otherwise unlock, one program call per data byte in ascending address order up to the first that fails,
and the lock on every path, whose answer does not change the status. -/
def Obligations.WriteMemorySteps : Prop :=
  ∀ (addr : Word) (data : List Byte) (s : State),
    (s.pos.inWrite = false → classify addr = .invalid → s.env.tx.accepts = true →
      exec (.writeMemory addr data) s = .next (s.afterTx 0x01 .done)) ∧
    (∀ r, s.env.flashAnswer = some r →
      (s.pos.inWrite = false → classify addr = .valid →
        exec (.writeMemory addr data) s = .next { s with
          flashCtl := { lock := if r = .ok then false else s.flashCtl.lock }
          trace := s.trace ++ [.flash .unlock (.result r)], env := s.env.afterFlash
          phase := .act .writeMemory (if r = .ok then .program 0 else .writeLock .fail) }) ∧
      (∀ k v, s.pos = .program k → data[k]? = some v →
        ∃ r' t, flashProgramByte (addr + BitVec.ofNat 32 k) v s = some (r', t) ∧
          exec (.writeMemory addr data) s = .next { t with
            phase := .act .writeMemory (if r' = .ok then .program (k + 1) else .writeLock .fail) }) ∧
      (∀ res, s.pos = .writeLock res ∨ (res = .pass ∧ ∃ k, s.pos = .program k ∧ data.length ≤ k) →
        exec (.writeMemory addr data) s = .next { s with
          flashCtl := { lock := if r = .ok then true else s.flashCtl.lock }
          trace := s.trace ++ [.flash .lock (.result r)], env := s.env.afterFlash
          phase := .sendReply [if res = .pass then 0x00 else 0x02] }))

/-- 41_engines R172, R176: WRITE_MEMORY from its recipe's beginning to Done when every flash call answers Ok and no byte is
write-protected: the trace is unlock, the programs in ascending order, lock and the status `0x00`; the controller is locked;
every RAM byte of the range and every erased flash byte of it holds its data byte; every other byte is unchanged. -/
def Obligations.WriteMemoryWritesItsData : Prop :=
  ∀ (addr : Word) (data : List Byte) (s : State) (later : List (Option PortResult)),
    s.begins (.writeMemory addr data) → classify addr = .valid → s.env.tx = .always →
    s.env.flash = List.replicate (data.length + 2) (some .ok) ++ later →
    (∀ k < data.length, protectedByte s.opt.wrp (addr + BitVec.ofNat 32 k).toNat = false) → data.length ≤ 245 →
    ∃ t, Sys2Proof.core.run (data.length + 3) s = .next t ∧
      t = ({ s with
        phase := .done
        flashCtl := { lock := true }
        mem := programmed s.mem addr data
        trace := s.trace ++ [.flash .unlock (.result .ok)] ++ programEvents addr data ++
          [.flash .lock (.result .ok), .tx 0x00]
        env := { s.env with flash := later, draws := s.env.draws + data.length + 2 } } : State) ∧
      (∀ k v, data[k]? = some v →
        (Config.ramA.contains (addr + BitVec.ofNat 32 k).toNat = true ∨
            Config.ramB.contains (addr + BitVec.ofNat 32 k).toNat = true →
          (programmed s.mem addr data).byte (addr + BitVec.ofNat 32 k) = some v) ∧
        (s.mem.byte (addr + BitVec.ofNat 32 k) = some 0xFF →
          (programmed s.mem addr data).byte (addr + BitVec.ofNat 32 k) = some v)) ∧
      (∀ a, (∀ k < data.length, a ≠ (addr + BitVec.ofNat 32 k).toNat) →
        (programmed s.mem addr data).read a = s.mem.read a)

/-- 41_engines R177, R180 and 43_memory_commands R232: each step of ERASE. A rejected request answers `0x02` with no flash
call; otherwise unlock, one erase call whose status word alone decides the result, and the lock on every path. -/
def Obligations.EraseSteps : Prop :=
  ∀ (sector count : Byte) (s : State),
    (eraseRequest sector count = none → s.env.tx.accepts = true →
      exec (.erase sector count) s = .next (s.afterTx 0x02 .done)) ∧
    (∀ req, eraseRequest sector count = some req →
      (∀ r, s.env.flashAnswer = some r →
        (s.pos ≠ .eraseCall → (∀ res, s.pos ≠ .eraseLock res) →
          exec (.erase sector count) s = .next { s with
            flashCtl := { lock := if r = .ok then false else s.flashCtl.lock }
            trace := s.trace ++ [.flash .unlock (.result r)], env := s.env.afterFlash
            phase := .act .erase (if r = .ok then .eraseCall else .eraseLock .fail) }) ∧
        (∀ res, s.pos = .eraseLock res →
          exec (.erase sector count) s = .next { s with
            flashCtl := { lock := if r = .ok then true else s.flashCtl.lock }
            trace := s.trace ++ [.flash .lock (.result r)], env := s.env.afterFlash
            phase := .sendReply [if res = .pass then 0x00 else 0x02] })) ∧
      (∀ drawn, s.env.eraseAnswer = some drawn → s.pos = .eraseCall →
        ∃ ans t, flashErase req s = some (ans, t) ∧
          exec (.erase sector count) s = .next { t with
            phase := .act .erase (.eraseLock (if ans.word = 0xFFFFFFFF then .pass else .fail)) }))

/-- 43_memory_commands R232: ERASE from its recipe's beginning to Done when unlock answers Ok, the status word is
`0xFFFFFFFF` and no covered sector is protected: every covered byte reads `0xFF`, every other byte is unchanged, the status
is `0x00`, whatever the low-level answer and the lock's answer are. -/
def Obligations.EraseErasesItsSectors : Prop :=
  ∀ (sector count : Byte) (req : EraseReq) (s : State) (ll lockAnswer : PortResult)
    (laterFlash : List (Option PortResult)) (laterErase : List (Option EraseAnswer)),
    s.begins (.erase sector count) → eraseRequest sector count = some req → s.env.tx = .always →
    s.env.flash = some .ok :: some lockAnswer :: laterFlash → s.env.erase = some ⟨ll, 0xFFFFFFFF⟩ :: laterErase →
    req.hitsProtected s.opt.wrp = false →
    ∃ m : Memory,
      (∀ a, m.read a = if req.covers a then some 0xFF else s.mem.read a) ∧
      Sys2Proof.core.run 4 s = .next ({ s with
        phase := .done
        flashCtl := { lock := if lockAnswer = .ok then true else false }
        mem := m
        trace := s.trace ++ [.flash .unlock (.result .ok), .flash (.erase req Config.voltageRange) (.erase ⟨ll, 0xFFFFFFFF⟩),
          .flash .lock (.result lockAnswer), .tx 0x00]
        env := { s.env with flash := laterFlash, erase := laterErase, draws := s.env.draws + 3 } } : State)

/-- 70_reset R360: a program of a byte in a sector whose committed WRP bit is 1 fails, and so does an erase that covers such
a sector; the command goes to its lock with the result Fail, and the protected bytes are unchanged. -/
def Obligations.ProtectedSectorsAreNotWritten : Prop :=
  (∀ (addr : Word) (data : List Byte) (s : State) (k : Nat) (v : Byte), s.pos = .program k → data[k]? = some v →
    protectedByte s.opt.wrp (addr + BitVec.ofNat 32 k).toNat = true → s.env.flashAnswer.isSome = true →
    exec (.writeMemory addr data) s = .next { s with
      trace := s.trace ++ [.flash (.program (addr + BitVec.ofNat 32 k) v) (.result .fail)], env := s.env.afterFlash
      phase := .act .writeMemory (.writeLock .fail) }) ∧
  (∀ (sector count : Byte) (req : EraseReq) (s : State), eraseRequest sector count = some req → s.pos = .eraseCall →
    req.hitsProtected s.opt.wrp = true → s.env.eraseAnswer.isSome = true →
    ∃ t, exec (.erase sector count) s = .next t ∧ t.phase = .act .erase (.eraseLock .fail) ∧
      ∀ a, protectedByte s.opt.wrp a = true → t.mem.read a = s.mem.read a)

/-! ## Protection commands -/

/-- 44_protection_commands R250 to R253 over 41_engines R182: a protection command whose four option calls answer Ok runs
from its recipe's beginning to Done in five steps, commits its configuration, locks the option store and answers `0x00`. -/
def Obligations.ProtectionCommandsCommit : Prop :=
  ∀ (i : Instr) (cfg : OptCfg) (s : State) (later : List (Option PortResult)), chainCfg i = some cfg → s.begins i →
    (∀ level, rdpRequest i = some level → gateRefuses s level = false) → s.env.tx = .always →
    s.env.opt = [some .ok, some .ok, some .ok, some .ok] ++ later →
    ∃ m : Memory,
      (¬ (s.opt.rdp = 0x55 ∧ (cfg.apply s.optStaged).rdp = 0xAA) → m = s.mem) ∧
      (∀ a : Nat, ¬ (0x08000000 ≤ a ∧ a ≤ 0x080FFFFF) → m.read a = s.mem.read a) ∧
      Sys2Proof.core.run 5 s = .next ({ s with
        phase := .done
        optCtl := { optlock := true }
        opt := cfg.apply s.optStaged
        optStaged := cfg.apply s.optStaged
        mem := m
        trace := s.trace ++ [.opt .unlock .ok, .opt (.program cfg) .ok, .opt .launch .ok, .opt .lock .ok, .tx 0x00]
        env := { s.env with opt := later, draws := s.env.draws + 4 } } : State)

/-- 44_protection_commands R250, R251 and 41_engines R187, R188: the configuration that WRITE_PROTECT and WRITE_UNPROTECT
program sets or clears the WRP bits named by the sector code; a sector count above 8 answers `0x02` with no port call. -/
def Obligations.WriteProtectionConfigures : Prop :=
  ∀ (sectorCount sectorCode : Byte) (s : State),
    (8 < sectorCount.toNat → s.env.tx.accepts = true →
      exec (.writeProtect sectorCount sectorCode) s = .next (s.afterTx 0x02 .done) ∧
      exec (.writeUnprotect sectorCount sectorCode) s = .next (s.afterTx 0x02 .done)) ∧
    (sectorCount.toNat ≤ 8 →
      chainCfg (.writeProtect sectorCount sectorCode) = some (.wrp true sectorCode) ∧
      chainCfg (.writeUnprotect sectorCount sectorCode) = some (.wrp false sectorCode)) ∧
    (∀ k < 8, (OptCfg.apply (.wrp true sectorCode) s.optStaged).wrp.getLsbD k =
        (s.optStaged.wrp.getLsbD k || sectorCode.getLsbD k) ∧
      (OptCfg.apply (.wrp false sectorCode) s.optStaged).wrp.getLsbD k =
        (s.optStaged.wrp.getLsbD k && !sectorCode.getLsbD k))

/-- 44_protection_commands R252, R253 and 41_engines R186: READOUT_PROTECT asks for Level 1 and READOUT_UNPROTECT for the
level its byte names; a level above 2 answers `0x02` with no port call; the gate turns away at Level 2 every request for
another level and no other request. -/
def Obligations.ReadProtectionConfigures : Prop :=
  ∀ (level : Byte) (s : State),
    chainCfg .readoutProtect = some (.rdp 0x55) ∧
    (level = 0 → chainCfg (.readoutUnprotect level) = some (.rdp 0xAA)) ∧
    (level = 1 → chainCfg (.readoutUnprotect level) = some (.rdp 0x55)) ∧
    (level = 2 → chainCfg (.readoutUnprotect level) = some (.rdp 0xCC)) ∧
    (2 < level.toNat → s.env.tx.accepts = true →
      exec (.readoutUnprotect level) s = .next (s.afterTx 0x02 .done)) ∧
    (∀ l, gateRefuses s l = true ↔ (s.opt.rdp ≠ 0xAA ∧ s.opt.rdp ≠ 0x55) ∧ l ≠ .level2)

/-- 44_protection_commands R254: at Level 2 a READOUT_PROTECT frame, or a READOUT_UNPROTECT frame for level 0 or 1, that
passes the CRC check transmits `79 01 02` and changes nothing else. -/
def Obligations.Level2RequestsReportFailure : Prop :=
  ∀ (s : State) (i : Instr), s.frameReceived → s.fetch = .ok i →
    (i = .readoutProtect ∨ i = .readoutUnprotect 0 ∨ i = .readoutUnprotect 1) →
    crc (s.frameBytes.take (s.len.toNat - 3)) = wordAt s.frameBytes (s.len.toNat - 3) →
    rdpLevel s.opt.rdp = .level2 → s.env.tx = .always →
    Sys2Proof.core.run 3 s =
      .next ({ s with phase := .done, trace := s.trace ++ [.tx 0x79, .tx 0x01, .tx 0x02] } : State)

/-! ## Unimplemented commands -/

/-- 45_unimplemented_commands R270: each of the five ends its exchange at once, with no port call and whatever its trailer;
with a length byte below 5 its frame is NACKed as malformed. -/
def Obligations.UnimplementedCommandsAreSilent : Prop :=
  ∀ (op : Opcode) (i : Instr) (s : State),
    op = .readMemory ∨ op = .extendedErase ∨ op = .special ∨ op = .extendedSpecial ∨ op = .checksum →
    (i.opcode = op → exec i s = .next { s with phase := .done }) ∧
    (s.frameReceived → Opcode.ofByte (byteAt s.frameBytes 1) = some op →
      (5 ≤ s.len.toNat →
        step s = .next { s with phase := .done } ∧ exchangeOutcome s { s with phase := .done } = some .silent) ∧
      (s.len.toNat < 5 → s.env.tx.accepts = true → step s = .next (s.afterTx 0x1F .done)))

/-! ## Rejections -/

/-- 60_exceptions R302, R308: a command turned away for an invalid address, a parameter or the Level-2 gate transmits its
one status byte and makes no other port call. -/
def Obligations.RejectedCommandsOnlyReportStatus : Prop :=
  ∀ (i : Instr) (s : State) (c : ErrorCause), commandCause i s = some c → s.pos = .start → s.env.tx.accepts = true →
    (c = .addressInvalid ∨ c = .policyRefused ∨ c = .parameterRejected) ∧
    (c = .addressInvalid → exec i s = .next (s.afterTx 0x01 .done)) ∧
    (c ≠ .addressInvalid → exec i s = .next (s.afterTx 0x02 .done))

/-- 60_exceptions R301, R305, R307, R314: a complete frame with a cause is answered by NACK alone; an unknown opcode by its
diagnostic event and then NACK. -/
def Obligations.RejectedFramesGetNack : Prop :=
  ∀ (s : State) (c : ErrorCause), s.frameReceived → frameCause s = some c → s.env.tx = .always →
    c.response s.straps.nackOnRxFail = [0x1F] ∧
    (c ≠ .unknownCommand →
      step s = .next ({ s with phase := .done, trace := s.trace ++ [.tx 0x1F] } : State)) ∧
    (c = .unknownCommand →
      Sys2Proof.core.run 2 s = .next ({ s with
        phase := .done
        trace := s.trace ++ [.diag (.unknownCommand (byteAt s.frameBytes 1)), .tx 0x1F] } : State))

/-! ## Frames of the commands -/

/-- 40_dispatcher R135, 10_state R38: no command writes the frame registers, CRC.ACC or a platform input; and the
information commands, the unimplemented ones and GO_TO_ADDRESS write no control register, no option field and no memory. -/
def Obligations.CommandsLeaveTheFrameAlone : Prop :=
  ∀ (i : Instr) (s t : State), exec i s = .next t →
    (t.buf = s.buf ∧ t.len = s.len ∧ t.rxcnt = s.rxcnt ∧ t.crcAcc = s.crcAcc ∧ t.straps = s.straps) ∧
    (i.opcode.implemented = false ∨ i = .getHelp ∨ i = .getVersion ∨ i = .getId ∨ (∃ addr, i = .goToAddress addr) →
      t.flashCtl = s.flashCtl ∧ t.optCtl = s.optCtl ∧ t.opt = s.opt ∧ t.optStaged = s.optStaged ∧ t.mem = s.mem) ∧
    ((∀ addr, i ≠ .goToAddress addr) → t.fault = s.fault)

/-- WRITE_MEMORY and ERASE write no option register; a step of WRITE_MEMORY changes no byte but the one its program call
names, and a step of ERASE none outside the request of its erase call (41_engines R172, R176, R179). -/
def Obligations.MemoryCommandsFrame : Prop :=
  (∀ (addr : Word) (data : List Byte) (s t : State), exec (.writeMemory addr data) s = .next t →
    t.optCtl = s.optCtl ∧ t.opt = s.opt ∧ t.optStaged = s.optStaged ∧
    (∀ a, (∀ k, s.pos = .program k → k < data.length → a ≠ (addr + BitVec.ofNat 32 k).toNat) →
      t.mem.read a = s.mem.read a)) ∧
  (∀ (sector count : Byte) (s t : State), exec (.erase sector count) s = .next t →
    t.optCtl = s.optCtl ∧ t.opt = s.opt ∧ t.optStaged = s.optStaged ∧
    (∀ a, (∀ req, eraseRequest sector count = some req → s.pos = .eraseCall → req.covers a = false) →
      t.mem.read a = s.mem.read a))

/-- The four protection commands write no flash control register; each register they write is written by one step of the
chain only, and memory only by a commit that lowers RDP from Level 1 to Level 0, in the flash window (41_engines R182,
R188 to R190). -/
def Obligations.ProtectionCommandsFrame : Prop :=
  ∀ (i : Instr) (s t : State),
    i.opcode = .writeProtect ∨ i.opcode = .writeUnprotect ∨ i.opcode = .readoutProtect ∨ i.opcode = .readoutUnprotect →
    exec i s = .next t →
    t.flashCtl = s.flashCtl ∧
    (s.pos ≠ .optProgram → t.optStaged = s.optStaged) ∧
    (s.pos ≠ .optLaunch → t.opt = s.opt) ∧
    (s.pos = .optProgram ∨ s.pos = .optLaunch → t.optCtl = s.optCtl) ∧
    (¬ (s.pos = .optLaunch ∧ rdpLevel s.opt.rdp = .level1 ∧ rdpLevel t.opt.rdp = .level0) → t.mem = s.mem) ∧
    (∀ a : Nat, ¬ (0x08000000 ≤ a ∧ a ≤ 0x080FFFFF) → t.mem.read a = s.mem.read a)

/-! ## Reset -/

/-- 70_reset R341: the reset value of every state element, for any value of the parameters. Where the first step is a launch
the phase before it is the model's own (log 8), so nothing is said of it here. -/
def Obligations.ResetValues : Prop :=
  ∀ p : ResetParams,
    let s := State.resetWith p
    (p.bootLaunch = false → s.phase = .awaitLength) ∧
    (∀ i, byteAt s.buf.toList i = 0x00) ∧ s.len = 0 ∧ s.rxcnt = 0 ∧ s.crcAcc = 0xFFFFFFFF ∧ s.trace = [] ∧
    s.fault = none ∧ s.flashCtl.lock = true ∧ s.optCtl.optlock = true ∧
    s.opt = { rdp := p.optRdp0, wrp := p.optWrp0 } ∧ s.optStaged = s.opt ∧
    (∀ a, s.mem.read a = p.flashImage.read a) ∧
    ((∀ c ∈ p.flashImage, Config.flash.contains c.1 = true) → ∀ a, Config.flash.contains a = false → s.mem.read a = none)

/-- 70_reset R342: the first step after reset is the receive call, or the launch of P_APP_BASE, after which no frame is
received. -/
def Obligations.FirstStepAfterReset : Prop :=
  ∀ p : ResetParams,
    let s := State.resetWith p
    (p.bootLaunch = false → s.phase = .awaitLength ∧
      (∀ b rest, p.env.rx = .byte b :: rest →
        ∃ t, step s = .next t ∧ t.trace = [.rx b] ∧ t.phase = .awaitPayload ∧ t.len = b)) ∧
    (p.bootLaunch = true → ∃ t, step s = .next t ∧ t = launchAt p.straps.appBase s ∧
      ∀ u, step t ≠ .next u)

/-- 70_reset R345: the next run starts with the option values and the flash window the last one ended with; OPT_STAGED
restarts equal to OPT, and RAM holds no value. -/
def Obligations.RunsPassOnOptionsAndFlash : Prop :=
  ∀ (s : State) (boot : Bool) (env : Env),
    let t := s.powerCycle boot env
    t.opt = s.opt ∧ t.optStaged = s.opt ∧
    (∀ a, Config.flash.contains a = true → t.mem.read a = s.mem.read a) ∧
    (∀ a, Config.flash.contains a = false → t.mem.read a = none) ∧
    (s.mem.wf = true → t.mem.wf = true)

/-! ## The whole machine -/

/-- A step that acts on a decoded command is that command's meaning: in Act, and in Dispatch (or on the completion of the
frame) for an unimplemented command. -/
def Obligations.StepRunsTheDecodedCommand : Prop :=
  ∀ (s : State) (i : Instr) (rest : List Byte), decode s.frameBytes = .ok (i, rest) →
    (∀ pos, s.phase = .act i.opcode pos → step s = exec i s) ∧
    (i.opcode.implemented = false →
      s.phase = .dispatch ∨ (s.phase = .awaitPayload ∧ frameComplete s = true) →
      step s = exec i { s with phase := .dispatch })

/-- 10_state R23, R29 to R32, R37, R39: a step makes no port call and then writes no control register, option field or
memory; or it makes one, which appends exactly its event and has exactly that event's effect. No step writes a platform
input. -/
def Obligations.EveryStepIsAtMostOnePortCall : Prop :=
  ∀ s t : State, step s = .next t →
    t.straps = s.straps ∧
    ((t.trace = s.trace ∧ t.flashCtl = s.flashCtl ∧ t.optCtl = s.optCtl ∧ t.opt = s.opt ∧ t.optStaged = s.optStaged ∧
        t.mem = s.mem) ∨
      ∃ e, t.trace = s.trace ++ [e] ∧ eventEffect s e t)

/-- 10_state R29, R30: in a state of the invariant, a program or erase call is made only while FLASH_CTL.LOCK is 0, and an
option program or commit only while OPT_CTL.OPTLOCK is 0. -/
def Obligations.OperationsAreMadeUnlocked : Prop :=
  ∀ s t : State, s.Inv → step s = .next t →
    (∀ a v ans, t.trace = s.trace ++ [.flash (.program a v) ans] → s.flashCtl.lock = false) ∧
    (∀ req vr ans, t.trace = s.trace ++ [.flash (.erase req vr) ans] → s.flashCtl.lock = false) ∧
    (∀ cfg ans, t.trace = s.trace ++ [.opt (.program cfg) ans] → s.optCtl.optlock = false) ∧
    (∀ ans, t.trace = s.trace ++ [.opt .launch ans] → s.optCtl.optlock = false)

/-- Every step keeps the invariant: the memory's canonical form, CRC.ACC, the frame registers, the coherence of phase and
frame, the locks, INV-RDP2 and the fault mark (10_state R25 to R32, R37, R41; 40_dispatcher R133; 41_engines R191). -/
def Obligations.StepKeepsTheInvariant : Prop := ∀ s t : State, s.Inv → step s = .next t → t.Inv

/-- The reset state of any run whose flash image is in canonical form meets the invariant. -/
def Obligations.ResetMeetsTheInvariant : Prop :=
  (∀ p : ResetParams, p.flashImage.wf = true → (State.resetWith p).Inv) ∧ State.reset.Inv

/-- In a state of the invariant the only steps that are not a next state are those of the final states: the block never
comes to act on a buffer without its command, and faults only where it has faulted. -/
def Obligations.OnlyFinalStatesStop : Prop :=
  ∀ s : State, s.Inv →
    (∀ r, step s = .refused r → s.phase = .launched ∧ r = .launched) ∧
    (∀ r, step s = .fault r → s.phase = .faulted r ∧ s.fault = some r)

end
end

