-- ==== Sys2Proof/Laws/Codec.lean ====
section
/-! SUPPORT. The encoder's frames: their bytes, and what the decoder's parts read from them. -/

namespace Sys2Proof

/-- `le32` of the bytes of a word is the word (00_scope R11). -/
theorem le32_bytesLe32 (v : Word) :
    le32 (v.extractLsb' 0 8) (v.extractLsb' 8 8) (v.extractLsb' 16 8) (v.extractLsb' 24 8) = v := by
  apply BitVec.eq_of_getLsbD_eq
  intro i hi
  simp only [le32, BitVec.getLsbD_or, BitVec.getLsbD_shiftLeft, BitVec.getLsbD_setWidth, BitVec.getLsbD_extractLsb']
  by_cases h1 : i < 8
  · simp [hi, h1, show i < 16 by omega, show i < 24 by omega]
  · by_cases h2 : i < 16
    · simp [hi, h1, h2, show i < 24 by omega, show i - 8 < 8 by omega, show 8 + (i - 8) = i by omega,
        show i - 8 < 32 by omega]
    · by_cases h3 : i < 24
      · simp [hi, h1, h2, h3, show ¬ i - 8 < 8 by omega, show i - 16 < 8 by omega, show 16 + (i - 16) = i by omega,
          show i - 16 < 32 by omega]
      · simp [hi, h1, h2, h3, show ¬ i - 8 < 8 by omega, show ¬ i - 16 < 8 by omega, show i - 24 < 8 by omega,
          show 24 + (i - 24) = i by omega, show i - 24 < 32 by omega]

@[simp] theorem bytesLe32_length (v : Word) : (bytesLe32 v).length = 4 := rfl

@[simp] theorem Opcode.ofByte_byte (op : Opcode) : Opcode.ofByte op.byte = some op := by cases op <;> decide

theorem Opcode.byte_of_ofByte {b : Byte} {op : Opcode} (h : Opcode.ofByte b = some op) : op.byte = b := by
  have h := List.find?_some h
  simpa using h

/-- A frame in full: its length byte, its opcode, its payload and its trailer (30_encoding R90). -/
theorem frame_eq (op : Byte) (payload : List Byte) :
    frame op payload =
      BitVec.ofNat 8 (5 + payload.length) :: op :: (payload ++ bytesLe32 (crc (frameBody op payload))) := by
  simp [frame, frameBody, show 1 + payload.length + 4 = 5 + payload.length by omega]

theorem frame_length (op : Byte) (payload : List Byte) : (frame op payload).length = 6 + payload.length := by
  simp [frame_eq]
  omega

/-- The operands are read back from a frame that begins with the payload. -/
theorem operands_frame (i : Instr) (hw : i.wellFormed = true) (l : Byte) (tail : List Byte) :
    operands i.opcode (l :: i.opcode.byte :: (i.payload ++ tail)) = i := by
  cases i with
  | writeMemory addr data =>
    have hd : data.length ≤ 245 := of_decide_eq_true hw
    simp only [operands, Instr.opcode, Instr.payload, bytesLe32, wordAt, byteAt]
    simp [le32_bytesLe32, Nat.mod_eq_of_lt (show data.length < 256 by omega)]
  | _ => simp [operands, Instr.opcode, Instr.payload, bytesLe32, wordAt, byteAt, le32_bytesLe32]

/-- A frame at least as long as its payload asks for passes the minimum-length check. -/
theorem minLenOk_frame (i : Instr) (hw : i.wellFormed = true) (l : Byte) (tail : List Byte) {n : Nat}
    (h : i.payload.length + 5 ≤ n) : minLenOk i.opcode.format n (l :: i.opcode.byte :: (i.payload ++ tail)) = true := by
  cases i with
  | writeMemory addr data =>
    have hd : data.length ≤ 245 := of_decide_eq_true hw
    simp only [Instr.payload, List.length_append, List.length_cons, bytesLe32_length] at h
    simp only [minLenOk, Instr.opcode, Opcode.format, Instr.payload, bytesLe32, byteAt]
    simp [Nat.mod_eq_of_lt (show data.length < 256 by omega)]
    omega
  | _ =>
    simp only [Instr.payload, List.length_cons, List.length_nil, bytesLe32_length] at h
    simp [minLenOk, Instr.opcode, Opcode.format]
    try omega

end Sys2Proof
end

