-- ==== Sys2Proof/Laws/Memory.lean ====
section
/-! SUPPORT. Memory: read after write, what each operation leaves alone, and that each keeps the canonical form. -/

namespace Sys2Proof.Machine.Memory

/-! ## Looking up a cell -/

theorem lookup_insert (m : Memory) (a : Nat) (v : Byte) (b : Nat) :
    lookup (insert m a v) b = if b = a then some v else lookup m b := by
  induction m with
  | nil => simp [insert, lookup, eq_comm]
  | cons c m ih =>
    simp only [insert]
    split
    · simp [lookup, eq_comm]
    · split
      · next h =>
        by_cases hb : b = a
        · simp [lookup, hb]
        · have hc : ¬ c.1 = b := fun e => hb (by omega)
          simp [lookup, hb, hc, Ne.symm hb]
      · next hc =>
        by_cases hb : c.1 = b
        · have : ¬ b = a := by omega
          simp [lookup, hb, this]
        · simp [lookup, hb, ih]

theorem lookup_filter (m : Memory) (p : Nat → Bool) (a : Nat) :
    lookup (m.filter (fun c => p c.1)) a = if p a then lookup m a else none := by
  induction m with
  | nil => simp [lookup]
  | cons c m ih =>
    by_cases hp : p c.1 <;> by_cases hc : c.1 = a <;> simp_all [lookup]

theorem lookup_append (m n : Memory) (a : Nat) :
    lookup (m ++ n) a = (lookup m a).or (lookup n a) := by
  induction m with
  | nil => simp [lookup]
  | cons c m ih => by_cases hc : c.1 = a <;> simp [lookup, hc, ih]

/-! ## The windows and the sectors -/

theorem flash_contains_iff (a : Nat) : Config.flash.contains a = true ↔ 0x08000000 ≤ a ∧ a ≤ 0x080FFFFF := by
  simp only [Window.contains, Bool.and_eq_true, decide_eq_true_eq]
  exact Iff.rfl

theorem ramA_contains_iff (a : Nat) : Config.ramA.contains a = true ↔ 0x20010000 ≤ a ∧ a ≤ 0x2004BFFF := by
  simp only [Window.contains, Bool.and_eq_true, decide_eq_true_eq]
  exact Iff.rfl

theorem ramB_contains_iff (a : Nat) : Config.ramB.contains a = true ↔ 0x2004C000 ≤ a ∧ a ≤ 0x2004FFFF := by
  simp only [Window.contains, Bool.and_eq_true, decide_eq_true_eq]
  exact Iff.rfl

/-- A sector of the table lies in the flash window. -/
theorem flash_of_inSector {i a : Nat} (h : inSector i a = true) : Config.flash.contains a = true := by
  rw [flash_contains_iff]
  have hi : i < 8 := by
    by_contra hi
    rw [inSector, List.getElem?_eq_none (by simp [Config.sectors]; omega)] at h
    exact Bool.noConfusion h
  interval_cases i <;> simp [inSector, Config.sectors, Sector.contains] at h <;> omega

/-- An erase request covers flash addresses only. -/
theorem flash_of_covers {req : EraseReq} {a : Nat} (h : req.covers a = true) : Config.flash.contains a = true := by
  simp only [EraseReq.covers, List.any_eq_true, Bool.and_eq_true] at h
  obtain ⟨i, -, -, h⟩ := h
  exact flash_of_inSector h

/-! ## Reading a byte -/

theorem read_unmapped {m : Memory} {a : Nat} (h : mapped a = false) : read m a = none := by simp [read, h]

theorem mapped_of_flash {a : Nat} (h : Config.flash.contains a = true) : mapped a = true := by simp [mapped, h]

/-- A write of a mapped address is read back; every other address reads as before. -/
theorem read_write (m : Memory) (a : Nat) (v : Byte) (b : Nat) :
    read (write m a v) b = if b = a ∧ mapped a = true then some v else read m b := by
  by_cases ha : mapped a = true
  · by_cases hb : b = a
    · subst hb
      by_cases hu : unlisted b = some v
      · simp [write, read, ha, hu, remove, lookup_filter m (fun k => k != b)]
      · simp [write, read, ha, hu, lookup_insert]
    · by_cases hu : unlisted a = some v
      · simp [write, read, ha, hb, hu, remove, lookup_filter m (fun k => k != a)]
      · simp [write, read, ha, hb, hu, lookup_insert]
  · simp [write, ha]

theorem read_write_self (m : Memory) {a : Nat} (v : Byte) (h : mapped a = true) : read (write m a v) a = some v := by
  simp [read_write, h]

theorem read_write_ne (m : Memory) {a b : Nat} (v : Byte) (h : b ≠ a) : read (write m a v) b = read m b := by
  simp [read_write, h]

/-- An erase leaves `P_ERASED` where it applies in the flash window, and every other address alone. -/
theorem read_eraseWhere (m : Memory) (p : Nat → Bool) (a : Nat) :
    read (eraseWhere m p) a = if Config.flash.contains a && p a then some Config.erased else read m a := by
  have h := lookup_filter m (fun k => !(Config.flash.contains k && p k)) a
  rw [read, eraseWhere, h]
  by_cases hf : Config.flash.contains a = true
  · by_cases hp : p a = true
    · simp [hf, hp, mapped_of_flash hf, unlisted]
    · simp [read, hf, hp]
  · simp [read, hf]

theorem lookup_drawn (f : Nat → Byte) (base size a : Nat) :
    lookup ((List.range' base size).filterMap (fun k => if f k = Config.erased then none else some (k, f k))) a =
      if base ≤ a ∧ a < base + size ∧ f a ≠ Config.erased then some (f a) else none := by
  induction size generalizing base with
  | zero => simp [lookup]; omega
  | succ n ih =>
    rw [List.range'_succ, List.filterMap_cons]
    by_cases hb : base = a
    · subst hb
      by_cases he : f base = Config.erased
      · simp [he, ih]
      · simp [he, lookup]
    · have hiff : (base + 1 ≤ a ∧ a < base + 1 + n ∧ f a ≠ Config.erased) ↔
          (base ≤ a ∧ a < base + (n + 1) ∧ f a ≠ Config.erased) := by
        rw [← and_assoc, ← and_assoc]
        exact and_congr_left' (by omega)
      by_cases he : f base = Config.erased
      · simp only [he, if_true, ih, hiff]
      · simp only [he, if_false, lookup, hb, ih, hiff]

/-- After a redraw every flash byte is the drawn one; every other address reads as before. -/
theorem read_redrawFlash (m : Memory) (f : Nat → Byte) (a : Nat) :
    read (redrawFlash m f) a = if Config.flash.contains a then some (f a) else read m a := by
  have hlo := lookup_filter m (fun k => decide (k < Config.flash.base)) a
  have hhi := lookup_filter m (fun k => decide (Config.flash.last < k)) a
  have hmid := lookup_drawn f Config.flash.base Config.flash.size a
  have hsize : Config.flash.base + Config.flash.size = Config.flash.last + 1 := by decide
  by_cases hf : Config.flash.contains a = true
  · have hb : Config.flash.base ≤ a ∧ a ≤ Config.flash.last := by simpa [Window.contains] using hf
    have h1 : ¬ a < Config.flash.base := by omega
    have h2 : ¬ Config.flash.last < a := by omega
    have h3 : a < Config.flash.base + Config.flash.size := by omega
    by_cases he : f a = Config.erased
    · simp [read, redrawFlash, lookup_append, hlo, hhi, hmid, h1, h2, he, hf, mapped_of_flash hf, unlisted]
    · simp [read, redrawFlash, lookup_append, hlo, hhi, hmid, h1, h2, h3, hb.1, he, hf, mapped_of_flash hf]
  · have hb : a < Config.flash.base ∨ Config.flash.last < a := by
      by_contra hn
      exact hf (by simp [Window.contains]; omega)
    rcases hb with hb | hb
    · have h1 : ¬ Config.flash.base ≤ a := by omega
      have h2 : ¬ Config.flash.last < a := by omega
      simp [read, redrawFlash, lookup_append, hlo, hhi, hmid, hb, h1, h2, hf]
    · have h1 : ¬ a < Config.flash.base := by omega
      have h2 : ¬ a < Config.flash.base + Config.flash.size := by omega
      simp [read, redrawFlash, lookup_append, hlo, hhi, hmid, hb, h1, h2, hf]

/-! ## The canonical form -/

/-- The form of one listed cell. -/
def CellOk (c : Host.Cell) : Prop := mapped c.1 = true ∧ unlisted c.1 ≠ some c.2

theorem wf_iff (m : Memory) : m.wf = true ↔ m.Pairwise (fun c d => c.1 < d.1) ∧ ∀ c ∈ m, CellOk c := by
  simp [wf, CellOk]

theorem wf_nil : wf [] = true := by decide

theorem wf_filter {m : Memory} (p : Host.Cell → Bool) (h : m.wf = true) : wf (m.filter p) = true := by
  rw [wf_iff] at h ⊢
  exact ⟨h.1.filter _, fun c hc => h.2 c (List.mem_filter.mp hc).1⟩

theorem mem_insert {m : Memory} {a : Nat} {v : Byte} {c : Host.Cell} (h : c ∈ insert m a v) : c = (a, v) ∨ c ∈ m := by
  induction m with
  | nil => simpa [insert] using h
  | cons d m ih =>
    simp only [insert] at h
    split at h
    · simpa using h
    · split at h
      · rcases List.mem_cons.mp h with h | h
        · exact .inl h
        · exact .inr (List.mem_cons_of_mem _ h)
      · rcases List.mem_cons.mp h with h | h
        · exact .inr (h ▸ List.mem_cons_self)
        · rcases ih h with h | h
          · exact .inl h
          · exact .inr (List.mem_cons_of_mem _ h)

theorem sorted_insert {m : Memory} (a : Nat) (v : Byte) (h : m.Pairwise (fun c d => c.1 < d.1)) :
    (insert m a v).Pairwise (fun c d => c.1 < d.1) := by
  induction m with
  | nil => simp [insert]
  | cons c m ih =>
    have hc := List.pairwise_cons.mp h
    simp only [insert]
    split
    · next hlt =>
      refine List.pairwise_cons.mpr ⟨fun d hd => ?_, h⟩
      rcases List.mem_cons.mp hd with hd | hd
      · subst hd; exact hlt
      · exact Nat.lt_trans hlt (hc.1 d hd)
    · split
      · next heq => exact List.pairwise_cons.mpr ⟨fun d hd => by simpa [heq] using hc.1 d hd, hc.2⟩
      · next hlt hne =>
        refine List.pairwise_cons.mpr ⟨fun d hd => ?_, ih hc.2⟩
        rcases mem_insert hd with hd | hd
        · subst hd; simp only; omega
        · exact hc.1 d hd

theorem wf_write {m : Memory} (a : Nat) (v : Byte) (h : m.wf = true) : (write m a v).wf = true := by
  unfold write
  split
  · next ha =>
    split
    · exact wf_filter _ h
    · next hu =>
      rw [wf_iff] at h ⊢
      refine ⟨sorted_insert a v h.1, fun c hc => ?_⟩
      rcases mem_insert hc with hc | hc
      · subst hc; exact ⟨ha, hu⟩
      · exact h.2 c hc
  · exact h

theorem wf_eraseWhere {m : Memory} (p : Nat → Bool) (h : m.wf = true) : (eraseWhere m p).wf = true := wf_filter _ h

theorem wf_flashPart {m : Memory} (h : m.wf = true) : m.flashPart.wf = true := wf_filter _ h

theorem wf_append {m n : Memory} (hm : m.wf = true) (hn : n.wf = true) (h : ∀ c ∈ m, ∀ d ∈ n, c.1 < d.1) :
    wf (m ++ n) = true := by
  rw [wf_iff] at hm hn ⊢
  refine ⟨List.pairwise_append.mpr ⟨hm.1, hn.1, h⟩, fun c hc => ?_⟩
  rcases List.mem_append.mp hc with hc | hc
  · exact hm.2 c hc
  · exact hn.2 c hc

theorem mem_drawn {f : Nat → Byte} {base size : Nat} {c : Host.Cell}
    (h : c ∈ (List.range' base size).filterMap (fun k => if f k = Config.erased then none else some (k, f k))) :
    base ≤ c.1 ∧ c.1 < base + size ∧ c.2 = f c.1 ∧ f c.1 ≠ Config.erased := by
  obtain ⟨k, hk, hc⟩ := List.mem_filterMap.mp h
  have hk := List.mem_range'_1.mp hk
  by_cases he : f k = Config.erased
  · simp [he] at hc
  · simp only [he, if_false, Option.some.injEq] at hc
    subst hc
    exact ⟨hk.1, hk.2, rfl, he⟩

theorem sorted_drawn (f : Nat → Byte) (base size : Nat) :
    ((List.range' base size).filterMap (fun k => if f k = Config.erased then none else some (k, f k))).Pairwise
      (fun c d => c.1 < d.1) := by
  induction size generalizing base with
  | zero => simp
  | succ n ih =>
    rw [List.range'_succ, List.filterMap_cons]
    split
    · exact ih _
    · next c hc =>
      refine List.pairwise_cons.mpr ⟨fun d hd => ?_, ih _⟩
      have := (mem_drawn hd).1
      by_cases he : f base = Config.erased
      · simp [he] at hc
      · simp only [he, if_false, Option.some.injEq] at hc
        subst hc
        simp only
        omega

theorem wf_drawn (f : Nat → Byte) :
    wf ((List.range' Config.flash.base Config.flash.size).filterMap
      (fun k => if f k = Config.erased then none else some (k, f k))) = true := by
  have hsize : Config.flash.base + Config.flash.size = Config.flash.last + 1 := by decide
  rw [wf_iff]
  refine ⟨sorted_drawn _ _ _, fun c hc => ?_⟩
  obtain ⟨h1, h2, h3, h4⟩ := mem_drawn hc
  have hf : Config.flash.contains c.1 = true := by simp [Window.contains]; omega
  refine ⟨mapped_of_flash hf, ?_⟩
  simp only [unlisted, hf, if_true, h3, ne_eq, Option.some.injEq]
  exact fun h => h4 h.symm

theorem wf_redrawFlash {m : Memory} (f : Nat → Byte) (h : m.wf = true) : (redrawFlash m f).wf = true := by
  have hsize : Config.flash.base + Config.flash.size = Config.flash.last + 1 := by decide
  have hlo : ∀ c ∈ m.filter (fun c => decide (c.1 < Config.flash.base)), c.1 < Config.flash.base :=
    fun c hc => by simpa using (List.mem_filter.mp hc).2
  have hhi : ∀ c ∈ m.filter (fun c => decide (Config.flash.last < c.1)), Config.flash.last < c.1 :=
    fun c hc => by simpa using (List.mem_filter.mp hc).2
  have hbl : Config.flash.base ≤ Config.flash.last := by decide
  refine wf_append (wf_append (wf_filter _ h) (wf_drawn f) ?_) (wf_filter _ h) ?_
  · intro c hc d hd
    have h1 := hlo c hc
    have h2 := (mem_drawn hd).1
    omega
  · intro c hc d hd
    have h2 := hhi d hd
    rcases List.mem_append.mp hc with hc | hc
    · have h1 := hlo c hc
      omega
    · have h1 := (mem_drawn hc).2.1
      omega

/-! ## Programming and erasing -/

theorem read_program_ne (m : Memory) (a : Word) (v : Byte) {b : Nat} (h : b ≠ a.toNat) :
    read (m.program a v) b = read m b := by
  unfold program
  split
  · split
    · exact read_write_ne _ _ h
    · rfl
  · exact read_write_ne _ _ h

/-- A program in the flash window leaves the program result of the byte that was there. -/
theorem read_program_flash (m : Memory) {a : Word} (v old : Byte) (hf : Config.flash.contains a.toNat = true)
    (h : m.byte a = some old) : read (m.program a v) a.toNat = some (programResult old v) := by
  simp [program, hf, h, read_write_self _ _ (mapped_of_flash hf)]

/-- A program in a RAM window leaves its byte. -/
theorem read_program_ram (m : Memory) {a : Word} (v : Byte) (hm : mapped a.toNat = true)
    (hf : Config.flash.contains a.toNat = false) : read (m.program a v) a.toNat = some v := by
  simp [program, hf, read_write_self _ _ hm]

/-- A flash byte always has a value. -/
theorem byte_flash (m : Memory) {a : Word} (hf : Config.flash.contains a.toNat = true) : ∃ v, m.byte a = some v := by
  unfold byte read
  simp only [mapped_of_flash hf, if_true, unlisted, hf]
  cases lookup m a.toNat with
  | some v => exact ⟨v, rfl⟩
  | none => exact ⟨_, rfl⟩

theorem wf_program {m : Memory} (a : Word) (v : Byte) (h : m.wf = true) : (m.program a v).wf = true := by
  unfold program
  split
  · split
    · exact wf_write _ _ h
    · exact h
  · exact wf_write _ _ h

end Sys2Proof.Machine.Memory

namespace Sys2Proof.Machine

theorem wf_programEffect {m : Memory} (wrp : Byte) (a : Word) (v : Byte) (r : PortResult) (took : Bool)
    (h : m.wf = true) : (programEffect m wrp a v r took).wf = true := by
  unfold programEffect
  split
  · exact h
  · cases r with
    | ok => exact Memory.wf_program a v h
    | fail =>
      cases took with
      | true => exact Memory.wf_program a v h
      | false => exact h

/-- A program call leaves every byte but its own alone. -/
theorem read_programEffect_ne (m : Memory) (wrp : Byte) (a : Word) (v : Byte) (r : PortResult) (took : Bool) {b : Nat}
    (h : b ≠ a.toNat) : (programEffect m wrp a v r took).read b = m.read b := by
  unfold programEffect
  split
  · rfl
  · cases r with
    | ok => exact Memory.read_program_ne m a v h
    | fail =>
      cases took with
      | true => exact Memory.read_program_ne m a v h
      | false => rfl

/-- A program call leaves a write-protected byte alone. -/
theorem programEffect_protected (m : Memory) {wrp : Byte} {a : Word} (v : Byte) (r : PortResult) (took : Bool)
    (h : protectedByte wrp a.toNat = true) : programEffect m wrp a v r took = m := by
  simp [programEffect, h]

theorem wf_eraseEffect {m : Memory} (wrp : Byte) (req : EraseReq) (word : Word) (took : Nat → Bool) (h : m.wf = true) :
    (eraseEffect m wrp req word took).wf = true := by
  unfold eraseEffect
  split <;> exact Memory.wf_eraseWhere _ h

/-- An erase call leaves every byte outside its request alone. -/
theorem read_eraseEffect_ne (m : Memory) (wrp : Byte) (req : EraseReq) (word : Word) (took : Nat → Bool) {b : Nat}
    (h : req.covers b = false) : (eraseEffect m wrp req word took).read b = m.read b := by
  unfold eraseEffect
  split <;> simp [Memory.read_eraseWhere, h]

end Sys2Proof.Machine
end

