-- ==== Sys2Proof/Laws/State.lean ====
section
/-! SUPPORT. One lemma per field per update of State. -/

namespace Sys2Proof.Machine

variable (s : State)

/-! ## `goto` -/

@[simp] theorem State.goto_phase (p : Phase) : (s.goto p).phase = p := rfl
@[simp] theorem State.goto_buf (p : Phase) : (s.goto p).buf = s.buf := rfl
@[simp] theorem State.goto_len (p : Phase) : (s.goto p).len = s.len := rfl
@[simp] theorem State.goto_rxcnt (p : Phase) : (s.goto p).rxcnt = s.rxcnt := rfl
@[simp] theorem State.goto_crcAcc (p : Phase) : (s.goto p).crcAcc = s.crcAcc := rfl
@[simp] theorem State.goto_flashCtl (p : Phase) : (s.goto p).flashCtl = s.flashCtl := rfl
@[simp] theorem State.goto_optCtl (p : Phase) : (s.goto p).optCtl = s.optCtl := rfl
@[simp] theorem State.goto_opt (p : Phase) : (s.goto p).opt = s.opt := rfl
@[simp] theorem State.goto_optStaged (p : Phase) : (s.goto p).optStaged = s.optStaged := rfl
@[simp] theorem State.goto_mem (p : Phase) : (s.goto p).mem = s.mem := rfl
@[simp] theorem State.goto_trace (p : Phase) : (s.goto p).trace = s.trace := rfl
@[simp] theorem State.goto_fault (p : Phase) : (s.goto p).fault = s.fault := rfl
@[simp] theorem State.goto_straps (p : Phase) : (s.goto p).straps = s.straps := rfl
@[simp] theorem State.goto_env (p : Phase) : (s.goto p).env = s.env := rfl

/-! ## `emit` -/

@[simp] theorem State.emit_phase (e : Event) : (s.emit e).phase = s.phase := rfl
@[simp] theorem State.emit_buf (e : Event) : (s.emit e).buf = s.buf := rfl
@[simp] theorem State.emit_len (e : Event) : (s.emit e).len = s.len := rfl
@[simp] theorem State.emit_rxcnt (e : Event) : (s.emit e).rxcnt = s.rxcnt := rfl
@[simp] theorem State.emit_crcAcc (e : Event) : (s.emit e).crcAcc = s.crcAcc := rfl
@[simp] theorem State.emit_flashCtl (e : Event) : (s.emit e).flashCtl = s.flashCtl := rfl
@[simp] theorem State.emit_optCtl (e : Event) : (s.emit e).optCtl = s.optCtl := rfl
@[simp] theorem State.emit_opt (e : Event) : (s.emit e).opt = s.opt := rfl
@[simp] theorem State.emit_optStaged (e : Event) : (s.emit e).optStaged = s.optStaged := rfl
@[simp] theorem State.emit_mem (e : Event) : (s.emit e).mem = s.mem := rfl
@[simp] theorem State.emit_trace (e : Event) : (s.emit e).trace = s.trace ++ [e] := rfl
@[simp] theorem State.emit_fault (e : Event) : (s.emit e).fault = s.fault := rfl
@[simp] theorem State.emit_straps (e : Event) : (s.emit e).straps = s.straps := rfl
@[simp] theorem State.emit_env (e : Event) : (s.emit e).env = s.env := rfl

/-! ## `withEnv` -/

@[simp] theorem State.withEnv_phase (e : Env) : (s.withEnv e).phase = s.phase := rfl
@[simp] theorem State.withEnv_buf (e : Env) : (s.withEnv e).buf = s.buf := rfl
@[simp] theorem State.withEnv_len (e : Env) : (s.withEnv e).len = s.len := rfl
@[simp] theorem State.withEnv_rxcnt (e : Env) : (s.withEnv e).rxcnt = s.rxcnt := rfl
@[simp] theorem State.withEnv_crcAcc (e : Env) : (s.withEnv e).crcAcc = s.crcAcc := rfl
@[simp] theorem State.withEnv_flashCtl (e : Env) : (s.withEnv e).flashCtl = s.flashCtl := rfl
@[simp] theorem State.withEnv_optCtl (e : Env) : (s.withEnv e).optCtl = s.optCtl := rfl
@[simp] theorem State.withEnv_opt (e : Env) : (s.withEnv e).opt = s.opt := rfl
@[simp] theorem State.withEnv_optStaged (e : Env) : (s.withEnv e).optStaged = s.optStaged := rfl
@[simp] theorem State.withEnv_mem (e : Env) : (s.withEnv e).mem = s.mem := rfl
@[simp] theorem State.withEnv_trace (e : Env) : (s.withEnv e).trace = s.trace := rfl
@[simp] theorem State.withEnv_fault (e : Env) : (s.withEnv e).fault = s.fault := rfl
@[simp] theorem State.withEnv_straps (e : Env) : (s.withEnv e).straps = s.straps := rfl
@[simp] theorem State.withEnv_env (e : Env) : (s.withEnv e).env = e := rfl

/-! ## `raise` -/

@[simp] theorem State.raise_phase (r : Fault) : (s.raise r).phase = .faulted r := rfl
@[simp] theorem State.raise_buf (r : Fault) : (s.raise r).buf = s.buf := rfl
@[simp] theorem State.raise_len (r : Fault) : (s.raise r).len = s.len := rfl
@[simp] theorem State.raise_rxcnt (r : Fault) : (s.raise r).rxcnt = s.rxcnt := rfl
@[simp] theorem State.raise_crcAcc (r : Fault) : (s.raise r).crcAcc = s.crcAcc := rfl
@[simp] theorem State.raise_flashCtl (r : Fault) : (s.raise r).flashCtl = s.flashCtl := rfl
@[simp] theorem State.raise_optCtl (r : Fault) : (s.raise r).optCtl = s.optCtl := rfl
@[simp] theorem State.raise_opt (r : Fault) : (s.raise r).opt = s.opt := rfl
@[simp] theorem State.raise_optStaged (r : Fault) : (s.raise r).optStaged = s.optStaged := rfl
@[simp] theorem State.raise_mem (r : Fault) : (s.raise r).mem = s.mem := rfl
@[simp] theorem State.raise_trace (r : Fault) : (s.raise r).trace = s.trace := rfl
@[simp] theorem State.raise_fault (r : Fault) : (s.raise r).fault = some r := rfl
@[simp] theorem State.raise_straps (r : Fault) : (s.raise r).straps = s.straps := rfl
@[simp] theorem State.raise_env (r : Fault) : (s.raise r).env = s.env := rfl

/-! ## `nextExchange` -/

@[simp] theorem State.nextExchange_phase : (s.nextExchange).phase = .awaitLength := rfl
@[simp] theorem State.nextExchange_buf : (s.nextExchange).buf = FrameBuffer.zero := rfl
@[simp] theorem State.nextExchange_len : (s.nextExchange).len = 0 := rfl
@[simp] theorem State.nextExchange_rxcnt : (s.nextExchange).rxcnt = 0 := rfl
@[simp] theorem State.nextExchange_crcAcc : (s.nextExchange).crcAcc = s.crcAcc := rfl
@[simp] theorem State.nextExchange_flashCtl : (s.nextExchange).flashCtl = s.flashCtl := rfl
@[simp] theorem State.nextExchange_optCtl : (s.nextExchange).optCtl = s.optCtl := rfl
@[simp] theorem State.nextExchange_opt : (s.nextExchange).opt = s.opt := rfl
@[simp] theorem State.nextExchange_optStaged : (s.nextExchange).optStaged = s.optStaged := rfl
@[simp] theorem State.nextExchange_mem : (s.nextExchange).mem = s.mem := rfl
@[simp] theorem State.nextExchange_trace : (s.nextExchange).trace = s.trace := rfl
@[simp] theorem State.nextExchange_fault : (s.nextExchange).fault = s.fault := rfl
@[simp] theorem State.nextExchange_straps : (s.nextExchange).straps = s.straps := rfl
@[simp] theorem State.nextExchange_env : (s.nextExchange).env = s.env := rfl

/-! ## The position in the recipe -/

@[simp] theorem State.pos_act (op : Opcode) (pos : ActPos) (h : s.phase = .act op pos) : s.pos = pos := by
  simp [State.pos, h]

@[simp] theorem State.pos_goto_act (op : Opcode) (pos : ActPos) : (s.goto (.act op pos)).pos = pos := rfl

/-! ## The environment -/

variable (e : Env)

@[simp] theorem Env.afterFlash_rx : e.afterFlash.rx = e.rx := rfl
@[simp] theorem Env.afterFlash_tx : e.afterFlash.tx = e.tx := rfl
@[simp] theorem Env.afterFlash_flash : e.afterFlash.flash = e.flash.tail := rfl
@[simp] theorem Env.afterFlash_erase : e.afterFlash.erase = e.erase := rfl
@[simp] theorem Env.afterFlash_opt : e.afterFlash.opt = e.opt := rfl
@[simp] theorem Env.afterFlash_draws : e.afterFlash.draws = e.draws + 1 := rfl
@[simp] theorem Env.afterErase_rx : e.afterErase.rx = e.rx := rfl
@[simp] theorem Env.afterErase_tx : e.afterErase.tx = e.tx := rfl
@[simp] theorem Env.afterErase_flash : e.afterErase.flash = e.flash := rfl
@[simp] theorem Env.afterErase_erase : e.afterErase.erase = e.erase.tail := rfl
@[simp] theorem Env.afterErase_opt : e.afterErase.opt = e.opt := rfl
@[simp] theorem Env.afterErase_draws : e.afterErase.draws = e.draws + 1 := rfl
@[simp] theorem Env.afterOpt_rx : e.afterOpt.rx = e.rx := rfl
@[simp] theorem Env.afterOpt_tx : e.afterOpt.tx = e.tx := rfl
@[simp] theorem Env.afterOpt_flash : e.afterOpt.flash = e.flash := rfl
@[simp] theorem Env.afterOpt_erase : e.afterOpt.erase = e.erase := rfl
@[simp] theorem Env.afterOpt_opt : e.afterOpt.opt = e.opt.tail := rfl
@[simp] theorem Env.afterOpt_draws : e.afterOpt.draws = e.draws + 1 := rfl

end Sys2Proof.Machine
end

