-- ==== Sys2Proof/Laws/Ops.lean ====
section
/-! SUPPORT. One lemma per shared operation that says once everything it can do. -/

namespace Sys2Proof.Machine

/-! ## A step that is one port call -/

@[simp] theorem answered_some (s t : State) : answered s (some t) = .next t := rfl

@[simp] theorem answered_none (s : State) : answered s none = .next s := rfl

theorem answered_eq_next_iff (s t : State) (r : Option State) :
    answered s r = .next t ↔ (r = none ∧ t = s) ∨ r = some t := by
  cases r <;> simp [eq_comm]

theorem answered_ne_fault (s : State) (r : Option State) (f : Fault) : answered s r ≠ .fault f := by
  cases r <;> simp

theorem answered_ne_refused (s : State) (r : Option State) (f : Refusal) : answered s r ≠ .refused f := by
  cases r <;> simp

/-! ## Transport -/

theorem txByte_eq_some_iff (b : Byte) (s t : State) :
    txByte b s = some t ↔
      s.env.tx.accepts = true ∧ t = { s with trace := s.trace ++ [.tx b], env := { s.env with tx := s.env.tx.spend } } := by
  unfold txByte
  split <;> simp_all [State.emit, State.withEnv, @eq_comm State t]

/-- A byte that is accepted goes out. -/
theorem txByte_accepted {b : Byte} {s : State} (h : s.env.tx.accepts = true) :
    txByte b s = some { s with trace := s.trace ++ [.tx b], env := { s.env with tx := s.env.tx.spend } } :=
  (txByte_eq_some_iff b s _).mpr ⟨h, rfl⟩

theorem txByte_eq_none_iff (b : Byte) (s : State) : txByte b s = none ↔ s.env.tx.accepts = false := by simp [txByte]

/-! ## Flash controller -/

theorem flashUnlock_eq_some_iff (s t : State) (r : PortResult) :
    flashUnlock s = some (r, t) ↔
      s.env.flashAnswer = some r ∧
        t = { s with
          flashCtl := { lock := if r = .ok then false else s.flashCtl.lock }
          trace := s.trace ++ [.flash .unlock (.result r)]
          env := s.env.afterFlash } := by
  simp only [flashUnlock, Option.map_eq_some_iff, Prod.mk.injEq]
  constructor
  · rintro ⟨d, h, rfl, rfl⟩
    exact ⟨h, rfl⟩
  · rintro ⟨h, rfl⟩
    exact ⟨r, h, rfl, rfl⟩

theorem flashLock_eq_some_iff (s t : State) (r : PortResult) :
    flashLock s = some (r, t) ↔
      s.env.flashAnswer = some r ∧
        t = { s with
          flashCtl := { lock := if r = .ok then true else s.flashCtl.lock }
          trace := s.trace ++ [.flash .lock (.result r)]
          env := s.env.afterFlash } := by
  simp only [flashLock, Option.map_eq_some_iff, Prod.mk.injEq]
  constructor
  · rintro ⟨d, h, rfl, rfl⟩
    exact ⟨h, rfl⟩
  · rintro ⟨h, rfl⟩
    exact ⟨r, h, rfl, rfl⟩

theorem flashProgramByte_eq_some_iff (a : Word) (v : Byte) (s t : State) (r : PortResult) :
    flashProgramByte a v s = some (r, t) ↔
      ∃ drawn, s.env.flashAnswer = some drawn ∧ r = programAnswer s.opt.wrp a drawn ∧
        t = { s with
          mem := programEffect s.mem s.opt.wrp a v r (Config.programTook s.env.draws)
          trace := s.trace ++ [.flash (.program a v) (.result r)]
          env := s.env.afterFlash } := by
  simp only [flashProgramByte, Option.map_eq_some_iff, Prod.mk.injEq]
  constructor
  · rintro ⟨d, h, rfl, rfl⟩
    exact ⟨d, h, rfl, rfl⟩
  · rintro ⟨d, h, rfl, rfl⟩
    exact ⟨d, h, rfl, rfl⟩

theorem flashErase_eq_some_iff (req : EraseReq) (s t : State) (ans : EraseAnswer) :
    flashErase req s = some (ans, t) ↔
      ∃ drawn, s.env.eraseAnswer = some drawn ∧ ans = forcedEraseAnswer req s.opt.wrp drawn ∧
        t = { s with
          mem := eraseEffect s.mem s.opt.wrp req ans.word (Config.eraseTook s.env.draws)
          trace := s.trace ++ [.flash (.erase req Config.voltageRange) (.erase ans)]
          env := s.env.afterErase } := by
  simp only [flashErase, Option.map_eq_some_iff, Prod.mk.injEq]
  constructor
  · rintro ⟨d, h, rfl, rfl⟩
    exact ⟨d, h, rfl, rfl⟩
  · rintro ⟨d, h, rfl, rfl⟩
    exact ⟨d, h, rfl, rfl⟩

/-- A program of a write-protected byte fails. -/
theorem programAnswer_protected {wrp : Byte} {a : Word} (drawn : PortResult) (h : protectedByte wrp a.toNat = true) :
    programAnswer wrp a drawn = .fail := by
  simp [programAnswer, h]

theorem programAnswer_unprotected {wrp : Byte} {a : Word} (drawn : PortResult) (h : protectedByte wrp a.toNat = false) :
    programAnswer wrp a drawn = drawn := by
  simp [programAnswer, h]

theorem word_xor_one_ne (w : Word) : w ^^^ 1 ≠ w := by
  intro h
  have h0 := congrArg (fun x : Word => x.getLsbD 0) h
  simp at h0

/-- An erase that covers a protected byte does not answer `P_ERASE_OK`. -/
theorem forcedEraseAnswer_word_ne {req : EraseReq} {wrp : Byte} (drawn : EraseAnswer)
    (h : req.hitsProtected wrp = true) : (forcedEraseAnswer req wrp drawn).word ≠ Config.eraseOk := by
  unfold forcedEraseAnswer
  by_cases hw : drawn.word = Config.eraseOk
  · simp [h, hw]
  · simp [h, hw]

theorem forcedEraseAnswer_free {req : EraseReq} {wrp : Byte} (drawn : EraseAnswer)
    (h : req.hitsProtected wrp = false) : forcedEraseAnswer req wrp drawn = drawn := by
  simp [forcedEraseAnswer, h]

/-- Every word but `P_ERASE_OK` remains a possible answer of an erase that covers a protected byte. -/
theorem forcedEraseAnswer_of_ne (req : EraseReq) (wrp : Byte) {drawn : EraseAnswer} (h : drawn.word ≠ Config.eraseOk) :
    forcedEraseAnswer req wrp drawn = drawn := by
  simp [forcedEraseAnswer, h]

/-! ## Option store -/

theorem optUnlock_eq_some_iff (s t : State) (r : PortResult) :
    optUnlock s = some (r, t) ↔
      s.env.optAnswer = some r ∧
        t = { s with
          optCtl := { optlock := if r = .ok then false else s.optCtl.optlock }
          trace := s.trace ++ [.opt .unlock r]
          env := s.env.afterOpt } := by
  simp only [optUnlock, Option.map_eq_some_iff, Prod.mk.injEq]
  constructor
  · rintro ⟨d, h, rfl, rfl⟩
    exact ⟨h, rfl⟩
  · rintro ⟨h, rfl⟩
    exact ⟨r, h, rfl, rfl⟩

theorem optLock_eq_some_iff (s t : State) (r : PortResult) :
    optLock s = some (r, t) ↔
      s.env.optAnswer = some r ∧
        t = { s with
          optCtl := { optlock := if r = .ok then true else s.optCtl.optlock }
          trace := s.trace ++ [.opt .lock r]
          env := s.env.afterOpt } := by
  simp only [optLock, Option.map_eq_some_iff, Prod.mk.injEq]
  constructor
  · rintro ⟨d, h, rfl, rfl⟩
    exact ⟨h, rfl⟩
  · rintro ⟨h, rfl⟩
    exact ⟨r, h, rfl, rfl⟩

theorem optProgram_eq_some_iff (cfg : OptCfg) (s t : State) (r : PortResult) :
    optProgram cfg s = some (r, t) ↔
      s.env.optAnswer = some r ∧
        t = { s with
          optStaged :=
            if r = .ok then cfg.apply s.optStaged
            else mixConfig s.optStaged (cfg.apply s.optStaged) (Config.rdpTook s.env.draws) (Config.wrpTook s.env.draws)
          trace := s.trace ++ [.opt (.program cfg) r]
          env := s.env.afterOpt } := by
  simp only [optProgram, Option.map_eq_some_iff, Prod.mk.injEq]
  constructor
  · rintro ⟨d, h, rfl, rfl⟩
    exact ⟨h, rfl⟩
  · rintro ⟨h, rfl⟩
    exact ⟨r, h, rfl, rfl⟩

theorem optLaunch_eq_some_iff (s t : State) (r : PortResult) :
    optLaunch s = some (r, t) ↔
      s.env.optAnswer = some r ∧
        t = { s with
          opt := launchedConfig s r
          mem :=
            if regresses s.opt (launchedConfig s r) then s.mem.redrawFlash (Config.flashDraw s.env.draws) else s.mem
          trace := s.trace ++ [.opt .launch r]
          env := s.env.afterOpt } := by
  simp only [optLaunch, Option.map_eq_some_iff, Prod.mk.injEq]
  constructor
  · rintro ⟨d, h, rfl, rfl⟩
    exact ⟨h, rfl⟩
  · rintro ⟨h, rfl⟩
    exact ⟨r, h, rfl, rfl⟩

theorem wf_optLaunch {s t : State} {r : PortResult} (h : optLaunch s = some (r, t)) (hm : s.mem.wf = true) :
    t.mem.wf = true := by
  obtain ⟨-, rfl⟩ := (optLaunch_eq_some_iff s t r).mp h
  simp only
  split
  · exact Memory.wf_redrawFlash _ hm
  · exact hm

/-! ## RDP levels -/

@[simp] theorem rdpLevel_sentinel (l : RdpLevel) : rdpLevel l.sentinel = l := by cases l <;> decide

theorem mixConfig_rdp (old new : OptConfig) (b : Bool) (m : Byte) :
    (mixConfig old new b m).rdp = old.rdp ∨ (mixConfig old new b m).rdp = new.rdp := by
  cases b <;> simp [mixConfig]

theorem mixConfig_wrp_bit (old new : OptConfig) (b : Bool) (m : Byte) (k : Nat) :
    (mixConfig old new b m).wrp.getLsbD k = if m.getLsbD k then new.wrp.getLsbD k else old.wrp.getLsbD k := by
  by_cases hk : k < 8
  · by_cases h : m.getLsbD k = true <;>
      simp only [mixConfig, BitVec.getLsbD_or, BitVec.getLsbD_and, BitVec.getLsbD_not, h, hk] <;> simp
  · simp [mixConfig, BitVec.getLsbD_of_ge _ _ (Nat.le_of_not_lt hk)]

/-! ## Launch -/

/-- A launch goes through, or raises one of the two faults; it writes nothing else. -/
theorem launchAt_cases (base : Word) (s : State) :
    (base.toNat % 4 ≠ 0 ∧ launchAt base s = s.raise (.misalignedLaunch base)) ∨
    (base.toNat % 4 = 0 ∧ (s.mem.read32 base = none ∨ s.mem.read32 (base + 4) = none) ∧
      launchAt base s = s.raise (.launchRead base)) ∨
    (base.toNat % 4 = 0 ∧ ∃ sp pc, s.mem.read32 base = some sp ∧ s.mem.read32 (base + 4) = some pc ∧
      launchAt base s = (s.emit (.launch sp pc)).goto .launched) := by
  by_cases hb : base.toNat % 4 = 0
  · unfold launchAt
    simp only [hb, ne_eq, not_true_eq_false, if_false]
    cases h1 : s.mem.read32 base <;> cases h2 : s.mem.read32 (base + 4) <;> simp [launchTransfer]
  · simp [launchAt, hb]

/-! ## Replies -/

theorem sendReply_eq_some_iff (bytes : List Byte) (s t : State) :
    sendReply bytes s = some t ↔
      (bytes = [] ∧ t = s.goto .done) ∨
      ∃ b rest u, bytes = b :: rest ∧ txByte b s = some u ∧
        t = u.goto (if rest.isEmpty then .done else .sendReply rest) := by
  cases bytes with
  | nil => simp [sendReply, @eq_comm State t]
  | cons b rest =>
    simp only [sendReply, Option.map_eq_some_iff]
    constructor
    · rintro ⟨u, hu, rfl⟩
      exact .inr ⟨b, rest, u, rfl, hu, rfl⟩
    · rintro (⟨h, -⟩ | ⟨b', rest', u, h, hu, rfl⟩)
      · exact absurd h (List.cons_ne_nil _ _)
      · obtain ⟨rfl, rfl⟩ := List.cons.inj h
        exact ⟨u, hu, rfl⟩

end Sys2Proof.Machine
end

