-- ==== Sys2Proof/Laws/Exec.lean ====
section
/-! SUPPORT. What one step of a command can do, said once: `exec_next`. -/

namespace Sys2Proof.Machine

/-- One step of a command that does something: the port call, and the position after it. -/
inductive ExecStep : Instr → State → State → Prop where
  | reply {i s t bytes} : bytes ≠ [] → sendReply bytes s = some t → ExecStep i s t
  | readId {s} : ExecStep .getId s ((readIdcode s).2.goto (.sendReply (idBytes s.straps.idcode)))
  | silent {i s} : i.opcode.implemented = false → ExecStep i s (s.goto .done)
  | status {addr s u} : s.pos ≠ .launch → classify addr = .valid → txByte Config.stOk s = some u →
      ExecStep (.goToAddress addr) s (u.goto (.act .goToAddress .launch))
  | launch {addr s} : s.pos = .launch → ExecStep (.goToAddress addr) s (launchAt addr s)
  | writeUnlock {addr data s r u} : s.pos.inWrite = false → classify addr = .valid → flashUnlock s = some (r, u) →
      ExecStep (.writeMemory addr data) s
        (u.goto (.act .writeMemory (match r with | .ok => .program 0 | .fail => .writeLock .fail)))
  | writeProgram {addr data s k v r u} : s.pos = .program k → data[k]? = some v →
      flashProgramByte (addr + BitVec.ofNat 32 k) v s = some (r, u) →
      ExecStep (.writeMemory addr data) s
        (u.goto (.act .writeMemory (match r with | .ok => .program (k + 1) | .fail => .writeLock .fail)))
  | writeLock {addr data s res r u} :
      (s.pos = .writeLock res ∨ (res = .pass ∧ ∃ k, s.pos = .program k ∧ data[k]? = none)) →
      flashLock s = some (r, u) → ExecStep (.writeMemory addr data) s (u.goto (.sendReply [res.status]))
  | eraseUnlock {sector count s req r u} : eraseRequest sector count = some req → s.pos ≠ .eraseCall →
      (∀ res, s.pos ≠ .eraseLock res) → flashUnlock s = some (r, u) →
      ExecStep (.erase sector count) s
        (u.goto (.act .erase (match r with | .ok => .eraseCall | .fail => .eraseLock .fail)))
  | eraseCall {sector count s req ans u} : eraseRequest sector count = some req → s.pos = .eraseCall →
      flashErase req s = some (ans, u) →
      ExecStep (.erase sector count) s (u.goto (.act .erase (.eraseLock (eraseResult ans))))
  | eraseLock {sector count s req res r u} : eraseRequest sector count = some req → s.pos = .eraseLock res →
      flashLock s = some (r, u) → ExecStep (.erase sector count) s (u.goto (.sendReply [res.status]))
  | optUnlock {i cfg s r u} : chainCfg i = some cfg → s.pos.inChain = false →
      (∀ l, rdpRequest i = some l → gateRefuses s l = false) → optUnlock s = some (r, u) →
      ExecStep i s (u.goto (.act i.opcode (match r with | .ok => .optProgram | .fail => .optLock .failed)))
  | optProgram {i cfg s r u} : chainCfg i = some cfg → s.pos = .optProgram → optProgram cfg s = some (r, u) →
      ExecStep i s (u.goto (.act i.opcode (match r with | .ok => .optLaunch | .fail => .optLock .failed)))
  | optLaunch {i cfg s r u} : chainCfg i = some cfg → s.pos = .optLaunch → optLaunch s = some (r, u) →
      ExecStep i s (u.goto (.act i.opcode (.optLock (match r with | .ok => .ok | .fail => .failed))))
  | optLock {i cfg s c r u} : chainCfg i = some cfg → s.pos = .optLock c → optLock s = some (r, u) →
      ExecStep i s (u.goto (.sendReply [chainStatus (c.afterLock r)]))

theorem replyNow_next {i : Instr} {bytes : List Byte} {s t : State} (hb : bytes ≠ [])
    (h : replyNow bytes s = .next t) : t = s ∨ ExecStep i s t := by
  rcases (answered_eq_next_iff _ _ _).mp h with ⟨-, rfl⟩ | h
  · exact .inl rfl
  · exact .inr (.reply hb h)

theorem writePayload_next {addr : Word} {data : List Byte} {s t : State}
    (hs : s.pos.inWrite = true ∨ classify addr = .valid) (h : writePayload data addr s = .next t) :
    t = s ∨ ExecStep (.writeMemory addr data) s t := by
  unfold writePayload at h
  split at h
  · next k hk =>
    split at h
    · next v hv =>
      rcases (answered_eq_next_iff _ _ _).mp h with ⟨-, rfl⟩ | h
      · exact .inl rfl
      · obtain ⟨⟨r, u⟩, hu, rfl⟩ := Option.map_eq_some_iff.mp h
        exact .inr (.writeProgram hk hv hu)
    · next hv =>
      rcases (answered_eq_next_iff _ _ _).mp h with ⟨-, rfl⟩ | h
      · exact .inl rfl
      · obtain ⟨⟨r, u⟩, hu, rfl⟩ := Option.map_eq_some_iff.mp h
        exact .inr (.writeLock (.inr ⟨rfl, k, hk, hv⟩) hu)
  · next res hres =>
    rcases (answered_eq_next_iff _ _ _).mp h with ⟨-, rfl⟩ | h
    · exact .inl rfl
    · obtain ⟨⟨r, u⟩, hu, rfl⟩ := Option.map_eq_some_iff.mp h
      exact .inr (.writeLock (.inl hres) hu)
  · next h1 h2 =>
    have hp : s.pos.inWrite = false := by
      cases hpos : s.pos with
      | program k => exact absurd hpos (h1 k)
      | writeLock res => exact absurd hpos (h2 res)
      | _ => rfl
    rcases (answered_eq_next_iff _ _ _).mp h with ⟨-, rfl⟩ | h
    · exact .inl rfl
    · obtain ⟨⟨r, u⟩, hu, rfl⟩ := Option.map_eq_some_iff.mp h
      exact .inr (.writeUnlock hp (hs.resolve_left (by simp [hp])) hu)

theorem eraseSequence_next {sector count : Byte} {s t : State} (h : eraseSequence sector count s = .next t) :
    t = s ∨ ExecStep (.erase sector count) s t := by
  unfold eraseSequence at h
  split at h
  · exact replyNow_next (by simp) h
  · next req hreq =>
    split at h
    · next hp =>
      rcases (answered_eq_next_iff _ _ _).mp h with ⟨-, rfl⟩ | h
      · exact .inl rfl
      · obtain ⟨⟨ans, u⟩, hu, rfl⟩ := Option.map_eq_some_iff.mp h
        exact .inr (.eraseCall hreq hp hu)
    · next res hp =>
      rcases (answered_eq_next_iff _ _ _).mp h with ⟨-, rfl⟩ | h
      · exact .inl rfl
      · obtain ⟨⟨r, u⟩, hu, rfl⟩ := Option.map_eq_some_iff.mp h
        exact .inr (.eraseLock hreq hp hu)
    · next h1 h2 =>
      rcases (answered_eq_next_iff _ _ _).mp h with ⟨-, rfl⟩ | h
      · exact .inl rfl
      · obtain ⟨⟨r, u⟩, hu, rfl⟩ := Option.map_eq_some_iff.mp h
        exact .inr (.eraseUnlock hreq h1 h2 hu)

theorem optChain_next {i : Instr} {cfg : OptCfg} {status : ChainResult → Byte} {s t : State}
    (hc : chainCfg i = some cfg) (hst : status = chainStatus)
    (hg : s.pos.inChain = false → ∀ l, rdpRequest i = some l → gateRefuses s l = false)
    (h : optChain i.opcode cfg status s = .next t) : t = s ∨ ExecStep i s t := by
  subst hst
  unfold optChain at h
  split at h
  · next hp =>
    rcases (answered_eq_next_iff _ _ _).mp h with ⟨-, rfl⟩ | h
    · exact .inl rfl
    · obtain ⟨⟨r, u⟩, hu, rfl⟩ := Option.map_eq_some_iff.mp h
      exact .inr (.optProgram hc hp hu)
  · next hp =>
    rcases (answered_eq_next_iff _ _ _).mp h with ⟨-, rfl⟩ | h
    · exact .inl rfl
    · obtain ⟨⟨r, u⟩, hu, rfl⟩ := Option.map_eq_some_iff.mp h
      exact .inr (.optLaunch hc hp hu)
  · next c hp =>
    rcases (answered_eq_next_iff _ _ _).mp h with ⟨-, rfl⟩ | h
    · exact .inl rfl
    · obtain ⟨⟨r, u⟩, hu, rfl⟩ := Option.map_eq_some_iff.mp h
      exact .inr (.optLock hc hp hu)
  · next h1 h2 h3 =>
    have hp : s.pos.inChain = false := by
      cases hpos : s.pos with
      | optProgram => exact absurd hpos h1
      | optLaunch => exact absurd hpos h2
      | optLock c => exact absurd hpos (h3 c)
      | _ => rfl
    rcases (answered_eq_next_iff _ _ _).mp h with ⟨-, rfl⟩ | h
    · exact .inl rfl
    · obtain ⟨⟨r, u⟩, hu, rfl⟩ := Option.map_eq_some_iff.mp h
      exact .inr (.optUnlock hc hp (hg hp) hu)

theorem rdp_status_eq : (fun c : ChainResult => c.rdp.status) = chainStatus := by funext c; cases c <;> rfl

theorem wrp_status_eq : (fun c : ChainResult => c.wrp.status) = chainStatus := by funext c; cases c <;> rfl

theorem setRdp_next {i : Instr} {level : RdpLevel} {s t : State} (hc : chainCfg i = some (.rdp level.sentinel))
    (hr : rdpRequest i = some level) (h : setRdp i.opcode level s = .next t) : t = s ∨ ExecStep i s t := by
  unfold setRdp at h
  split at h
  · exact replyNow_next (by simp) h
  · next hn =>
    refine optChain_next hc rdp_status_eq (fun hp l hl => ?_) h
    obtain rfl : level = l := by simpa [hr] using hl
    simpa [hp] using hn

theorem setWrp_next {i : Instr} {sectorCount sectorCode : Byte} {enable : Bool} {s t : State}
    (hc : ¬ Config.numSectors < sectorCount.toNat → chainCfg i = some (.wrp enable sectorCode))
    (hr : rdpRequest i = none) (h : setWrp i.opcode sectorCount sectorCode enable s = .next t) :
    t = s ∨ ExecStep i s t := by
  unfold setWrp at h
  split at h
  · exact replyNow_next (by simp) h
  · next hn => exact optChain_next (hc hn) wrp_status_eq (fun _ l hl => by simp [hr] at hl) h

/-- What one step of a command can do: nothing, while the port holds; or one of the steps of `ExecStep`. -/
theorem exec_next {i : Instr} {s t : State} (h : exec i s = .next t) : t = s ∨ ExecStep i s t := by
  cases i with
  | getHelp => exact replyNow_next (by simp [versionBytes]) h
  | getVersion => exact replyNow_next (by simp [versionBytes]) h
  | getId => cases h; exact .inr .readId
  | readMemory => cases h; exact .inr (.silent rfl)
  | goToAddress addr =>
    simp only [exec, execGoToAddress] at h
    split at h
    · next hp => cases h; exact .inr (.launch hp)
    · next hp =>
      split at h
      · exact replyNow_next (by simp) h
      · next hv =>
        rcases (answered_eq_next_iff _ _ _).mp h with ⟨-, rfl⟩ | h
        · exact .inl rfl
        · obtain ⟨u, hu, rfl⟩ := Option.map_eq_some_iff.mp h
          exact .inr (.status hp hv hu)
  | writeMemory addr data =>
    simp only [exec, execWriteMemory] at h
    split at h
    · exact replyNow_next (by simp) h
    · next hn =>
      refine writePayload_next ?_ h
      cases hp : s.pos.inWrite with
      | true => exact .inl rfl
      | false =>
        right
        cases hv : classify addr with
        | valid => rfl
        | invalid => simp [hp, hv] at hn
  | erase sector count => exact eraseSequence_next h
  | extendedErase => cases h; exact .inr (.silent rfl)
  | special => cases h; exact .inr (.silent rfl)
  | extendedSpecial => cases h; exact .inr (.silent rfl)
  | writeProtect sectorCount sectorCode =>
    have h' : setWrp .writeProtect sectorCount sectorCode true s = .next t := h
    exact setWrp_next (i := .writeProtect sectorCount sectorCode) (fun hn => by simp [chainCfg, hn]) rfl h'
  | writeUnprotect sectorCount sectorCode =>
    have h' : setWrp .writeUnprotect sectorCount sectorCode false s = .next t := h
    exact setWrp_next (i := .writeUnprotect sectorCount sectorCode) (fun hn => by simp [chainCfg, hn]) rfl h'
  | readoutProtect =>
    have h' : setRdp .readoutProtect .level1 s = .next t := h
    exact setRdp_next (i := .readoutProtect) rfl rfl h'
  | readoutUnprotect level =>
    simp only [exec, execReadoutUnprotect] at h
    split at h
    · exact replyNow_next (by simp) h
    · next l hl => exact setRdp_next (i := .readoutUnprotect level) (by simp [chainCfg, hl]) (by simp [rdpRequest, hl]) h
  | checksum => cases h; exact .inr (.silent rfl)

/-- No command ends in a fault: a launch that raises one takes it as a next state. -/
theorem exec_isNext (i : Instr) (s : State) : ∃ t, exec i s = .next t := by
  have ha : ∀ r, ∃ t, answered s r = .next t := fun r => ⟨_, rfl⟩
  have hr : ∀ bytes, ∃ t, replyNow bytes s = .next t := fun bytes => ha _
  have hc : ∀ op cfg st, ∃ t, optChain op cfg st s = .next t := by
    intro op cfg st
    unfold optChain
    split <;> exact ha _
  have hw : ∀ op c m e, ∃ t, setWrp op c m e s = .next t := by
    intro op c m e
    unfold setWrp
    split
    · exact hr _
    · exact hc _ _ _
  have hd : ∀ op l, ∃ t, setRdp op l s = .next t := by
    intro op l
    unfold setRdp
    split
    · exact hr _
    · exact hc _ _ _
  cases i with
  | getHelp => exact hr _
  | getVersion => exact hr _
  | getId => exact ⟨_, rfl⟩
  | readMemory => exact ⟨_, rfl⟩
  | goToAddress addr =>
    simp only [exec, execGoToAddress]
    split
    · exact ⟨_, rfl⟩
    · split
      · exact hr _
      · exact ha _
  | writeMemory addr data =>
    simp only [exec, execWriteMemory]
    split
    · exact hr _
    · unfold writePayload
      split
      · split <;> exact ha _
      · exact ha _
      · exact ha _
  | erase sector count =>
    simp only [exec, execErase, eraseSequence]
    split
    · exact hr _
    · split <;> exact ha _
  | extendedErase => exact ⟨_, rfl⟩
  | special => exact ⟨_, rfl⟩
  | extendedSpecial => exact ⟨_, rfl⟩
  | writeProtect c m => exact hw _ _ _ _
  | writeUnprotect c m => exact hw _ _ _ _
  | readoutProtect => exact hd _ _
  | readoutUnprotect level =>
    simp only [exec, execReadoutUnprotect]
    split
    · exact hr _
    · exact hd _ _
  | checksum => exact ⟨_, rfl⟩

end Sys2Proof.Machine
end

