-- ==== Sys2Proof/Laws/Step.lean ====
section
/-! SUPPORT. The frame registers, the pure computation before a port call (`settle`), and what one step can do
(`step_next`). -/

namespace Sys2Proof.Machine

/-! ## Bytes of the frame buffer -/

theorem byteAt_zero (i : Nat) : byteAt FrameBuffer.zero.toList i = 0 := by
  simp only [byteAt, FrameBuffer.zero, Vector.toList_replicate, List.getD_eq_getElem?_getD, List.getElem?_replicate]
  split <;> rfl

theorem byteAt_set (buf : FrameBuffer) (k : Nat) (b : Byte) (hk : k < Config.frameBuf) (i : Nat) :
    byteAt (buf.setIfInBounds k b).toList i = if i = k then b else byteAt buf.toList i := by
  have hlen : buf.toList.length = Config.frameBuf := by simp
  simp only [byteAt, Vector.toList_setIfInBounds, List.getD_eq_getElem?_getD, List.getElem?_set]
  by_cases h : i = k
  · subst h; simp [hlen, hk]
  · simp [h, Ne.symm h]

theorem set_zero_eq (buf : FrameBuffer) (b : Byte) : buf.set 0 b = buf.setIfInBounds 0 b := by
  simp [Vector.setIfInBounds, Vector.set, Array.setIfInBounds]

/-! ## What is not the frame registers' does not change a frame -/

@[simp] theorem State.fetch_goto (s : State) (p : Phase) : (s.goto p).fetch = s.fetch := rfl

theorem State.fetch_congr {s t : State} (hb : t.buf = s.buf) (hl : t.len = s.len) : t.fetch = s.fetch := by
  simp [State.fetch, State.frameBytes, hb, hl]

@[simp] theorem verdict_goto (s : State) (p : Phase) : verdict (s.goto p) = verdict s := rfl

@[simp] theorem frameComplete_goto (s : State) (p : Phase) : frameComplete (s.goto p) = frameComplete s := rfl

/-! ## The command in the buffer -/

@[simp] theorem operands_opcode (op : Opcode) (f : List Byte) : (operands op f).opcode = op := by cases op <;> rfl

@[simp] theorem State.frameBytes_length (s : State) : s.frameBytes.length = s.len.toNat + 1 := by
  have := s.len.isLt
  simp [State.frameBytes]
  omega

/-- What the decoder says of a received frame: the buffer never ends before the frame does. -/
theorem State.fetch_eq (s : State) (h : byteAt s.frameBytes 0 = s.len) :
    s.fetch =
      if s.len.toNat < Config.minFrameLen then .error .malformed
      else match Opcode.ofByte (byteAt s.frameBytes 1) with
        | none => .error (.unknownOpcode (byteAt s.frameBytes 1))
        | some op =>
          if minLenOk op.format s.len.toNat s.frameBytes then .ok (operands op s.frameBytes) else .error .tooShort := by
  have hl := s.frameBytes_length
  unfold State.fetch
  cases hf : s.frameBytes with
  | nil => simp [hf] at hl
  | cons l rest =>
    have hl0 : l = s.len := by simpa [hf, byteAt] using h
    have hlr : rest.length = s.len.toNat := by simpa [hf] using hl
    subst hl0
    simp only [decode, hlr]
    rw [if_neg (by simp)]
    split
    · rfl
    · cases Opcode.ofByte (byteAt (s.len :: rest) 1) with
      | none => rfl
      | some op => dsimp only; split <;> rfl

/-! ## The verdict on a frame -/

theorem verdict_silent {s : State} {i : Instr} (h : verdict s = .silent i) :
    s.fetch = .ok i ∧ i.opcode.implemented = false := by
  unfold verdict at h
  split at h <;> try exact Verdict.noConfusion h
  next j hj =>
    split at h
    · exact Verdict.noConfusion h
    · next hi => cases h; exact ⟨hj, by simpa using hi⟩

theorem verdict_toVerify {s : State} {i : Instr} (h : verdict s = .toVerify i) :
    s.fetch = .ok i ∧ i.opcode.implemented = true := by
  unfold verdict at h
  split at h <;> try exact Verdict.noConfusion h
  next j hj =>
    split at h
    · next hi => cases h; exact ⟨hj, hi⟩
    · exact Verdict.noConfusion h

/-! ## `settle` -/

/-- A phase whose step begins with the checks on the frame. -/
def atChecks (s : State) : Prop := (s.phase = .awaitPayload ∧ frameComplete s = true) ∨ s.phase = .dispatch

/-- The state after a verification that did not pass, and after one that did (40_dispatcher R141, R142). -/
def verified (s : State) (pass : Bool) : State :=
  { s with crcAcc := Config.crcInit, phase := if pass then .sendAck false else .sendNack }

theorem settleVerify_eq (s : State) :
    settleVerify s = verified s (decide ((verifyData s.coveredBytes s.claimedCrc s).1 = .pass)) := by
  unfold settleVerify verifyData verified
  by_cases h : crcAccumulate Config.crcUnit s.crcAcc s.coveredBytes ^^^ Config.crcXorOut = s.claimedCrc <;>
    simp [h, State.goto]

/-- The verification of a received frame passes exactly when the CRC of its covered bytes is the claimed one
(40_dispatcher R141). -/
theorem verifyData_pass_iff {s : State} (data : List Byte) (claimed : Word) (h : s.crcAcc = Config.crcInit) :
    (verifyData data claimed s).1 = .pass ↔ crc data = claimed := by
  simp [verifyData, h, crc, crcWith]

/-- The pure computation changes only the phase and the CRC accumulator, and it says which port call comes next. -/
theorem settle_cases (s : State) :
    (settle s = s ∧ ¬ atChecks s ∧ s.phase ≠ .verify) ∨
    (atChecks s ∧ (verdict s = .malformed ∨ verdict s = .tooShort) ∧ settle s = s.goto .sendNack) ∨
    (atChecks s ∧ ((∃ op, verdict s = .unknown op) ∨ ∃ i, verdict s = .silent i) ∧ settle s = s.goto .dispatch) ∨
    ((s.phase = .verify ∨ atChecks s ∧ ∃ i, verdict s = .toVerify i) ∧ ∃ pass, settle s = verified s pass) := by
  have hd : ∀ u : State, verdict u = verdict s → (∀ p, u.goto p = s.goto p) → atChecks s →
      settle s = settleDispatch u →
      (atChecks s ∧ (verdict s = .malformed ∨ verdict s = .tooShort) ∧ settle s = s.goto .sendNack) ∨
      (atChecks s ∧ ((∃ op, verdict s = .unknown op) ∨ ∃ i, verdict s = .silent i) ∧ settle s = s.goto .dispatch) ∨
      ((s.phase = .verify ∨ atChecks s ∧ ∃ i, verdict s = .toVerify i) ∧ ∃ pass, settle s = verified s pass) := by
    intro u hv hg hc hs
    rw [hs, settleDispatch, hv]
    cases h : verdict s with
    | malformed => exact .inl ⟨hc, .inl rfl, hg _⟩
    | unknown op => exact .inr (.inl ⟨hc, .inl ⟨op, rfl⟩, hg _⟩)
    | silent i => exact .inr (.inl ⟨hc, .inr ⟨i, rfl⟩, hg _⟩)
    | tooShort => exact .inl ⟨hc, .inr rfl, hg _⟩
    | toVerify i =>
      refine .inr (.inr ⟨.inr ⟨hc, i, rfl⟩, decide ((verifyData s.coveredBytes s.claimedCrc s).1 = .pass), ?_⟩)
      show settleVerify (u.goto .verify) = _
      rw [hg, settleVerify_eq]
      rfl
  cases hp : s.phase with
  | awaitPayload =>
    by_cases hc : frameComplete s = true
    · have hs : settle s = settleDispatch (s.goto .dispatch) := by simp [settle, hp, hc]
      exact .inr (by simpa [hp] using hd (s.goto .dispatch) rfl (fun _ => rfl) (.inl ⟨hp, hc⟩) hs)
    · exact .inl ⟨by simp [settle, hp, hc], by simp [atChecks, hp, hc], by simp⟩
  | dispatch =>
    have hs : settle s = settleDispatch s := by simp [settle, hp]
    exact .inr (by simpa [hp] using hd s rfl (fun _ => rfl) (.inr hp) hs)
  | verify =>
    refine .inr (.inr (.inr ⟨.inl rfl, decide ((verifyData s.coveredBytes s.claimedCrc s).1 = .pass), ?_⟩))
    have hs : settle s = settleVerify s := by simp [settle, hp]
    rw [hs, settleVerify_eq]
  | bootLaunch => exact .inl ⟨by simp [settle, hp], by simp [atChecks, hp], by simp⟩
  | awaitLength => exact .inl ⟨by simp [settle, hp], by simp [atChecks, hp], by simp⟩
  | sendNack => exact .inl ⟨by simp [settle, hp], by simp [atChecks, hp], by simp⟩
  | sendAck b => exact .inl ⟨by simp [settle, hp], by simp [atChecks, hp], by simp⟩
  | act op pos => exact .inl ⟨by simp [settle, hp], by simp [atChecks, hp], by simp⟩
  | sendReply bytes => exact .inl ⟨by simp [settle, hp], by simp [atChecks, hp], by simp⟩
  | done => exact .inl ⟨by simp [settle, hp], by simp [atChecks, hp], by simp⟩
  | launched => exact .inl ⟨by simp [settle, hp], by simp [atChecks, hp], by simp⟩
  | faulted r => exact .inl ⟨by simp [settle, hp], by simp [atChecks, hp], by simp⟩

/-- The step that begins with the checks on a complete frame (40_dispatcher R131). -/
theorem step_atChecks {s : State} (h : atChecks s) :
    step s =
      match verdict s with
      | .malformed => answered s (sendNack (s.goto .sendNack))
      | .unknown op => .next (diagUnknown op (s.goto .dispatch))
      | .silent i => exec i (s.goto .dispatch)
      | .tooShort => answered s (sendNack (s.goto .sendNack))
      | .toVerify _ =>
        if (verifyData s.coveredBytes s.claimedCrc s).1 = .pass then answered s (sendAckByte (verified s true))
        else answered s (sendNack (verified s false)) := by
  obtain ⟨u, hv, hg, hs⟩ :
      ∃ u : State, verdict u = verdict s ∧ (∀ p, u.goto p = s.goto p) ∧ settle s = settleDispatch u := by
    rcases h with ⟨hp, hc⟩ | hp
    · exact ⟨s.goto .dispatch, rfl, fun _ => rfl, by simp [settle, hp, hc]⟩
    · exact ⟨s, rfl, fun _ => rfl, by simp [settle, hp]⟩
  have hve : settleVerify (s.goto .verify) =
      verified s (decide ((verifyData s.coveredBytes s.claimedCrc s).1 = .pass)) := by
    rw [settleVerify_eq]
    rfl
  unfold step
  simp only [hs, settleDispatch, hv]
  cases hvs : verdict s with
  | malformed => simp [hg]
  | unknown op => simp [hg, hvs]
  | silent i => simp [hg, hvs]
  | tooShort => simp [hg]
  | toVerify i =>
    simp only [hg, hve]
    by_cases hp : (verifyData s.coveredBytes s.claimedCrc s).1 = .pass <;> simp [hp, verified]

/-! ## `step` -/

/-- What one step can do, besides nothing while a port holds. -/
inductive StepCase (s : State) : State → Prop where
  | boot : s.phase = .bootLaunch → StepCase s (launchAt s.straps.appBase s)
  | receive {t} : s.phase = .awaitLength ∨ (s.phase = .awaitPayload ∧ frameComplete s = false) →
      receive s = some t → StepCase s t
  | unknown {op} : atChecks s → verdict s = .unknown op → StepCase s (diagUnknown op (s.goto .dispatch))
  | silent {i t} : atChecks s → verdict s = .silent i → exec i (s.goto .dispatch) = .next t → StepCase s t
  | nack {t} : s.phase = .sendNack → sendNack s = some t → StepCase s t
  | reject {t} : atChecks s → verdict s = .malformed ∨ verdict s = .tooShort →
      sendNack (s.goto .sendNack) = some t → StepCase s t
  | badCrc {t} : s.phase = .verify ∨ (atChecks s ∧ ∃ i, verdict s = .toVerify i) →
      sendNack (verified s false) = some t → StepCase s t
  | accept {t} : s.phase = .verify ∨ (atChecks s ∧ ∃ i, verdict s = .toVerify i) →
      sendAckByte (verified s true) = some t → StepCase s t
  | ackByte {t} : s.phase = .sendAck false → sendAckByte s = some t → StepCase s t
  | ackLen {i t} : s.phase = .sendAck true → s.fetch = .ok i → sendAckLen i.opcode s = some t → StepCase s t
  | act {i pos t} : s.phase = .act i.opcode pos → s.fetch = .ok i → exec i s = .next t → StepCase s t
  | reply {bytes t} : s.phase = .sendReply bytes → sendReply bytes s = some t → StepCase s t
  | done : s.phase = .done → StepCase s s.nextExchange

/-- What one step can do: nothing, while the port holds; or one of the cases of `StepCase`. -/
theorem step_next {s t : State} (h : step s = .next t) : t = s ∨ StepCase s t := by
  rcases settle_cases s with ⟨hs, hc, hv⟩ | ⟨hc, hr, hs⟩ | ⟨hc, hr, hs⟩ | ⟨hc, pass, hs⟩
  · simp only [step, hs] at h
    cases hp : s.phase with
    | bootLaunch => simp only [hp] at h; cases h; exact .inr (.boot hp)
    | awaitLength =>
      simp only [hp] at h
      rcases (answered_eq_next_iff _ _ _).mp h with ⟨-, rfl⟩ | h
      · exact .inl rfl
      · exact .inr (.receive (.inl hp) h)
    | awaitPayload =>
      simp only [hp] at h
      have hf : frameComplete s = false := by
        cases hf : frameComplete s with
        | false => rfl
        | true => exact absurd (.inl ⟨hp, hf⟩) hc
      rcases (answered_eq_next_iff _ _ _).mp h with ⟨-, rfl⟩ | h
      · exact .inl rfl
      · exact .inr (.receive (.inr ⟨hp, hf⟩) h)
    | dispatch => exact absurd (.inr hp) hc
    | verify => exact absurd hp hv
    | sendNack =>
      simp only [hp] at h
      rcases (answered_eq_next_iff _ _ _).mp h with ⟨-, rfl⟩ | h
      · exact .inl rfl
      · exact .inr (.nack hp h)
    | sendAck sent =>
      cases sent with
      | false =>
        simp only [hp] at h
        rcases (answered_eq_next_iff _ _ _).mp h with ⟨-, rfl⟩ | h
        · exact .inl rfl
        · exact .inr (.ackByte hp h)
      | true =>
        simp only [hp] at h
        split at h
        · next i hi =>
          rcases (answered_eq_next_iff _ _ _).mp h with ⟨-, rfl⟩ | h
          · exact .inl rfl
          · exact .inr (.ackLen hp hi h)
        · cases h
    | act op pos =>
      simp only [hp] at h
      split at h
      · next i hi =>
        split at h
        · next ho => exact .inr (.act (ho ▸ hp) hi h)
        · cases h
      · cases h
    | sendReply bytes =>
      simp only [hp] at h
      rcases (answered_eq_next_iff _ _ _).mp h with ⟨-, rfl⟩ | h
      · exact .inl rfl
      · exact .inr (.reply hp h)
    | done => simp only [hp] at h; cases h; exact .inr (.done hp)
    | launched => simp only [hp] at h; cases h
    | faulted r => simp only [hp] at h; cases h
  · simp only [step, hs, State.goto_phase] at h
    rcases (answered_eq_next_iff _ _ _).mp h with ⟨-, rfl⟩ | h
    · exact .inl rfl
    · exact .inr (.reject hc hr h)
  · simp only [step, hs, State.goto_phase, verdict_goto] at h
    rcases hr with ⟨op, hr⟩ | ⟨i, hr⟩
    · simp only [hr] at h
      cases h
      exact .inr (.unknown hc hr)
    · simp only [hr] at h
      exact .inr (.silent hc hr h)
  · cases pass with
    | false =>
      have hp : (verified s false).phase = .sendNack := rfl
      simp only [step, hs, hp] at h
      rcases (answered_eq_next_iff _ _ _).mp h with ⟨-, rfl⟩ | h
      · exact .inl rfl
      · exact .inr (.badCrc hc h)
    | true =>
      have hp : (verified s true).phase = .sendAck false := rfl
      simp only [step, hs, hp] at h
      rcases (answered_eq_next_iff _ _ _).mp h with ⟨-, rfl⟩ | h
      · exact .inl rfl
      · exact .inr (.accept hc h)

/-! ## Runs -/

/-- A run of `n + 1` steps is a step and a run of `n`. -/
theorem core_run_succ {n : Nat} {s t : State} (h : step s = .next t) :
    Sys2Proof.core.run (n + 1) s = Sys2Proof.core.run n t := by
  simp only [Host.Core.run]
  rw [show Sys2Proof.core.step s = .next t from h]

@[simp] theorem core_run_zero (s : State) : Sys2Proof.core.run 0 s = .next s := rfl

/-- A transmit port that always accepts. -/
theorem accepts_of_always {s : State} (h : s.env.tx = .always) : s.env.tx.accepts = true := by rw [h]; rfl

end Sys2Proof.Machine
end

