-- ==== Sys2Proof/Laws/Frame.lean ====
section
/-! SUPPORT. A frame placed in the buffer: what `State.withFrame` leaves there. -/

namespace Sys2Proof.Machine

theorem byteAt_of_length_le {f : List Byte} {i : Nat} (h : f.length ≤ i) : byteAt f i = 0 := by
  simp [byteAt, List.getD_eq_getElem?_getD, List.getElem?_eq_none h]

theorem FrameBuffer.toList_ofBytes (f : List Byte) :
    (FrameBuffer.ofBytes f).toList = (f ++ List.replicate Config.frameBuf 0).take Config.frameBuf := rfl

theorem byteAt_ofBytes {f : List Byte} (h : f.length ≤ Config.frameBuf) (i : Nat) :
    byteAt (FrameBuffer.ofBytes f).toList i = byteAt f i := by
  rw [FrameBuffer.toList_ofBytes]
  simp only [byteAt, List.getD_eq_getElem?_getD, List.getElem?_take]
  split
  · rw [List.getElem?_append]
    split
    · rfl
    · next hi =>
      rw [List.getElem?_eq_none (Nat.le_of_not_lt hi), List.getElem?_replicate]
      split <;> rfl
  · next hi => rw [List.getElem?_eq_none (by omega)]

/-- A frame whose first byte counts the bytes after it is received whole. -/
theorem frameBytes_withFrame (s : State) {f : List Byte} (h : f.length = (byteAt f 0).toNat + 1) :
    (s.withFrame f).frameBytes = f := by
  have hlt := (byteAt f 0).isLt
  show (FrameBuffer.ofBytes f).toList.take ((byteAt f 0).toNat + 1) = f
  rw [FrameBuffer.toList_ofBytes, List.take_take, ← h, Nat.min_eq_left (by show f.length ≤ 256; omega),
    List.take_left']
  rfl

/-- The frame registers after a whole frame is placed. -/
theorem frameInv_withFrame (s : State) {f : List Byte} (h : f.length = (byteAt f 0).toNat + 1) :
    byteAt (s.withFrame f).buf.toList 0 = (s.withFrame f).len ∧
      (s.withFrame f).rxcnt.toNat = 1 + (s.withFrame f).len.toNat ∧
      ∀ i, (s.withFrame f).rxcnt.toNat ≤ i → byteAt (s.withFrame f).buf.toList i = 0 := by
  have hlt := (byteAt f 0).isLt
  have hb : f.length ≤ Config.frameBuf := by show _ ≤ 256; omega
  have hr : (s.withFrame f).rxcnt.toNat = 1 + (byteAt f 0).toNat := by
    show (BitVec.ofNat 9 (1 + (byteAt f 0).toNat)).toNat = _
    rw [BitVec.toNat_ofNat]
    omega
  refine ⟨byteAt_ofBytes hb 0, hr, fun i hi => ?_⟩
  rw [hr] at hi
  rw [show byteAt (s.withFrame f).buf.toList i = byteAt f i from byteAt_ofBytes hb i]
  exact byteAt_of_length_le (by omega)

end Sys2Proof.Machine
end

