-- ==== Sys2Proof/Laws/PerInstr.lean ====
section
/-! SUPPORT. What holds of each command's encoding, one lemma per constructor. -/

namespace Sys2Proof.Laws.EncodedFrame

/-- The frame of a well-formed command: its second byte is the command's opcode; its length byte counts the bytes after it,
never fewer than 5; and a command that is acknowledged has a reply length, exactly where it is implemented. -/
def Statement (i : Instr) : Prop :=
  i.wellFormed = true →
    byteAt (encode i) 1 = i.opcode.byte ∧
    (encode i).length = (byteAt (encode i) 0).toNat + 1 ∧
    Config.minFrameLen ≤ (byteAt (encode i) 0).toNat ∧
    i.opcode.replyLen.isSome = i.opcode.implemented

/-- A command whose payload fits a frame. -/
theorem of_payload {i : Instr} (h : i.wellFormed = true → i.payload.length ≤ 250)
    (hr : i.opcode.replyLen.isSome = i.opcode.implemented) : Statement i := by
  intro hw
  have hl := h hw
  have hb : (byteAt (encode i) 0).toNat = 5 + i.payload.length := by
    rw [encode, frame_eq]
    simp only [byteAt, List.getD_cons_zero, BitVec.toNat_ofNat]
    omega
  refine ⟨by rw [encode, frame_eq]; rfl, ?_, ?_, hr⟩
  · rw [hb, encode, frame_length]
    omega
  · rw [hb]
    exact Nat.le_add_right _ _

theorem getHelp : Statement .getHelp := of_payload (fun _ => by decide) rfl

theorem getVersion : Statement .getVersion := of_payload (fun _ => by decide) rfl

theorem getId : Statement .getId := of_payload (fun _ => by decide) rfl

theorem readMemory : Statement .readMemory := of_payload (fun _ => by decide) rfl

theorem goToAddress (addr : Word) : Statement (.goToAddress addr) := of_payload (fun _ => by simp [Instr.payload]) rfl

theorem writeMemory (addr : Word) (data : List Byte) : Statement (.writeMemory addr data) :=
  of_payload (fun hw => by
    have hd : data.length ≤ 245 := of_decide_eq_true hw
    simp only [Instr.payload, List.length_append, List.length_cons, bytesLe32_length]
    omega) rfl

theorem erase (sector count : Byte) : Statement (.erase sector count) := of_payload (fun _ => by simp [Instr.payload]) rfl

theorem extendedErase : Statement .extendedErase := of_payload (fun _ => by decide) rfl

theorem special : Statement .special := of_payload (fun _ => by decide) rfl

theorem extendedSpecial : Statement .extendedSpecial := of_payload (fun _ => by decide) rfl

theorem writeProtect (sectorCount sectorCode : Byte) : Statement (.writeProtect sectorCount sectorCode) :=
  of_payload (fun _ => by simp [Instr.payload]) rfl

theorem writeUnprotect (sectorCount sectorCode : Byte) : Statement (.writeUnprotect sectorCount sectorCode) :=
  of_payload (fun _ => by simp [Instr.payload]) rfl

theorem readoutProtect : Statement .readoutProtect := of_payload (fun _ => by decide) rfl

theorem readoutUnprotect (level : Byte) : Statement (.readoutUnprotect level) :=
  of_payload (fun _ => by simp [Instr.payload]) rfl

theorem checksum : Statement .checksum := of_payload (fun _ => by decide) rfl

end Sys2Proof.Laws.EncodedFrame
end

