-- ==== Sys2Proof/Tests/Slice0.lean ====
section
/-! SUPPORT. Tests, with results from the spec's rules and vectors (95_test_vectors), and for each obligation with hypotheses
a witness that meets them together. -/

namespace Sys2Proof.Tests

-- One theorem after the other: each `decide +kernel` waits for those before it, and would hold a thread while it waits.
set_option Elab.async false

open Sys2Proof.Machine

/-! ## Well-formedness -/

theorem test_wellFormed_refuses_246_data_bytes :
    (Instr.writeMemory 0x20010000 (List.replicate 246 0)).wellFormed = false := by decide +kernel

theorem test_wellFormed_accepts_245_data_bytes :
    (Instr.writeMemory 0x20010000 (List.replicate 245 0)).wellFormed = true := by decide +kernel

/-! ## Decoding: frames written out from 30_encoding, most of them of 95_test_vectors -/

theorem test_decode_getHelp : decode [0x05, 0x00, 0x57, 0x5F, 0xFD, 0x00] = .ok (.getHelp, []) := by decide

theorem test_decode_getVersion : decode [0x05, 0x01, 0xE0, 0x42, 0x3C, 0x04] = .ok (.getVersion, []) := by decide

theorem test_decode_getVersion_padded :
    decode [0x07, 0x01, 0x00, 0x00, 0xDB, 0x11, 0xD2, 0x35] = .ok (.getVersion, []) := by decide

theorem test_decode_getId : decode [0x05, 0x02, 0x39, 0x64, 0x7F, 0x09] = .ok (.getId, []) := by decide

theorem test_decode_readMemory : decode [0x05, 0x11, 0x90, 0x99, 0x2D, 0x48] = .ok (.readMemory, []) := by decide

theorem test_decode_goToAddress :
    decode [0x09, 0x21, 0x00, 0x80, 0x00, 0x08, 0x67, 0x84, 0x4A, 0x09] = .ok (.goToAddress 0x08008000, []) := by decide

theorem test_decode_writeMemory :
    decode [0x0C, 0x31, 0x00, 0x00, 0x01, 0x20, 0x02, 0x11, 0x22, 0x26, 0xAC, 0x92, 0xC3] =
      .ok (.writeMemory 0x20010000 [0x11, 0x22], []) := by decide

theorem test_decode_erase : decode [0x07, 0x43, 0x06, 0x05, 0x26, 0x10, 0x2D, 0x11] = .ok (.erase 6 5, []) := by decide

theorem test_decode_extendedErase : decode [0x05, 0x44, 0xFC, 0x59, 0x7F, 0x27] = .ok (.extendedErase, []) := by decide

theorem test_decode_special : decode [0x05, 0x50, 0x50, 0xF4, 0x6A, 0x78] = .ok (.special, []) := by decide

theorem test_decode_extendedSpecial : decode [0x05, 0x51, 0xE7, 0xE9, 0xAB, 0x7C] = .ok (.extendedSpecial, []) := by
  decide

theorem test_decode_writeProtect :
    decode [0x07, 0x63, 0x02, 0x03, 0xAD, 0xE9, 0xD5, 0x1B] = .ok (.writeProtect 2 3, []) := by decide

theorem test_decode_writeUnprotect :
    decode [0x07, 0x73, 0x02, 0x01, 0x1E, 0xC9, 0x12, 0x0A] = .ok (.writeUnprotect 2 1, []) := by decide

theorem test_decode_readoutProtect : decode [0x05, 0x82, 0xD7, 0x84, 0x73, 0x60] = .ok (.readoutProtect, []) := by decide

theorem test_decode_readoutUnprotect :
    decode [0x06, 0x92, 0x02, 0xDF, 0x6E, 0xC3, 0x39] = .ok (.readoutUnprotect 2, []) := by decide

theorem test_decode_checksum : decode [0x05, 0xA1, 0xEE, 0x14, 0x13, 0xF5] = .ok (.checksum, []) := by decide

theorem test_decode_rejects_unknown_opcode :
    decode [0x05, 0x99, 0xC6, 0x94, 0x29, 0x07] = .error (.unknownOpcode 0x99) := by decide

theorem test_decode_rejects_short_erase : decode [0x06, 0x43, 0x02, 0x01, 0x00, 0x00, 0x00] = .error .tooShort := by decide

theorem test_decode_rejects_short_write :
    decode [0x0A, 0x31, 0x00, 0x80, 0x00, 0x08, 0x05, 0x4F, 0xB5, 0x92, 0x00] = .error .tooShort := by decide

theorem test_decode_rejects_malformed : decode [0x04, 0x01, 0x00, 0x00, 0x00] = .error .malformed := by decide

theorem test_decode_rejects_incomplete : decode [0x05, 0x01] = .error .incomplete := by decide

/-! ## Encoding: the frames of 95_test_vectors, trailer included -/

theorem test_encode_getVersion : encode .getVersion = [0x05, 0x01, 0xE0, 0x42, 0x3C, 0x04] := by decide +kernel

theorem test_encode_writeMemory :
    encode (.writeMemory 0x20010000 [0x11, 0x22]) =
      [0x0C, 0x31, 0x00, 0x00, 0x01, 0x20, 0x02, 0x11, 0x22, 0x26, 0xAC, 0x92, 0xC3] := by decide +kernel

theorem test_padFrame : padFrame 2 .getVersion = [0x07, 0x01, 0x00, 0x00, 0xDB, 0x11, 0xD2, 0x35] := by decide +kernel

theorem test_badCrcFrame : badCrcFrame 0x01 [] = [0x05, 0x01, 0xE1, 0x42, 0x3C, 0x04] := by decide +kernel

/-- Bits 7..0 of the row are the opcode, bits 39..8 the address. -/
theorem test_decodeTableWord_goToAddress :
    decodeTableWord 40 0x0800800021 = some (.goToAddress 0x08008000) := by decide +kernel

theorem test_decodeTableWord_short_row : decodeTableWord 8 0x43 = some (.erase 0 0) := by decide +kernel

theorem test_decodeTableWord_writeMemory :
    decodeTableWord 56 0xAB012001000031 = some (.writeMemory 0x20010000 [0xAB]) := by decide +kernel

/-! ## CRC (V-CRC) -/

theorem test_crcStep_zero : crcStep 0xFFFFFFFF 0x00000000 = 0xC704DD7B := by decide +kernel

theorem test_crcStep_word : crcStep 0xFFFFFFFF 0x12345678 = 0xDF8A8A2B := by decide +kernel

theorem test_crc_two_bytes : crc [0x05, 0x01] = 0x043C42E0 := by decide +kernel

theorem test_crc_digits : crc [0x31, 0x32, 0x33, 0x34, 0x35, 0x36, 0x37, 0x38, 0x39] = 0x1556F485 := by decide +kernel

theorem test_crc_digits_byteAsByte :
    crcWith .byteAsByte [0x31, 0x32, 0x33, 0x34, 0x35, 0x36, 0x37, 0x38, 0x39] = 0x0376E6E7 := by decide +kernel

/-! ## Small states -/

/-- Reset with the identity word of 95_test_vectors, ports that answer well, and nothing to receive. -/
def good : State :=
  { State.reset with
    straps := { idcode := 0x10016449, appBase := 0x08008000, nackOnRxFail := true }
    env := { Env.quiet with
      flash := List.replicate 12 (some .ok), erase := [some ⟨.ok, 0xFFFFFFFF⟩], opt := List.replicate 4 (some .ok) } }

/-- A frame at the point where its command is run next. -/
def acting (f : List Byte) : State := good.withFrame f

/-- A frame received whole, before its checks. -/
def received (f : List Byte) : State := { good.withFrame f with phase := .awaitPayload }

/-- The same at a position inside the recipe. -/
def inside (f : List Byte) (op : Opcode) (pos : ActPos) : State := { good.withFrame f with phase := .act op pos }

/-- One fact about the next state. -/
def nextIs (o : Outcome) (p : State → Bool) : Bool :=
  match o with
  | .next t => p t
  | .fault _ => false
  | .refused _ => false

theorem exists_next {o : Outcome} {p : State → Bool} (h : nextIs o p = true) : ∃ t, o = .next t ∧ p t = true := by
  cases o with
  | next t => exact ⟨t, rfl, h⟩
  | fault r => exact Bool.noConfusion h
  | refused r => exact Bool.noConfusion h

/-- The bytes a step sent. -/
def sends (o : Outcome) (bytes : List Byte) : Bool := nextIs o fun t => decide (sentBytes t.trace = bytes)

def fGetHelp : List Byte := [0x05, 0x00, 0x57, 0x5F, 0xFD, 0x00]
def fGetVersion : List Byte := [0x05, 0x01, 0xE0, 0x42, 0x3C, 0x04]
def fGetId : List Byte := [0x05, 0x02, 0x39, 0x64, 0x7F, 0x09]
def fGo : List Byte := [0x09, 0x21, 0x00, 0x80, 0x00, 0x08, 0x67, 0x84, 0x4A, 0x09]
def fGoMisaligned : List Byte := [0x09, 0x21, 0x02, 0x80, 0x00, 0x08, 0xDA, 0x35, 0xC3, 0xDC]
def fGoEdge : List Byte := [0x09, 0x21, 0xFC, 0xFF, 0x0F, 0x08, 0x0B, 0x14, 0x44, 0xFB]
def fWrite : List Byte := [0x0C, 0x31, 0x00, 0x00, 0x01, 0x20, 0x02, 0x11, 0x22, 0x26, 0xAC, 0x92, 0xC3]
def fErase : List Byte := [0x07, 0x43, 0x06, 0x05, 0x26, 0x10, 0x2D, 0x11]
def fProtect : List Byte := [0x07, 0x63, 0x02, 0x03, 0xAD, 0xE9, 0xD5, 0x1B]
def fUnprotect : List Byte := [0x07, 0x73, 0x02, 0x01, 0x1E, 0xC9, 0x12, 0x0A]
def fReadoutProtect : List Byte := [0x05, 0x82, 0xD7, 0x84, 0x73, 0x60]
def fReadoutUnprotect (level : Byte) (c0 c1 c2 c3 : Byte) : List Byte := [0x06, 0x92, level, c0, c1, c2, c3]
def fLevel0 : List Byte := fReadoutUnprotect 0 0xB1 0x55 0x41 0x30
def fLevel1 : List Byte := fReadoutUnprotect 1 0x06 0x48 0x80 0x34
def fLevel2 : List Byte := fReadoutUnprotect 2 0xDF 0x6E 0xC3 0x39
def fReadMemory : List Byte := [0x05, 0x11, 0x90, 0x99, 0x2D, 0x48]

/-! ## One step of each command -/

theorem test_getHelp_first_byte : sends (exec .getHelp (acting fGetHelp)) [0xC8] = true := by decide +kernel

theorem test_getHelp_then :
    nextIs (exec .getHelp (acting fGetHelp)) (fun t => decide (t.phase = .sendReply
      [0x01, 0x00, 0x00, 0x00, 0x01, 0x02, 0x11, 0x21, 0x31, 0x43, 0x44, 0x50, 0x51, 0x63, 0x73, 0x82, 0x92, 0xA1])) =
      true := by decide +kernel

theorem test_getVersion :
    nextIs (exec .getVersion (acting fGetVersion)) (fun t => decide (t.phase = .sendReply [0x01, 0x00, 0x00])) = true := by
  decide +kernel

theorem test_getId :
    nextIs (exec .getId (acting fGetId))
      (fun t => decide (t.phase = .sendReply [0x49, 0x04] ∧ t.trace = [.id 0x10016449])) = true := by decide +kernel

theorem test_getId_high_nibble : idBytes 0xFFFFFFFF = [0xFF, 0x0F] := by decide

theorem test_goToAddress_invalid : sends (exec (.goToAddress 0x30000000) (acting fGo)) [0x01] = true := by decide +kernel

theorem test_goToAddress_launch :
    nextIs (exec (.goToAddress 0x08008000)
        { inside fGo .goToAddress .launch with
          mem := [(0x08008000, 0x00), (0x08008001, 0x00), (0x08008002, 0x05), (0x08008003, 0x20),
            (0x08008004, 0x99), (0x08008005, 0x81), (0x08008006, 0x00), (0x08008007, 0x08)] })
      (fun t => decide (t.phase = .launched ∧ t.trace = [.launch 0x20050000 0x08008199])) = true := by decide +kernel

theorem test_writeMemory_program :
    nextIs (exec (.writeMemory 0x20010000 [0x11, 0x22]) (inside fWrite .writeMemory (.program 1)))
      (fun t => decide (t.mem.byte 0x20010001 = some 0x22 ∧ t.mem.byte 0x20010000 = none ∧
        t.phase = .act .writeMemory (.program 2))) = true := by decide +kernel

theorem test_writeMemory_protected :
    nextIs (exec (.writeMemory 0x08000000 [0x00])
        { inside fWrite .writeMemory (.program 0) with opt := { rdp := 0xAA, wrp := 1 } })
      (fun t => decide (t.mem.byte 0x08000000 = some 0xFF ∧ t.phase = .act .writeMemory (.writeLock .fail))) = true := by
  decide +kernel

theorem test_erase_sectors :
    nextIs (exec (.erase 6 5)
        { inside fErase .erase .eraseCall with mem := [(0x0807FFFF, 0x01), (0x08080000, 0x02), (0x080FFFFF, 0x03)] })
      (fun t => decide (t.mem = [(0x0807FFFF, 0x01)] ∧ t.phase = .act .erase (.eraseLock .pass))) = true := by
  decide +kernel

theorem test_erase_count_above_maximum : sends (exec (.erase 0xFF 200) (acting fErase)) [0x02] = true := by decide +kernel

theorem test_writeProtect_program :
    nextIs (exec (.writeProtect 2 3) (inside fProtect .writeProtect .optProgram))
      (fun t => decide (t.optStaged = { rdp := 0xAA, wrp := 0x03 } ∧ t.opt = { rdp := 0xAA, wrp := 0 })) = true := by
  decide +kernel

theorem test_writeProtect_count_9 : sends (exec (.writeProtect 9 1) (acting fProtect)) [0x02] = true := by decide +kernel

theorem test_writeUnprotect_program :
    nextIs (exec (.writeUnprotect 2 1)
        { inside fUnprotect .writeUnprotect .optProgram with optStaged := { rdp := 0xAA, wrp := 0x03 } })
      (fun t => decide (t.optStaged.wrp = 0x02)) = true := by decide +kernel

theorem test_readoutProtect_program :
    nextIs (exec .readoutProtect (inside fReadoutProtect .readoutProtect .optProgram))
      (fun t => decide (t.optStaged.rdp = 0x55)) = true := by decide +kernel

theorem test_readoutProtect_gate :
    sends (exec .readoutProtect { acting fReadoutProtect with opt := { rdp := 0x12, wrp := 0 } }) [0x02] = true := by
  decide +kernel

theorem test_readoutUnprotect_commit :
    nextIs (exec (.readoutUnprotect 2)
        { inside fLevel2 .readoutUnprotect .optLaunch with
          opt := { rdp := 0x55, wrp := 0 }, optStaged := { rdp := 0xCC, wrp := 0 } })
      (fun t => decide (t.opt.rdp = 0xCC)) = true := by decide +kernel

theorem test_readoutUnprotect_level_3 : sends (exec (.readoutUnprotect 3) (acting fLevel2)) [0x02] = true := by
  decide +kernel

theorem test_readMemory_silent :
    nextIs (step (received fReadMemory)) (fun t => decide (t.phase = .done ∧ t.trace = [])) = true := by decide +kernel

theorem test_extendedErase_silent :
    nextIs (step (received [0x05, 0x44, 0x00, 0x00, 0x00, 0x00])) (fun t => decide (t.phase = .done ∧ t.trace = [])) =
      true := by decide +kernel

theorem test_special_silent :
    nextIs (step (received [0x05, 0x50, 0x50, 0xF4, 0x6A, 0x78])) (fun t => decide (t.phase = .done ∧ t.trace = [])) =
      true := by decide +kernel

theorem test_extendedSpecial_silent :
    nextIs (step (received [0x05, 0x51, 0xE7, 0xE9, 0xAB, 0x7C])) (fun t => decide (t.phase = .done ∧ t.trace = [])) =
      true := by decide +kernel

theorem test_checksum_silent :
    nextIs (step (received [0x05, 0xA1, 0xEE, 0x14, 0x13, 0xF5])) (fun t => decide (t.phase = .done ∧ t.trace = [])) =
      true := by decide +kernel

/-! ## One step of the dispatcher -/

theorem test_good_crc_is_acknowledged :
    nextIs (step (received fGetVersion)) (fun t => decide (t.trace = [.tx 0x79] ∧ t.crcAcc = 0xFFFFFFFF)) = true := by
  decide +kernel

theorem test_bad_crc_is_rejected : sends (step (received [0x05, 0x01, 0xE1, 0x42, 0x3C, 0x04])) [0x1F] = true := by
  decide +kernel

theorem test_unknown_opcode_is_recorded :
    nextIs (step (received [0x05, 0x99, 0x00, 0x00, 0x00, 0x00]))
      (fun t => decide (t.phase = .sendNack ∧ t.trace = [.diag (.unknownCommand 0x99)])) = true := by decide +kernel

/-! ## The host's entry points -/

theorem test_withFetchWord_runs_getVersion :
    step (State.reset.withFetchWord 8 0x01) = exec .getVersion (State.reset.withFetchWord 8 0x01) := by rfl

theorem test_withFetchWord_runs_checksum :
    nextIs (step (State.reset.withFetchWord 8 0xA1)) (fun t => decide (t.phase = .done)) = true := by decide +kernel

theorem test_classify_bounds :
    classify 0x07FFFFFF = .invalid ∧ classify 0x08000000 = .valid ∧ classify 0x080FFFFF = .valid ∧
    classify 0x08100000 = .invalid ∧ classify 0x2000FFFF = .invalid ∧ classify 0x20010000 = .valid ∧
    classify 0x2004BFFF = .valid ∧ classify 0x2004C000 = .valid ∧ classify 0x2004FFFF = .valid ∧
    classify 0x20050000 = .invalid := by decide

/-! ## Witnesses: states and operands that meet the hypotheses of each obligation together -/

theorem witness_DecodeOfEncodedCommandGivesItBack :
    ((Instr.writeMemory 0x20010000 (List.replicate 245 0)).wellFormed = true ∧
      (Instr.writeMemory 0x20010000 (List.replicate 245 0)).payload.length + ([] : List Byte).length ≤ 250) ∧
    ((Instr.erase 6 5).wellFormed = true ∧
      (Instr.erase 6 5).payload.length + (List.replicate 248 (0 : Byte)).length ≤ 250) := by decide +kernel

theorem witness_VerifyDetectsEverySingleBitFlip :
    good.crcAcc = Config.crcInit ∧ (verifyData [0x05, 0x01] 0x043C42E0 good).1 = .pass ∧
    1 < [(0x05 : Byte), 0x01].length ∧ 7 < 8 ∧ 31 < 32 := by decide +kernel

/-- `good` with the receive port's answers. -/
def hears (answers : List RxAnswer) (s : State) : State := { s with env := { s.env with rx := answers } }

theorem witness_LengthByteIsReceived :
    ((hears [.byte 0x05] good).phase = .awaitLength ∧ (hears [.byte 0x05] good).env.rx = .byte 0x05 :: []) ∧
    ((hears [.rxFail] good).phase = .awaitLength ∧ (hears [.rxFail] good).env.rx = .rxFail :: []) ∧
    ((hears [] good).phase = .awaitLength ∧ (hears [] good).env.rx = []) := by decide

/-- A frame of 256 bytes of which `n` are in. -/
def receiving (n : BitVec 9) (answers : List RxAnswer) : State :=
  { hears answers good with phase := .awaitPayload, len := 0xFF, rxcnt := n }

theorem witness_PayloadBytesAreReceived :
    ((receiving 255 [.byte 0x01]).phase = .awaitPayload ∧
      (receiving 255 [.byte 0x01]).rxcnt.toNat < 1 + (receiving 255 [.byte 0x01]).len.toNat ∧
      (receiving 255 [.byte 0x01]).env.rx = .byte 0x01 :: []) ∧
    ((receiving 255 [.rxFail]).rxcnt.toNat < 1 + (receiving 255 [.rxFail]).len.toNat ∧
      (receiving 255 [.rxFail]).env.rx = .rxFail :: []) ∧
    ((receiving 1 []).rxcnt.toNat < 1 + (receiving 1 []).len.toNat ∧ (receiving 1 []).env.rx = []) := by decide

theorem witness_PayloadBytesAreReceived_complete :
    (received fGetVersion).phase = .awaitPayload ∧
    1 + (received fGetVersion).len.toNat ≤ (received fGetVersion).rxcnt.toNat ∧
    ∃ t, step (received fGetVersion) = .next t ∧ decide (t.phase = .sendAck true) = true :=
  ⟨rfl, by decide +kernel, exists_next (by decide +kernel)⟩

/-- The conditions of `State.frameReceived`, checked. -/
def receivedOk (s : State) : Bool :=
  decide (s.phase = .awaitPayload) && frameComplete s && decide (byteAt s.frameBytes 0 = s.len) &&
    decide (s.crcAcc = Config.crcInit)

theorem frameReceived_of_ok {s : State} (h : receivedOk s = true) : s.frameReceived := by
  simpa [receivedOk, State.frameReceived, and_assoc] using h

def fMalformed : List Byte := [0x04, 0x01, 0x00, 0x00, 0x00]
def fUnknown : List Byte := [0x05, 0x99, 0xC6, 0x94, 0x29, 0x07]
def fShort : List Byte := [0x06, 0x43, 0x02, 0x01, 0x00, 0x00, 0x00]
def fBadCrc : List Byte := [0x05, 0x01, 0xE1, 0x42, 0x3C, 0x04]

theorem witness_FrameChecksComeInOrder_malformed :
    (received fMalformed).frameReceived ∧ (received fMalformed).env.tx.accepts = true ∧
    (received fMalformed).len.toNat < 5 := ⟨frameReceived_of_ok (by decide +kernel), by decide, by decide⟩

theorem witness_FrameChecksComeInOrder_unknown :
    (received fUnknown).frameReceived ∧ (received fUnknown).env.tx.accepts = true ∧ 5 ≤ (received fUnknown).len.toNat ∧
    Opcode.ofByte (byteAt (received fUnknown).frameBytes 1) = none :=
  ⟨frameReceived_of_ok (by decide +kernel), by decide, by decide, by decide +kernel⟩

theorem witness_FrameChecksComeInOrder_unimplemented :
    (received fReadMemory).frameReceived ∧ (received fReadMemory).env.tx.accepts = true ∧
    5 ≤ (received fReadMemory).len.toNat ∧
    Opcode.ofByte (byteAt (received fReadMemory).frameBytes 1) = some .readMemory ∧
    Opcode.readMemory.implemented = false :=
  ⟨frameReceived_of_ok (by decide +kernel), by decide, by decide, by decide +kernel, by decide⟩

theorem witness_FrameChecksComeInOrder_short :
    (received fShort).frameReceived ∧ (received fShort).env.tx.accepts = true ∧ 5 ≤ (received fShort).len.toNat ∧
    Opcode.ofByte (byteAt (received fShort).frameBytes 1) = some .erase ∧ Opcode.erase.implemented = true ∧
    minLenOk Opcode.erase.format (received fShort).len.toNat (received fShort).frameBytes = false :=
  ⟨frameReceived_of_ok (by decide +kernel), by decide, by decide, by decide +kernel, by decide, by decide +kernel⟩

theorem witness_FrameChecksComeInOrder_crc :
    (received fGetVersion).frameReceived ∧ (received fBadCrc).frameReceived ∧
    (received fGetVersion).env.tx.accepts = true ∧ 5 ≤ (received fGetVersion).len.toNat ∧
    Opcode.ofByte (byteAt (received fGetVersion).frameBytes 1) = some .getVersion ∧
    Opcode.ofByte (byteAt (received fBadCrc).frameBytes 1) = some .getVersion ∧ Opcode.getVersion.implemented = true ∧
    minLenOk Opcode.getVersion.format 5 (received fGetVersion).frameBytes = true ∧
    crc ((received fGetVersion).frameBytes.take 2) = wordAt (received fGetVersion).frameBytes 2 ∧
    crc ((received fBadCrc).frameBytes.take 2) ≠ wordAt (received fBadCrc).frameBytes 2 :=
  ⟨frameReceived_of_ok (by decide +kernel), frameReceived_of_ok (by decide +kernel), by decide +kernel⟩

/-- `good`, or a frame in place, at a phase. -/
def at_ (p : Phase) (s : State) : State := { s with phase := p }

theorem witness_NackAndAckAreSent :
    (at_ .sendNack good).env.tx.accepts = true ∧ (at_ .sendNack good).phase = .sendNack ∧
    (at_ (.sendAck false) good).phase = .sendAck false ∧
    (at_ (.sendAck true) (acting fGetVersion)).phase = .sendAck true ∧
    (at_ (.sendAck true) (acting fGetVersion)).fetch = .ok .getVersion ∧ Instr.getVersion.opcode.replyLen = some 4 ∧
    Instr.readoutProtect.opcode = .readoutProtect ∧ Instr.checksum.opcode = .checksum :=
  ⟨rfl, rfl, rfl, rfl, rfl, rfl, rfl, rfl⟩

theorem witness_ReplyIsSentByteByByte :
    (at_ (.sendReply [0x01, 0x02]) good).phase = .sendReply [0x01, 0x02] ∧ [(0x01 : Byte), 0x02] ≠ [] ∧
    (at_ (.sendReply [0x01, 0x02]) good).env.tx = .always := by decide

theorem witness_DoneClearsTheFrame : (at_ .done good).phase = .done := by decide

theorem witness_VerificationsDoNotCombine :
    good.crcAcc = Config.crcInit ∧ (received fErase).crcAcc = Config.crcInit := by decide

/-- `s` with the option values `rdp` and `wrp` committed, and `staged` staged. -/
def options (rdp wrp : Byte) (staged : OptConfig) (s : State) : State :=
  { s with opt := { rdp := rdp, wrp := wrp }, optStaged := staged }

/-- `s` while its transmit port holds, its flash answers never come, and its option answers never come. -/
def held (s : State) : State :=
  { s with env := { s.env with tx := .upTo 0, flash := [none], erase := [none], opt := [none] } }

theorem witness_HeldPortMakesNoStep_ports :
    (held good).env.tx.accepts = false ∧ (held good).env.flashAnswer = none ∧ (held good).env.eraseAnswer = none ∧
    (held good).env.optAnswer = none := by decide

theorem witness_HeldPortMakesNoStep_phases :
    (held (at_ .sendNack good)).phase = .sendNack ∧ (held (at_ (.sendAck false) good)).phase = .sendAck false ∧
    (held (at_ (.sendAck true) (acting fGetVersion))).phase = .sendAck true ∧
    (held (at_ (.sendAck true) (acting fGetVersion))).fetch = .ok .getVersion ∧
    (held (at_ (.sendReply [0x00]) good)).phase = .sendReply (0x00 :: []) ∧ (held (acting fGo)).pos ≠ .launch :=
  ⟨rfl, rfl, rfl, rfl, rfl, by decide⟩

theorem witness_HeldPortMakesNoStep_receive :
    ((hears [] good).env.rx = [] ∧ (hears [] good).phase = .awaitLength) ∧
    ((receiving 255 []).env.rx = [] ∧ (receiving 255 []).phase = .awaitPayload ∧
      frameComplete (receiving 255 []) = false) := by decide

/-- A malformed frame, an acknowledged one and one with a wrong CRC, each held at the byte its checks send. -/
theorem witness_HeldPortMakesNoStep_checks :
    ((held (received fMalformed)).frameReceived ∧ (held (received fMalformed)).len.toNat < 5) ∧
    ((held (received fGetVersion)).frameReceived ∧
      Opcode.ofByte (byteAt (held (received fGetVersion)).frameBytes 1) = some .getVersion ∧
      Opcode.getVersion.implemented = true) ∧
    ((held (received fBadCrc)).frameReceived ∧
      Opcode.ofByte (byteAt (held (received fBadCrc)).frameBytes 1) = some .getVersion) :=
  ⟨⟨frameReceived_of_ok (by decide +kernel), by decide⟩, ⟨frameReceived_of_ok (by decide +kernel), by decide, by decide⟩,
    ⟨frameReceived_of_ok (by decide +kernel), by decide⟩⟩

/-- A command turned away on each of its grounds, with the transmit port held. -/
theorem witness_HeldPortMakesNoStep_rejected :
    (held (acting fWrite)).pos.inWrite = false ∧ classify 0x30000000 = .invalid ∧ eraseRequest 0x08 0x01 = none ∧
    eraseRequest 0xFF 0x09 = none ∧ 8 < (0x09 : Byte).toNat ∧ 2 < (0x03 : Byte).toNat ∧
    rdpRequest .readoutProtect = some .level1 ∧
    gateRefuses (held (options 0xCC 0x00 ⟨0xCC, 0x00⟩ (acting fReadoutProtect))) .level1 = true ∧
    (held (options 0xCC 0x00 ⟨0xCC, 0x00⟩ (acting fReadoutProtect))).pos.inChain = false := by decide

theorem witness_HeldPortMakesNoStep_commands :
    classify 0x20010000 = .valid ∧ (eraseRequest 6 5).isSome = true ∧ (held (acting fErase)).pos ≠ .eraseCall ∧
    (held (inside fErase .erase .eraseCall)).pos = .eraseCall ∧
    (held (inside fWrite .writeMemory (.program 1))).pos.inWrite = true ∧
    (held (inside fReadoutProtect .readoutProtect .optLaunch)).pos.inChain = true ∧ chainCfg .readoutProtect = some (.rdp 0x55) ∧
    rdpRequest .readoutProtect = some .level1 ∧ gateRefuses (held (acting fReadoutProtect)) .level1 = false := by
  decide

theorem witness_ExchangesNeverOverlap :
    (∃ t, step (at_ .done good) = .next t ∧ (at_ .done good).phase ≠ .awaitLength ∧
      (at_ .done good).phase ≠ .awaitPayload ∧ t.phase = .awaitLength) ∧
    (∃ t, step (hears [.byte 0x05] good) = .next t ∧ (hears [.byte 0x05] good).phase = .awaitLength) :=
  ⟨⟨_, rfl, by decide, by decide, rfl⟩, ⟨_, rfl, rfl⟩⟩

/-- What `State.Inv` asks beyond the frame registers, checked, for a state without a chain in progress. -/
theorem inv_of_frame {f : List Byte} (hf : f.length = (byteAt f 0).toNat + 1) {p : Phase} {i : Instr}
    (hi : (good.withFrame f).fetch = .ok i) (himp : i.opcode.implemented = true)
    (hp : (∃ pos, p = .act i.opcode pos ∧ posBelongs i pos = true ∧ (pos = .start ∨ pos = .launch)) ∨
      (∃ b rest, p = .sendReply (b :: rest)) ∨ p = .awaitPayload ∨ p = .sendNack ∨ p = .done) :
    (at_ p (good.withFrame f)).Inv := by
  obtain ⟨h0, hr, hz⟩ := frameInv_withFrame good hf
  have hc : frameComplete (good.withFrame f) = true := by simp [frameComplete, hr]
  have hr0 : (good.withFrame f).rxcnt ≠ 0 := fun h => by rw [h] at hr; simp at hr; omega
  have fr : ∀ q : Prop, q → byteAt (at_ p (good.withFrame f)).buf.toList 0 = (at_ p (good.withFrame f)).len ∧
      (at_ p (good.withFrame f)).rxcnt.toNat ≤ 1 + (at_ p (good.withFrame f)).len.toNat ∧
      (∀ i, (at_ p (good.withFrame f)).rxcnt.toNat ≤ i → byteAt (at_ p (good.withFrame f)).buf.toList i = 0) ∧ q :=
    fun q hq => ⟨h0, hr.le, hz, hq⟩
  rcases hp with ⟨pos, rfl, hb, rfl | rfl⟩ | ⟨b, rest, rfl⟩ | rfl | rfl | rfl
  · exact ⟨rfl, rfl, fr _ hc, ⟨i, hi, himp, rfl, hb⟩, trivial, ⟨fun h => h, trivial⟩, rfl⟩
  · exact ⟨rfl, rfl, fr _ hc, ⟨i, hi, himp, rfl, hb⟩, trivial, ⟨fun h => h, trivial⟩, rfl⟩
  · exact ⟨rfl, rfl, fr _ hc, ⟨List.cons_ne_nil _ _, i, hi, himp⟩, trivial, ⟨fun h => h, trivial⟩, rfl⟩
  · exact ⟨rfl, rfl, fr _ hr0, trivial, trivial, ⟨fun h => h, trivial⟩, rfl⟩
  · exact ⟨rfl, rfl, fr _ trivial, trivial, trivial, ⟨fun h => h, trivial⟩, rfl⟩
  · exact ⟨rfl, rfl, fr _ trivial, trivial, trivial, ⟨fun h => h, trivial⟩, rfl⟩

theorem readMemory_inv : (received fReadMemory).Inv := by
  obtain ⟨h0, hr, hz⟩ := frameInv_withFrame good (f := fReadMemory) (by decide)
  exact ⟨rfl, rfl, ⟨h0, hr.le, hz, show (received fReadMemory).rxcnt ≠ 0 by decide +kernel⟩, trivial, trivial,
    ⟨fun h => h, trivial⟩, rfl⟩

theorem witness_EveryExchangeEndsWithOneOutcome_silent :
    (received fReadMemory).Inv ∧ ∃ t, step (received fReadMemory) = .next t ∧ decide (t.phase = .done) = true :=
  ⟨readMemory_inv, exists_next (by decide +kernel)⟩

/-- One outcome each: nack, acked, launched. -/
theorem witness_EveryExchangeEndsWithOneOutcome :
    ((at_ .sendNack (good.withFrame fGetVersion)).Inv ∧
      ∃ t, step (at_ .sendNack (good.withFrame fGetVersion)) = .next t ∧ decide (t.phase = .done) = true) ∧
    ((at_ (.sendReply [0x00]) (good.withFrame fGetVersion)).Inv ∧
      ∃ t, step (at_ (.sendReply [0x00]) (good.withFrame fGetVersion)) = .next t ∧ decide (t.phase = .done) = true) ∧
    ((at_ (.act .goToAddress .launch) (good.withFrame fGo)).Inv ∧
      ∃ t, step (at_ (.act .goToAddress .launch) (good.withFrame fGo)) = .next t ∧
        decide (t.phase = .launched) = true) :=
  ⟨⟨inv_of_frame (by decide) (i := .getVersion) rfl rfl (.inr (.inr (.inr (.inl rfl)))), exists_next (by decide +kernel)⟩,
   ⟨inv_of_frame (by decide) (i := .getVersion) rfl rfl (.inr (.inl ⟨_, _, rfl⟩)), exists_next (by decide +kernel)⟩,
   ⟨inv_of_frame (by decide) (i := .goToAddress 0x08008000) rfl rfl
      (.inl ⟨.launch, rfl, by decide, .inr rfl⟩), exists_next (by decide +kernel)⟩⟩

theorem reset_inv : State.reset.Inv :=
  ⟨rfl, rfl, ⟨byteAt_zero 0, by decide, fun i _ => byteAt_zero i, rfl⟩, trivial, trivial, ⟨fun h => h, trivial⟩, rfl⟩

theorem witness_StepKeepsTheInvariant :
    (at_ (.act .goToAddress .start) (good.withFrame fGo)).Inv ∧
    ∃ t, step (at_ (.act .goToAddress .start) (good.withFrame fGo)) = .next t ∧
      decide (t.phase = .act .goToAddress .launch) = true :=
  ⟨inv_of_frame (by decide) (i := .goToAddress 0x08008000) rfl rfl (.inl ⟨.start, rfl, by decide, .inl rfl⟩),
   exists_next (by decide +kernel)⟩

theorem witness_LaunchReadsEntryRegion :
    (0x08008002 : Word).toNat % 4 ≠ 0 ∧
    ((0x080FFFFC : Word).toNat % 4 = 0 ∧ good.mem.byte (0x080FFFFC + BitVec.ofNat 32 4) = none) ∧
    ((0x20010000 : Word).toNat % 4 = 0 ∧ good.mem.byte (0x20010000 + BitVec.ofNat 32 0) = none) ∧
    ((0x080FFFF8 : Word).toNat % 4 = 0 ∧
      ∀ k : Nat, k < 8 → good.mem.byte (0x080FFFF8 + BitVec.ofNat 32 k) = some ((fun _ => 0xFF : Nat → Byte) k)) ∧
    classify 0x08100000 = .invalid := by decide +kernel

theorem witness_FinalStatesHaveNoStep :
    (at_ .launched good).phase = .launched ∧
    (at_ (.faulted (.launchRead 0x20010000)) good).phase = .faulted (.launchRead 0x20010000) := by decide

/-- `s` with these flash, erase and option answers to come. -/
def answers (flash : List (Option PortResult)) (erase : List (Option EraseAnswer)) (opt : List (Option PortResult))
    (s : State) : State :=
  { s with env := { s.env with flash := flash, erase := erase, opt := opt } }

theorem witness_ProgramByteEffect :
    (∃ t, flashProgramByte 0x08007FFF 0x12 (options 0xAA 0x01 ⟨0xAA, 0x01⟩ good) = some (.fail, t)) ∧
    protectedByte 0x01 (0x08007FFF : Word).toNat = true ∧
    (∃ t, flashProgramByte 0x08008000 0x12 good = some (.ok, t)) ∧
    (∃ t, flashProgramByte 0x08008000 0x12 (answers [some .fail] [] [] good) = some (.fail, t)) ∧
    protectedByte good.opt.wrp (0x08008000 : Word).toNat = false ∧
    Config.flash.contains (0x08008000 : Word).toNat = true ∧ good.mem.byte 0x08008000 = some 0xFF ∧
    (∃ t, flashProgramByte 0x2004FFFF 0x12 good = some (.ok, t)) ∧ Config.ramB.contains (0x2004FFFF : Word).toNat = true ∧
    (∃ t, flashProgramByte 0x2004BFFF 0x12 (answers [some .fail] [] [] good) = some (.fail, t)) ∧
    Config.ramA.contains (0x2004BFFF : Word).toNat = true ∧
    (∃ t, flashProgramByte 0x20050000 0x12 good = some (.ok, t)) ∧ classify 0x20050000 = .invalid ∧
    good.env.flashAnswer = some .ok :=
  ⟨⟨_, rfl⟩, by decide, ⟨_, rfl⟩, ⟨_, rfl⟩, by decide, by decide, by decide, ⟨_, rfl⟩, by decide, ⟨_, rfl⟩, by decide,
    ⟨_, rfl⟩, by decide, by decide⟩

theorem witness_EraseRequestIsChosen :
    8 < (0x09 : Byte).toNat ∧ (0x08 : Byte).toNat ≤ 8 ∧ (0x07 : Byte).toNat < 8 ∧ 8 ≤ (0x08 : Byte).toNat ∧
    (0x08 : Byte) ≠ 0xFF ∧ 8 ≤ (0xFE : Byte).toNat ∧ (0xFE : Byte) ≠ 0xFF := by decide

theorem witness_EraseClampStaysInTable :
    eraseRequest 7 8 = some (.sectors 7 1) ∧ eraseRequest 0 8 = some (.sectors 0 8) ∧
    eraseRequest 3 0 = some (.sectors 3 0) ∧ (EraseReq.sectors 7 1).covers 0x080FFFFF = true := by decide

theorem witness_EraseCallEffect :
    (∃ t, flashErase (.sectors 2 1) good = some (⟨.ok, 0xFFFFFFFF⟩, t)) ∧
    (EraseReq.sectors 2 1).hitsProtected good.opt.wrp = false ∧ good.env.eraseAnswer = some ⟨.ok, 0xFFFFFFFF⟩ ∧
    (∃ t, flashErase .mass (options 0xAA 0x01 ⟨0xAA, 0x01⟩ good) = some (⟨.ok, 0xFFFFFFFE⟩, t)) ∧
    EraseReq.mass.hitsProtected 0x01 = true ∧
    EraseReq.mass.covers 0x08007FFF = true ∧ protectedByte 0x01 0x08007FFF = true ∧
    EraseReq.mass.covers 0x08008000 = true ∧ protectedByte 0x01 0x08008000 = false ∧
    (EraseReq.sectors 2 1).covers 0x08018000 = false :=
  ⟨⟨_, rfl⟩, by decide, by decide, ⟨_, rfl⟩, by decide, by decide, by decide, by decide, by decide, by decide⟩

theorem witness_OptProgramEffect :
    (∃ t, optProgram (.rdp 0x55) good = some (.ok, t)) ∧
    (∃ t, optProgram (.rdp 0x55) (answers [] [] [some .fail] good) = some (.fail, t)) ∧
    (∃ t, optProgram (.wrp true 0x80) good = some (.ok, t)) ∧
    (∃ t, optProgram (.wrp false 0x80) (answers [] [] [some .fail] good) = some (.fail, t)) ∧
    (0x80 : Byte).getLsbD 7 = true ∧ (0x80 : Byte).getLsbD 0 = false :=
  ⟨⟨_, rfl⟩, ⟨_, rfl⟩, ⟨_, rfl⟩, ⟨_, rfl⟩, by decide, by decide⟩

theorem witness_OptLaunchEffect :
    (∃ t, optLaunch (options 0xAA 0x00 ⟨0x55, 0x03⟩ good) = some (.ok, t) ∧ ¬ (0xAA = (0x55 : Byte) ∧ t.opt.rdp = 0xAA)) ∧
    (∃ t, optLaunch (options 0x55 0x00 ⟨0xAA, 0x00⟩ good) = some (.ok, t) ∧
      (options 0x55 0x00 ⟨0xAA, 0x00⟩ good).opt.rdp = 0x55 ∧ t.opt.rdp = 0xAA) ∧
    (∃ t, optLaunch (answers [] [] [some .fail] good) = some (.fail, t)) :=
  ⟨⟨_, rfl, by decide⟩, ⟨_, rfl, rfl, rfl⟩, ⟨_, rfl⟩⟩

theorem witness_OptionChainSteps :
    chainCfg (.writeProtect 8 0xFF) = some (.wrp true 0xFF) ∧
    (acting fProtect).env.optAnswer = some .ok ∧ (acting fProtect).pos.inChain = false ∧
    rdpRequest (.writeProtect 8 0xFF) = none ∧
    (inside fProtect .writeProtect .optProgram).pos = .optProgram ∧
    (inside fProtect .writeProtect .optLaunch).pos = .optLaunch ∧
    (inside fProtect .writeProtect (.optLock .ok)).pos = .optLock .ok ∧
    (inside fProtect .writeProtect .optProgram).env.optAnswer = some .ok := by decide

/-- An RDP level 2 state whose staged RDP byte is of level 2 as well. -/
def level2 (f : List Byte) : State := options 0xCC 0x00 ⟨0xCC, 0x00⟩ (acting f)

theorem witness_Level2IsIrreversible :
    (level2 fLevel0).rdpInv ∧
    (∃ t, step (level2 fLevel0) = .next t ∧ decide (t.phase = .done) = true) ∧
    rdpRequest (.readoutUnprotect 0) = some .level0 ∧ RdpLevel.level0 ≠ .level2 ∧
    rdpRequest .readoutProtect = some .level1 ∧ rdpLevel (level2 fLevel0).opt.rdp = .level2 ∧
    (level2 fLevel0).pos.inChain = false ∧ (level2 fLevel0).env.tx.accepts = true :=
  ⟨⟨fun h => h, trivial⟩, exists_next (by decide +kernel), by decide, by decide, by decide, by decide, by decide, by decide⟩

theorem witness_GetHelpReplies :
    (acting fGetHelp).begins .getHelp ∧ (acting fGetHelp).env.tx = .always ∧ (acting fGetHelp).env.tx.accepts = true :=
  ⟨⟨rfl, rfl⟩, rfl, rfl⟩

theorem witness_GetVersionReplies :
    (acting fGetVersion).begins .getVersion ∧ (acting fGetVersion).env.tx = .always ∧
    (acting fGetVersion).env.tx.accepts = true := ⟨⟨rfl, rfl⟩, rfl, rfl⟩

theorem witness_GetIdReplies : (acting fGetId).begins .getId ∧ (acting fGetId).env.tx = .always := ⟨⟨rfl, rfl⟩, rfl⟩

theorem witness_GoToAddressSteps :
    (acting fGo).pos ≠ .launch ∧ (acting fGo).env.tx.accepts = true ∧ classify 0x30000000 = .invalid ∧
    classify 0x08008000 = .valid ∧ (inside fGo .goToAddress .launch).pos = .launch := by decide

theorem witness_GoToAddressLaunches :
    ((acting fGo).begins (.goToAddress 0x08008000) ∧ classify 0x08008000 = .valid ∧ (acting fGo).env.tx = .always ∧
      (0x08008000 : Word).toNat % 4 = 0 ∧
      ∀ k : Nat, k < 8 → (acting fGo).mem.byte (0x08008000 + BitVec.ofNat 32 k) = some ((fun _ => 0xFF : Nat → Byte) k)) ∧
    ((acting fGoEdge).begins (.goToAddress 0x080FFFFC) ∧ classify 0x080FFFFC = .valid ∧
      (0x080FFFFC : Word).toNat % 4 = 0 ∧ (acting fGoEdge).mem.byte (0x080FFFFC + BitVec.ofNat 32 4) = none) ∧
    ((acting fGoMisaligned).begins (.goToAddress 0x08008002) ∧ classify 0x08008002 = .valid ∧
      (0x08008002 : Word).toNat % 4 ≠ 0) :=
  ⟨⟨⟨rfl, rfl⟩, by decide, rfl, by decide, by decide +kernel⟩, ⟨⟨rfl, rfl⟩, by decide, by decide, by decide +kernel⟩,
    ⟨⟨rfl, rfl⟩, by decide, by decide⟩⟩

theorem witness_WriteMemorySteps :
    ((acting fWrite).pos.inWrite = false ∧ classify 0x30000000 = .invalid ∧ (acting fWrite).env.tx.accepts = true) ∧
    ((acting fWrite).env.flashAnswer = some .ok ∧ classify 0x20010000 = .valid) ∧
    ((inside fWrite .writeMemory (.program 1)).pos = .program 1 ∧ [(0x11 : Byte), 0x22][1]? = some 0x22 ∧
      (inside fWrite .writeMemory (.program 1)).env.flashAnswer = some .ok) ∧
    ((inside fWrite .writeMemory (.program 2)).pos = .program 2 ∧ [(0x11 : Byte), 0x22].length ≤ 2) ∧
    (inside fWrite .writeMemory (.writeLock .fail)).pos = .writeLock .fail := by decide

theorem witness_WriteMemoryWritesItsData :
    (acting fWrite).begins (.writeMemory 0x20010000 [0x11, 0x22]) ∧ classify 0x20010000 = .valid ∧
    (acting fWrite).env.tx = .always ∧
    (acting fWrite).env.flash = List.replicate ([(0x11 : Byte), 0x22].length + 2) (some .ok) ++ List.replicate 8 (some .ok) ∧
    (∀ k < [(0x11 : Byte), 0x22].length,
      protectedByte (acting fWrite).opt.wrp (0x20010000 + BitVec.ofNat 32 k : Word).toNat = false) ∧
    [(0x11 : Byte), 0x22].length ≤ 245 ∧ Config.ramA.contains (0x20010000 + BitVec.ofNat 32 1 : Word).toNat = true :=
  ⟨⟨rfl, rfl⟩, by decide, rfl, by decide, by decide +kernel, by decide, by decide⟩

theorem witness_EraseSteps :
    (eraseRequest 8 1 = none ∧ (acting fErase).env.tx.accepts = true) ∧
    eraseRequest 6 5 = some (.sectors 6 2) ∧ (acting fErase).env.flashAnswer = some .ok ∧
    (acting fErase).pos ≠ .eraseCall ∧ (∀ res, (acting fErase).pos ≠ .eraseLock res) ∧
    (inside fErase .erase (.eraseLock .pass)).pos = .eraseLock .pass ∧
    (inside fErase .erase .eraseCall).env.eraseAnswer = some ⟨.ok, 0xFFFFFFFF⟩ ∧
    (inside fErase .erase .eraseCall).pos = .eraseCall :=
  ⟨by decide, by decide, by decide, by decide, fun _ => by simp [acting, State.withFrame, State.pos, fErase, byteAt,
    Opcode.ofByte, commandTable, Opcode.byte, Opcode.implemented, Opcode.format], by decide, by decide, by decide⟩

theorem witness_EraseErasesItsSectors :
    (acting fErase).begins (.erase 6 5) ∧ eraseRequest 6 5 = some (.sectors 6 2) ∧ (acting fErase).env.tx = .always ∧
    (acting fErase).env.flash = some .ok :: some .ok :: List.replicate 10 (some .ok) ∧
    (acting fErase).env.erase = some ⟨.ok, 0xFFFFFFFF⟩ :: [] ∧
    (EraseReq.sectors 6 2).hitsProtected (acting fErase).opt.wrp = false :=
  ⟨⟨rfl, rfl⟩, by decide, rfl, by decide, by decide, by decide⟩

theorem witness_ProtectedSectorsAreNotWritten :
    ((options 0xAA 0x01 ⟨0xAA, 0x01⟩ (inside fWrite .writeMemory (.program 0))).pos = .program 0 ∧
      [(0x00 : Byte)][0]? = some 0x00 ∧
      protectedByte (options 0xAA 0x01 ⟨0xAA, 0x01⟩ (inside fWrite .writeMemory (.program 0))).opt.wrp
        (0x08000000 + BitVec.ofNat 32 0 : Word).toNat = true ∧
      (options 0xAA 0x01 ⟨0xAA, 0x01⟩ (inside fWrite .writeMemory (.program 0))).env.flashAnswer.isSome = true) ∧
    (eraseRequest 0xFF 8 = some .mass ∧
      (options 0xAA 0x80 ⟨0xAA, 0x80⟩ (inside fErase .erase .eraseCall)).pos = .eraseCall ∧
      EraseReq.mass.hitsProtected (options 0xAA 0x80 ⟨0xAA, 0x80⟩ (inside fErase .erase .eraseCall)).opt.wrp = true ∧
      (options 0xAA 0x80 ⟨0xAA, 0x80⟩ (inside fErase .erase .eraseCall)).env.eraseAnswer.isSome = true) := by decide

theorem witness_ProtectionCommandsCommit :
    (chainCfg (.writeProtect 2 3) = some (.wrp true 3) ∧ (acting fProtect).begins (.writeProtect 2 3) ∧
      rdpRequest (.writeProtect 2 3) = none ∧ (acting fProtect).env.tx = .always ∧
      (acting fProtect).env.opt = [some .ok, some .ok, some .ok, some .ok] ++ []) ∧
    (chainCfg (.readoutUnprotect 2) = some (.rdp 0xCC) ∧ (acting fLevel2).begins (.readoutUnprotect 2) ∧
      rdpRequest (.readoutUnprotect 2) = some .level2 ∧ gateRefuses (acting fLevel2) .level2 = false) ∧
    ((acting fUnprotect).begins (.writeUnprotect 2 1) ∧ (acting fReadoutProtect).begins .readoutProtect ∧
      gateRefuses (acting fReadoutProtect) .level1 = false) :=
  ⟨⟨by decide, ⟨rfl, rfl⟩, rfl, rfl, by decide⟩, ⟨by decide, ⟨rfl, rfl⟩, by decide, by decide⟩,
    ⟨⟨rfl, rfl⟩, ⟨rfl, rfl⟩, by decide⟩⟩

theorem witness_WriteProtectionConfigures :
    8 < (0x09 : Byte).toNat ∧ (0x08 : Byte).toNat ≤ 8 ∧ good.env.tx.accepts = true ∧ 7 < 8 := by decide

theorem witness_ReadProtectionConfigures : 2 < (0x03 : Byte).toNat ∧ good.env.tx.accepts = true := by decide

/-- A frame received at Level 2. -/
def receivedAtLevel2 (f : List Byte) : State := options 0xCC 0x00 ⟨0xCC, 0x00⟩ (received f)

theorem witness_Level2RequestsReportFailure :
    ((receivedAtLevel2 fLevel1).frameReceived ∧ (receivedAtLevel2 fLevel1).fetch = .ok (.readoutUnprotect 1) ∧
      crc ((receivedAtLevel2 fLevel1).frameBytes.take 3) = wordAt (receivedAtLevel2 fLevel1).frameBytes 3 ∧
      rdpLevel (receivedAtLevel2 fLevel1).opt.rdp = .level2 ∧ (receivedAtLevel2 fLevel1).env.tx = .always) ∧
    ((receivedAtLevel2 fReadoutProtect).frameReceived ∧ (receivedAtLevel2 fReadoutProtect).fetch = .ok .readoutProtect ∧
      crc ((receivedAtLevel2 fReadoutProtect).frameBytes.take 2) =
        wordAt (receivedAtLevel2 fReadoutProtect).frameBytes 2) :=
  ⟨⟨frameReceived_of_ok (by decide +kernel), rfl, by decide +kernel, by decide, rfl⟩,
    ⟨frameReceived_of_ok (by decide +kernel), rfl, by decide +kernel⟩⟩

theorem witness_UnimplementedCommandsAreSilent :
    (received fReadMemory).frameReceived ∧
    Opcode.ofByte (byteAt (received fReadMemory).frameBytes 1) = some .readMemory ∧
    5 ≤ (received fReadMemory).len.toNat ∧
    ((received [0x04, 0xA1, 0x00, 0x00, 0x00]).frameReceived ∧
      Opcode.ofByte (byteAt (received [0x04, 0xA1, 0x00, 0x00, 0x00]).frameBytes 1) = some .checksum ∧
      (received [0x04, 0xA1, 0x00, 0x00, 0x00]).len.toNat < 5 ∧
      (received [0x04, 0xA1, 0x00, 0x00, 0x00]).env.tx.accepts = true) :=
  ⟨frameReceived_of_ok (by decide +kernel), by decide +kernel, by decide, frameReceived_of_ok (by decide +kernel),
    by decide +kernel, by decide, by decide⟩

theorem witness_RejectedCommandsOnlyReportStatus :
    commandCause (.writeMemory 0x30000000 [0xAB]) (acting fWrite) = some .addressInvalid ∧
    commandCause (.erase 8 1) (acting fErase) = some .parameterRejected ∧
    commandCause .readoutProtect (level2 fReadoutProtect) = some .policyRefused ∧
    (acting fWrite).pos = .start ∧ (acting fErase).pos = .start ∧ (level2 fReadoutProtect).pos = .start ∧
    (acting fWrite).env.tx.accepts = true ∧ (level2 fReadoutProtect).env.tx.accepts = true := by decide

theorem witness_RejectedFramesGetNack :
    ((received fBadCrc).frameReceived ∧ frameCause (received fBadCrc) = some .integrityFailure ∧
      (received fBadCrc).env.tx = .always) ∧
    ((received fUnknown).frameReceived ∧ frameCause (received fUnknown) = some .unknownCommand) ∧
    ((received fMalformed).frameReceived ∧ frameCause (received fMalformed) = some .malformedFrame) ∧
    ((received fShort).frameReceived ∧ frameCause (received fShort) = some .frameTooShort) :=
  ⟨⟨frameReceived_of_ok (by decide +kernel), by decide +kernel, rfl⟩,
    ⟨frameReceived_of_ok (by decide +kernel), by decide +kernel⟩,
    ⟨frameReceived_of_ok (by decide +kernel), by decide +kernel⟩,
    ⟨frameReceived_of_ok (by decide +kernel), by decide +kernel⟩⟩

theorem witness_CommandsLeaveTheFrameAlone :
    (∃ t, exec .getVersion (acting fGetVersion) = .next t) ∧
    (∃ t, exec (.goToAddress 0x08008000) (acting fGo) = .next t) ∧
    (∃ t, exec .readMemory (received fReadMemory) = .next t) ∧ Instr.readMemory.opcode.implemented = false :=
  ⟨exec_isNext _ _, exec_isNext _ _, exec_isNext _ _, rfl⟩

theorem witness_MemoryCommandsFrame :
    (∃ t, exec (.writeMemory 0x20010000 [0x11, 0x22]) (inside fWrite .writeMemory (.program 1)) = .next t) ∧
    (∃ t, exec (.erase 6 5) (inside fErase .erase .eraseCall) = .next t) := ⟨exec_isNext _ _, exec_isNext _ _⟩

theorem witness_ProtectionCommandsFrame :
    (∃ t, exec .readoutProtect (inside fReadoutProtect .readoutProtect .optLaunch) = .next t) ∧
    (∃ t, exec (.writeProtect 2 3) (acting fReadoutProtect) = .next t) ∧
    Instr.readoutProtect.opcode = .readoutProtect ∧ (Instr.writeProtect 2 3).opcode = .writeProtect :=
  ⟨exec_isNext _ _, exec_isNext _ _, rfl, rfl⟩

theorem witness_ResetValues_image :
    (∀ c ∈ ([(0x08000000, 0x12)] : Memory), Config.flash.contains c.1 = true) ∧
    Config.flash.contains 0x07FFFFFF = false ∧ Config.flash.contains 0x20010000 = false := by decide

theorem witness_FirstStepAfterReset :
    ResetParams.standard.bootLaunch = false ∧
    ({ ResetParams.standard with env := { Env.quiet with rx := [.byte 0x05] } } : ResetParams).env.rx =
      .byte 0x05 :: [] ∧
    ({ ResetParams.standard with bootLaunch := true } : ResetParams).bootLaunch = true := by decide

theorem witness_RunsPassOnOptionsAndFlash :
    Config.flash.contains 0x080FFFFF = true ∧ Config.flash.contains 0x08100000 = false ∧ good.mem.wf = true := by decide

theorem witness_StepRunsTheDecodedCommand :
    (decode (acting fErase).frameBytes = .ok (.erase 6 5, []) ∧
      (acting fErase).phase = .act (Instr.erase 6 5).opcode .start) ∧
    (decode (received fReadMemory).frameBytes = .ok (.readMemory, []) ∧
      Instr.readMemory.opcode.implemented = false ∧ (received fReadMemory).phase = .awaitPayload ∧
      frameComplete (received fReadMemory) = true) ∧
    (decode (at_ .dispatch (received fReadMemory)).frameBytes = .ok (.readMemory, []) ∧
      (at_ .dispatch (received fReadMemory)).phase = .dispatch) :=
  ⟨⟨rfl, rfl⟩, ⟨rfl, rfl, rfl, by decide +kernel⟩, ⟨rfl, rfl⟩⟩

theorem witness_EveryStepIsAtMostOnePortCall :
    (∃ t, step (at_ .sendNack good) = .next t ∧ decide (t.trace = [.tx 0x1F]) = true) ∧
    (∃ t, step (at_ .done good) = .next t ∧ decide (t.trace = []) = true) :=
  ⟨exists_next (by decide +kernel), exists_next (by decide +kernel)⟩

/-- A WRITE_MEMORY about to program, unlocked. -/
def unlockedWrite : State := { inside fWrite .writeMemory (.program 1) with flashCtl := { lock := false } }

/-- An ERASE about to erase, unlocked. -/
def unlockedErase : State := { inside fErase .erase .eraseCall with flashCtl := { lock := false } }

/-- A READOUT_PROTECT about to program its option, and about to commit, unlocked. -/
def unlockedChain (pos : ActPos) : State :=
  { inside fReadoutProtect .readoutProtect pos with optCtl := { optlock := false } }

theorem unlocked_inv :
    unlockedWrite.Inv ∧ unlockedErase.Inv ∧ (unlockedChain .optProgram).Inv ∧ (unlockedChain .optLaunch).Inv := by
  obtain ⟨a0, ar, az⟩ := frameInv_withFrame good (f := fWrite) (by decide)
  obtain ⟨b0, br, bz⟩ := frameInv_withFrame good (f := fErase) (by decide)
  obtain ⟨c0, cr, cz⟩ := frameInv_withFrame good (f := fReadoutProtect) (by decide)
  refine ⟨⟨rfl, rfl, ⟨a0, ar.le, az, show frameComplete unlockedWrite = true by decide +kernel⟩, ⟨.writeMemory 0x20010000 [0x11, 0x22], rfl, rfl, rfl, by decide⟩,
      rfl, ⟨fun h => h, trivial⟩, rfl⟩,
    ⟨rfl, rfl, ⟨b0, br.le, bz, show frameComplete unlockedErase = true by decide +kernel⟩, ⟨.erase 6 5, rfl, rfl, rfl, by decide⟩, rfl, ⟨fun h => h, trivial⟩, rfl⟩,
    ⟨rfl, rfl, ⟨c0, cr.le, cz, show frameComplete (unlockedChain .optProgram) = true by decide +kernel⟩, ⟨.readoutProtect, rfl, rfl, rfl, by decide⟩, rfl, ⟨fun h => h, ?_⟩, rfl⟩,
    ⟨rfl, rfl, ⟨c0, cr.le, cz, show frameComplete (unlockedChain .optLaunch) = true by decide +kernel⟩, ⟨.readoutProtect, rfl, rfl, rfl, by decide⟩, rfl,
      ⟨fun h => h, trivial⟩, rfl⟩⟩
  intro i level _ _ h2
  exact absurd h2 (by decide)

theorem witness_OperationsAreMadeUnlocked :
    (unlockedWrite.Inv ∧ ∃ t, step unlockedWrite = .next t ∧
      decide (t.trace = unlockedWrite.trace ++ [.flash (.program 0x20010001 0x22) (.result .ok)]) = true) ∧
    (unlockedErase.Inv ∧ ∃ t, step unlockedErase = .next t ∧ decide (t.phase = .act .erase (.eraseLock .pass)) = true) ∧
    ((unlockedChain .optProgram).Inv ∧ ∃ t, step (unlockedChain .optProgram) = .next t ∧
      decide (t.trace = (unlockedChain .optProgram).trace ++ [.opt (.program (.rdp 0x55)) .ok]) = true) ∧
    ((unlockedChain .optLaunch).Inv ∧ ∃ t, step (unlockedChain .optLaunch) = .next t ∧
      decide (t.trace = (unlockedChain .optLaunch).trace ++ [.opt .launch .ok]) = true) :=
  ⟨⟨unlocked_inv.1, exists_next (by decide +kernel)⟩, ⟨unlocked_inv.2.1, exists_next (by decide +kernel)⟩,
    ⟨unlocked_inv.2.2.1, exists_next (by decide +kernel)⟩, ⟨unlocked_inv.2.2.2, exists_next (by decide +kernel)⟩⟩

theorem witness_ResetMeetsTheInvariant : ResetParams.standard.flashImage.wf = true := by decide

/-- A state whose last launch raised a fault. -/
def faulted : State := State.reset.raise (.launchRead 0x20010000)

theorem witness_OnlyFinalStatesStop :
    ((at_ .launched State.reset).Inv ∧ step (at_ .launched State.reset) = .refused .launched) ∧
    (faulted.Inv ∧ step faulted = .fault (.launchRead 0x20010000)) :=
  ⟨⟨⟨rfl, rfl, ⟨byteAt_zero 0, by decide, fun i _ => byteAt_zero i, trivial⟩, trivial, trivial, ⟨fun h => h, trivial⟩,
      rfl⟩, rfl⟩,
    ⟨⟨rfl, rfl, ⟨byteAt_zero 0, by decide, fun i _ => byteAt_zero i, trivial⟩, trivial, trivial, ⟨fun h => h, trivial⟩,
      rfl⟩, rfl⟩⟩

end Sys2Proof.Tests
end

section
/-! PROOF. Which steps of the block make no next state (O54). -/

namespace Sys2Proof.Machine

/-! ## Steps that make a next state -/

/-- A port call makes a next state whether the port answers or holds. -/
theorem answered_isNext (s : State) (r : Option State) : ∃ t, answered s r = .next t := ⟨_, rfl⟩

/-- The pure computation has nothing to do where no check on the frame comes next. -/
theorem settle_eq_self {s : State} (hc : ¬ atChecks s) (hv : s.phase ≠ .verify) : settle s = s := by
  rcases settle_cases s with ⟨hs, -, -⟩ | ⟨h, -⟩ | ⟨h, -⟩ | ⟨h | ⟨h, -⟩, -⟩
  · exact hs
  · exact absurd h hc
  · exact absurd h hc
  · exact absurd h hv
  · exact absurd h hc

/-- Whatever the checks say of a complete frame, the exchange goes on (40_dispatcher R131). -/
theorem step_isNext_of_atChecks {s : State} (h : atChecks s) : ∃ t, step s = .next t := by
  rw [step_atChecks h]
  cases verdict s with
  | malformed => exact answered_isNext _ _
  | unknown op => exact ⟨_, rfl⟩
  | silent i => exact exec_isNext i _
  | tooShort => exact answered_isNext _ _
  | toVerify i =>
    dsimp only
    split
    · exact answered_isNext _ _
    · exact answered_isNext _ _

/-- Verification comes to an acknowledgement or a NACK (40_dispatcher R141). -/
theorem step_isNext_of_verify {s : State} (h : s.phase = .verify) : ∃ t, step s = .next t := by
  have hs : settle s = settleVerify s := by simp [settle, h]
  simp only [step, hs, settleVerify_eq, verified]
  cases decide ((verifyData s.coveredBytes s.claimedCrc s).1 = .pass) with
  | false => exact answered_isNext _ _
  | true => exact answered_isNext _ _

/-- The second byte of an acknowledgement: its length is that of the command in the buffer. -/
theorem step_isNext_of_ackLen {s : State} {i : Instr} (h : s.phase = .sendAck true) (hi : s.fetch = .ok i) :
    ∃ t, step s = .next t := by
  simp only [step, settle_eq_self (s := s) (by simp [atChecks, h]) (by simp [h]), h, hi]
  exact answered_isNext _ _

/-- Acting on the command that the buffer holds. -/
theorem step_isNext_of_act {s : State} {i : Instr} {pos : ActPos} (h : s.phase = .act i.opcode pos)
    (hi : s.fetch = .ok i) : ∃ t, step s = .next t := by
  simp only [step, settle_eq_self (s := s) (by simp [atChecks, h]) (by simp [h]), h, hi, if_true]
  exact exec_isNext i s

/-! ## The final states -/

theorem step_launched {s : State} (h : s.phase = .launched) : step s = .refused .launched := by
  simp [step, settle, h]

theorem step_faulted {s : State} {r : Fault} (h : s.phase = .faulted r) : step s = .fault r := by
  simp [step, settle, h]

/-! ## What a step comes to -/

/-- The three things a step can come to, each with the states in which it does, where the buffer holds the command that
the phase speaks of (00_scope R14). -/
theorem step_outcome {s : State} (hcmd : s.commandInv) :
    (∃ t, step s = .next t) ∨ (s.phase = .launched ∧ step s = .refused .launched) ∨
      ∃ r, s.phase = .faulted r ∧ step s = .fault r := by
  cases hp : s.phase with
  | launched => exact .inr (.inl ⟨rfl, step_launched hp⟩)
  | faulted r => exact .inr (.inr ⟨r, rfl, step_faulted hp⟩)
  | dispatch => exact .inl (step_isNext_of_atChecks (.inr hp))
  | verify => exact .inl (step_isNext_of_verify hp)
  | awaitPayload =>
    by_cases hc : frameComplete s = true
    · exact .inl (step_isNext_of_atChecks (.inl ⟨hp, hc⟩))
    · simp only [step, settle_eq_self (s := s) (by simp [atChecks, hp, hc]) (by simp [hp]), hp]
      exact .inl (answered_isNext _ _)
  | sendAck sent =>
    cases sent with
    | false =>
      simp only [step, settle, hp]
      exact .inl (answered_isNext _ _)
    | true =>
      simp only [State.commandInv, hp] at hcmd
      obtain ⟨i, hi, -⟩ := hcmd
      exact .inl (step_isNext_of_ackLen hp hi)
  | act op pos =>
    simp only [State.commandInv, hp] at hcmd
    obtain ⟨i, hi, -, rfl, -⟩ := hcmd
    exact .inl (step_isNext_of_act hp hi)
  | bootLaunch | done =>
    simp only [step, settle, hp]
    exact .inl ⟨_, rfl⟩
  | awaitLength | sendNack | sendReply bytes =>
    simp only [step, settle, hp]
    exact .inl (answered_isNext _ _)

/-- The fault mark of a state that has faulted is the reason (10_state R41). -/
theorem fault_of_faulted {s : State} {r : Fault} (hf : s.faultInv) (h : s.phase = .faulted r) : s.fault = some r := by
  simpa [State.faultInv, h] using hf

/-- Settles O54: by the invariant the buffer holds the command that is acknowledged or acted on, so only the final states
make no next state. -/
theorem onlyFinalStatesStop : Obligations.OnlyFinalStatesStop := by
  unfold Obligations.OnlyFinalStatesStop
  intro s hinv
  rcases step_outcome hinv.command with ⟨t, ht⟩ | ⟨hp, ht⟩ | ⟨q, hp, ht⟩
  · simp [ht]
  · refine ⟨fun r h => ⟨hp, ?_⟩, by simp [ht]⟩
    simpa [ht, eq_comm] using h
  · refine ⟨by simp [ht], fun r h => ?_⟩
    obtain rfl : q = r := by simpa [ht] using h
    exact ⟨hp, fault_of_faulted hinv.fault hp⟩

end Sys2Proof.Machine
end

section
/-! PROOF. What one port call does, and what one step of the block can be: a step of the exchange or a step of the command
it acts on. From it: a step makes at most one port call (O50), and operations are made unlocked (O51). -/

namespace Sys2Proof.Machine

/-! ## What a port call does -/

/-- The control registers, the option store and the memory stay. -/
structure PlatformKept (s t : State) : Prop where
  flashCtl  : t.flashCtl = s.flashCtl
  optCtl    : t.optCtl = s.optCtl
  opt       : t.opt = s.opt
  optStaged : t.optStaged = s.optStaged
  mem       : t.mem = s.mem

/-- The frame registers stay (10_state R25 to R27). -/
structure FrameKept (s t : State) : Prop where
  buf   : t.buf = s.buf
  len   : t.len = s.len
  rxcnt : t.rxcnt = s.rxcnt

/-- One port call recorded as `e`: its event, exactly that event's effect, and no platform input or fault mark written
(10_state R39, R40). -/
structure Calls (s : State) (e : Event) (t : State) : Prop where
  straps : t.straps = s.straps
  fault  : t.fault = s.fault
  trace  : t.trace = s.trace ++ [e]
  effect : eventEffect s e t

/-- One port call that has nothing to do with receiving or verifying a frame. -/
structure CallsOnly (s : State) (e : Event) (t : State) : Prop extends Calls s e t, FrameKept s t where
  crcAcc : t.crcAcc = s.crcAcc

/-- An event of a port other than the flash controller's and the option store's. -/
def Event.quiet : Event → Bool
  | .flash _ _ => false
  | .opt _ _ => false
  | _ => true

/-- A quiet event has no effect on the platform. -/
theorem platformKept_of_quiet {s t : State} {e : Event} (hq : e.quiet = true) (h : eventEffect s e t) :
    PlatformKept s t := by
  obtain ⟨hf, ho, hstaged, hopt, hmem⟩ := h
  have hflash : t.flashCtl = s.flashCtl ↔ t.flashCtl.lock = s.flashCtl.lock := by
    cases t.flashCtl; cases s.flashCtl; simp
  have hoptc : t.optCtl = s.optCtl ↔ t.optCtl.optlock = s.optCtl.optlock := by
    cases t.optCtl; cases s.optCtl; simp
  cases e with
  | flash c a => exact absurd hq (by simp [Event.quiet])
  | opt c a => exact absurd hq (by simp [Event.quiet])
  | _ => exact ⟨hflash.mpr hf, hoptc.mpr ho, hopt, hstaged, hmem⟩

/-- The phase after the call is not part of its effect. -/
theorem CallsOnly.goto {s t : State} {e : Event} (h : CallsOnly s e t) (p : Phase) : CallsOnly s e (t.goto p) :=
  ⟨⟨h.straps, h.fault, h.trace, h.effect⟩, ⟨h.buf, h.len, h.rxcnt⟩, h.crcAcc⟩

/-! ## One rule per port -/

theorem txByte_calls {b : Byte} {s t : State} (h : txByte b s = some t) : CallsOnly s (.tx b) t := by
  obtain ⟨-, rfl⟩ := (txByte_eq_some_iff b s t).mp h
  exact ⟨⟨rfl, rfl, rfl, rfl, rfl, rfl, rfl, rfl⟩, ⟨rfl, rfl, rfl⟩, rfl⟩

theorem emit_calls {s : State} {e : Event} (hq : e.quiet = true) : CallsOnly s e (s.emit e) := by
  refine ⟨⟨rfl, rfl, rfl, ?_⟩, ⟨rfl, rfl, rfl⟩, rfl⟩
  cases e with
  | flash c a => exact absurd hq (by simp [Event.quiet])
  | opt c a => exact absurd hq (by simp [Event.quiet])
  | _ => exact ⟨rfl, rfl, rfl, rfl, rfl⟩

theorem storeByte_calls (b : Byte) (env : Env) (s : State) : Calls s (.rx b) (storeByte b (s.withEnv env)) := by
  unfold storeByte
  split <;> exact ⟨rfl, rfl, rfl, rfl, rfl, rfl, rfl, rfl⟩

theorem flashUnlock_calls {s t : State} {r : PortResult} (h : flashUnlock s = some (r, t)) :
    CallsOnly s (.flash .unlock (.result r)) t := by
  obtain ⟨-, rfl⟩ := (flashUnlock_eq_some_iff s t r).mp h
  refine ⟨⟨rfl, rfl, rfl, ?_⟩, ⟨rfl, rfl, rfl⟩, rfl⟩
  cases r <;> exact ⟨rfl, rfl, rfl, rfl, rfl⟩

theorem flashLock_calls {s t : State} {r : PortResult} (h : flashLock s = some (r, t)) :
    CallsOnly s (.flash .lock (.result r)) t := by
  obtain ⟨-, rfl⟩ := (flashLock_eq_some_iff s t r).mp h
  refine ⟨⟨rfl, rfl, rfl, ?_⟩, ⟨rfl, rfl, rfl⟩, rfl⟩
  cases r <;> exact ⟨rfl, rfl, rfl, rfl, rfl⟩

theorem flashProgramByte_calls {a : Word} {v : Byte} {s t : State} {r : PortResult}
    (h : flashProgramByte a v s = some (r, t)) : CallsOnly s (.flash (.program a v) (.result r)) t := by
  obtain ⟨drawn, -, rfl, rfl⟩ := (flashProgramByte_eq_some_iff a v s t r).mp h
  exact ⟨⟨rfl, rfl, rfl, rfl, rfl, rfl, rfl, programAnswer_protected drawn, _, rfl⟩, ⟨rfl, rfl, rfl⟩, rfl⟩

theorem flashErase_calls {req : EraseReq} {s t : State} {ans : EraseAnswer} (h : flashErase req s = some (ans, t)) :
    CallsOnly s (.flash (.erase req Config.voltageRange) (.erase ans)) t := by
  obtain ⟨drawn, -, rfl, rfl⟩ := (flashErase_eq_some_iff req s t ans).mp h
  exact ⟨⟨rfl, rfl, rfl, rfl, rfl, rfl, rfl, forcedEraseAnswer_word_ne drawn, _, rfl⟩, ⟨rfl, rfl, rfl⟩, rfl⟩

theorem optUnlock_calls {s t : State} {r : PortResult} (h : optUnlock s = some (r, t)) :
    CallsOnly s (.opt .unlock r) t := by
  obtain ⟨-, rfl⟩ := (optUnlock_eq_some_iff s t r).mp h
  refine ⟨⟨rfl, rfl, rfl, ?_⟩, ⟨rfl, rfl, rfl⟩, rfl⟩
  cases r <;> exact ⟨rfl, rfl, rfl, rfl, rfl⟩

theorem optLock_calls {s t : State} {r : PortResult} (h : optLock s = some (r, t)) : CallsOnly s (.opt .lock r) t := by
  obtain ⟨-, rfl⟩ := (optLock_eq_some_iff s t r).mp h
  refine ⟨⟨rfl, rfl, rfl, ?_⟩, ⟨rfl, rfl, rfl⟩, rfl⟩
  cases r <;> exact ⟨rfl, rfl, rfl, rfl, rfl⟩

theorem optProgram_calls {cfg : OptCfg} {s t : State} {r : PortResult} (h : optProgram cfg s = some (r, t)) :
    CallsOnly s (.opt (.program cfg) r) t := by
  obtain ⟨-, rfl⟩ := (optProgram_eq_some_iff cfg s t r).mp h
  refine ⟨⟨rfl, rfl, rfl, ?_⟩, ⟨rfl, rfl, rfl⟩, rfl⟩
  cases r with
  | ok => exact ⟨rfl, rfl, rfl, rfl, rfl⟩
  | fail => exact ⟨rfl, rfl, ⟨_, _, rfl⟩, rfl, rfl⟩

theorem optLaunch_calls {s t : State} {r : PortResult} (h : optLaunch s = some (r, t)) :
    CallsOnly s (.opt .launch r) t := by
  obtain ⟨-, rfl⟩ := (optLaunch_eq_some_iff s t r).mp h
  have hmem : if regresses s.opt (launchedConfig s r) then
      ∃ f, (if regresses s.opt (launchedConfig s r) then s.mem.redrawFlash (Config.flashDraw s.env.draws) else s.mem) =
        s.mem.redrawFlash f
      else (if regresses s.opt (launchedConfig s r) then s.mem.redrawFlash (Config.flashDraw s.env.draws) else s.mem) =
        s.mem := by
    split
    · exact ⟨_, rfl⟩
    · rfl
  refine ⟨⟨rfl, rfl, rfl, ?_⟩, ⟨rfl, rfl, rfl⟩, rfl⟩
  cases r with
  | ok => exact ⟨rfl, rfl, rfl, rfl, hmem⟩
  | fail => exact ⟨rfl, rfl, rfl, ⟨_, _, rfl⟩, hmem⟩

/-- A launch raises a fault with no call, or is one call that ends the run (41_engines R200, R201). -/
theorem launchAt_calls (base : Word) (s : State) :
    (∃ r, launchAt base s = s.raise r) ∨
      ∃ sp pc, CallsOnly s (.launch sp pc) (launchAt base s) ∧ (launchAt base s).phase = .launched := by
  rcases launchAt_cases base s with ⟨-, h⟩ | ⟨-, -, h⟩ | ⟨-, sp, pc, -, -, h⟩
  · exact .inl ⟨_, h⟩
  · exact .inl ⟨_, h⟩
  · rw [h]
    exact .inr ⟨sp, pc, (emit_calls rfl).goto _, rfl⟩

/-! ## A step of a command -/

/-- The operations that change memory or options are made at their own positions in the recipe, an option program with the
command's own configuration (41_engines R172, R177, R182). -/
def madeInPlace (i : Instr) (s : State) : Event → Prop
  | .flash (.program _ _) _ => ∃ k, s.pos = .program k
  | .flash (.erase _ _) _ => s.pos = .eraseCall
  | .opt (.program cfg) _ => s.pos = .optProgram ∧ chainCfg i = some cfg
  | .opt .launch _ => s.pos = .optLaunch
  | _ => True

/-- A step of a command raises a fault, or ends the exchange silently, or is one port call in its place. -/
theorem execStep_calls {i : Instr} {s t : State} (h : ExecStep i s t) :
    (∃ r, t = s.raise r) ∨ t = s.goto .done ∨ ∃ e, CallsOnly s e t ∧ madeInPlace i s e := by
  cases h with
  | reply hb h =>
    rcases (sendReply_eq_some_iff _ _ _).mp h with ⟨hn, -⟩ | ⟨b, rest, u, -, hu, rfl⟩
    · exact absurd hn hb
    · exact .inr (.inr ⟨_, (txByte_calls hu).goto _, trivial⟩)
  | readId => exact .inr (.inr ⟨_, (emit_calls rfl).goto _, trivial⟩)
  | silent => exact .inr (.inl rfl)
  | status _ _ hu => exact .inr (.inr ⟨_, (txByte_calls hu).goto _, trivial⟩)
  | launch =>
    rcases launchAt_calls _ s with h | ⟨sp, pc, hc, -⟩
    · exact .inl h
    · exact .inr (.inr ⟨_, hc, trivial⟩)
  | writeUnlock _ _ hu | eraseUnlock _ _ _ hu => exact .inr (.inr ⟨_, (flashUnlock_calls hu).goto _, trivial⟩)
  | writeProgram hp _ hu => exact .inr (.inr ⟨_, (flashProgramByte_calls hu).goto _, _, hp⟩)
  | writeLock _ hu | eraseLock _ _ hu => exact .inr (.inr ⟨_, (flashLock_calls hu).goto _, trivial⟩)
  | eraseCall _ hp hu => exact .inr (.inr ⟨_, (flashErase_calls hu).goto _, hp⟩)
  | optUnlock _ _ _ hu => exact .inr (.inr ⟨_, (optUnlock_calls hu).goto _, trivial⟩)
  | optProgram hc hp hu => exact .inr (.inr ⟨_, (optProgram_calls hu).goto _, hp, hc⟩)
  | optLaunch _ hp hu => exact .inr (.inr ⟨_, (optLaunch_calls hu).goto _, hp⟩)
  | optLock _ _ hu => exact .inr (.inr ⟨_, (optLock_calls hu).goto _, trivial⟩)

/-! ## A step of the exchange -/

/-- Where a call of the dispatcher leads while the frame is kept (40_dispatcher R130, R137, R138). -/
inductive Reaches (s : State) : Phase → Prop where
  | sendNack : Reaches s .sendNack
  | done : Reaches s .done
  | sendAck : s.phase = .sendAck false ∨ s.phase = .verify ∨ (atChecks s ∧ ∃ i, verdict s = .toVerify i) →
      Reaches s (.sendAck true)
  | act {i} : s.phase = .sendAck true → s.fetch = .ok i → Reaches s (.act i.opcode .start)
  | reply {b rest} : s.phase = .sendReply (b :: rest) → rest ≠ [] → Reaches s (.sendReply rest)

/-- A step of the dispatcher: the launch at reset, a received byte, a call that keeps the frame, the end of an exchange
with no call (an unimplemented command, or a reply with no byte left), and `Done`. -/
inductive ExchangeStep (s : State) : State → Prop where
  | boot : s.phase = .bootLaunch → ExchangeStep s (launchAt s.straps.appBase s)
  | store {b env} : s.phase = .awaitLength ∨ (s.phase = .awaitPayload ∧ frameComplete s = false) →
      ExchangeStep s (storeByte b (s.withEnv env))
  | call {e t} : e.quiet = true → Calls s e t → FrameKept s t → t.crcAcc = s.crcAcc ∨ t.crcAcc = Config.crcInit →
      Reaches s t.phase → ExchangeStep s t
  | silent : ExchangeStep s (s.goto .done)
  | done : s.phase = .done → ExchangeStep s s.nextExchange

/-- A byte that the dispatcher sends from `u`, which is `s` but for the phase and the CRC accumulator. -/
theorem exchangeStep_of_txByte {s u v : State} {b : Byte} {p : Phase}
    (hu : u = { s with crcAcc := u.crcAcc, phase := u.phase }) (hc : u.crcAcc = s.crcAcc ∨ u.crcAcc = Config.crcInit)
    (hp : Reaches s p) (h : txByte b u = some v) : ExchangeStep s (v.goto p) := by
  obtain ⟨⟨hstraps, hfault, htrace, heffect⟩, ⟨hbuf, hlen, hrxcnt⟩, hcrc⟩ := (txByte_calls h).goto p
  rw [hu] at hstraps hfault htrace heffect hbuf hlen hrxcnt
  exact .call (e := .tx b) rfl ⟨hstraps, hfault, htrace, heffect⟩ ⟨hbuf, hlen, hrxcnt⟩ (hcrc ▸ hc) hp

theorem exec_of_not_implemented {i : Instr} (h : i.opcode.implemented = false) (s : State) :
    exec i s = .next (s.goto .done) := by
  cases i with
  | readMemory | extendedErase | special | extendedSpecial | checksum => rfl
  | _ => nomatch h

theorem exchangeStep_of_receive {s t : State}
    (hp : s.phase = .awaitLength ∨ (s.phase = .awaitPayload ∧ frameComplete s = false)) (h : receive s = some t) :
    ExchangeStep s t := by
  unfold receive at h
  split at h
  · exact absurd h (by simp)
  · cases h
    exact .store hp
  · cases h
    refine .call (e := .rxFailed) rfl ⟨rfl, rfl, rfl, rfl, rfl, rfl, rfl, rfl⟩ ⟨rfl, rfl, rfl⟩ (.inl rfl) ?_
    show Reaches s (if s.straps.nackOnRxFail then .sendNack else .done)
    split
    · exact .sendNack
    · exact .done

theorem exchangeStep_of_sendNack {s u t : State} (hu : u = { s with crcAcc := u.crcAcc, phase := u.phase })
    (hc : u.crcAcc = s.crcAcc ∨ u.crcAcc = Config.crcInit) (h : sendNack u = some t) : ExchangeStep s t := by
  obtain ⟨v, hv, rfl⟩ := Option.map_eq_some_iff.mp h
  exact exchangeStep_of_txByte hu hc .done hv

/-- One step of the block: nothing, while a port holds; a step of the dispatcher; or a step of the command acted on. -/
theorem step_split {s t : State} (h : step s = .next t) :
    t = s ∨ ExchangeStep s t ∨ ∃ i, s.phase = .act i.opcode s.pos ∧ s.fetch = .ok i ∧ ExecStep i s t := by
  rcases step_next h with h | h
  · exact .inl h
  cases h with
  | boot hp => exact .inr (.inl (.boot hp))
  | receive hp h => exact .inr (.inl (exchangeStep_of_receive hp h))
  | unknown =>
    exact .inr (.inl (.call (e := .diag _) rfl ((emit_calls rfl).goto _).toCalls ⟨rfl, rfl, rfl⟩ (.inl rfl) .sendNack))
  | silent _ hv h =>
    rw [exec_of_not_implemented (verdict_silent hv).2] at h
    cases h
    exact .inr (.inl .silent)
  | nack _ h => exact .inr (.inl (exchangeStep_of_sendNack rfl (.inl rfl) h))
  | reject _ _ h => exact .inr (.inl (exchangeStep_of_sendNack (u := s.goto .sendNack) rfl (.inl rfl) h))
  | badCrc _ h => exact .inr (.inl (exchangeStep_of_sendNack rfl (.inr rfl) h))
  | accept hc h =>
    obtain ⟨v, hv, rfl⟩ := Option.map_eq_some_iff.mp h
    exact .inr (.inl (exchangeStep_of_txByte rfl (.inr rfl) (.sendAck (.inr hc)) hv))
  | ackByte hp h =>
    obtain ⟨v, hv, rfl⟩ := Option.map_eq_some_iff.mp h
    exact .inr (.inl (exchangeStep_of_txByte rfl (.inl rfl) (.sendAck (.inl hp)) hv))
  | ackLen hp hi h =>
    obtain ⟨v, hv, rfl⟩ := Option.map_eq_some_iff.mp h
    exact .inr (.inl (exchangeStep_of_txByte rfl (.inl rfl) (.act hp hi) hv))
  | @act i pos _ hp hi h =>
    rcases exec_next h with h | h
    · exact .inl h
    · exact .inr (.inr ⟨i, by rw [State.pos_act s _ _ hp, hp], hi, h⟩)
  | reply hp h =>
    rcases (sendReply_eq_some_iff _ _ _).mp h with ⟨-, rfl⟩ | ⟨b, rest, u, rfl, hu, rfl⟩
    · exact .inr (.inl .silent)
    · refine .inr (.inl (exchangeStep_of_txByte rfl (.inl rfl) ?_ hu))
      cases rest with
      | nil => exact .done
      | cons c rest => exact .reply hp (List.cons_ne_nil _ _)
  | done hp => exact .inr (.inl (.done hp))

/-! ## At most one port call -/

/-- The lock bits under which the operation recorded as `e` is made (10_state R29, R30). -/
def lockAllows (s : State) : Event → Prop
  | .flash (.program _ _) _ => s.flashCtl.lock = false
  | .flash (.erase _ _) _ => s.flashCtl.lock = false
  | .opt (.program _) _ => s.optCtl.optlock = false
  | .opt .launch _ => s.optCtl.optlock = false
  | _ => True

theorem lockAllows_of_quiet {s : State} {e : Event} (h : e.quiet = true) : lockAllows s e := by
  cases e with
  | flash c a => exact absurd h (by simp [Event.quiet])
  | opt c a => exact absurd h (by simp [Event.quiet])
  | _ => trivial

/-- By the invariant an operation in its place is made unlocked. -/
theorem lockAllows_of_madeInPlace {i : Instr} {s : State} {e : Event} (hp : s.phase = .act i.opcode s.pos)
    (hu : s.unlockInv) (h : madeInPlace i s e) : lockAllows s e := by
  unfold State.unlockInv at hu
  rw [hp] at hu
  cases e with
  | flash c a =>
    cases c with
    | program =>
      obtain ⟨k, hk⟩ := h
      simpa [lockAllows, hk] using hu
    | erase =>
      have hk : s.pos = .eraseCall := h
      simpa [lockAllows, hk] using hu
    | _ => trivial
  | opt c a =>
    cases c with
    | program =>
      obtain ⟨hk, -⟩ := h
      simpa [lockAllows, hk] using hu
    | launch =>
      have hk : s.pos = .optLaunch := h
      simpa [lockAllows, hk] using hu
    | _ => trivial
  | _ => trivial

/-- No port call: no event, no platform input and nothing of the platform written. -/
structure Uncalled (s t : State) : Prop extends PlatformKept s t where
  straps : t.straps = s.straps
  trace  : t.trace = s.trace

theorem uncalled_goto (s : State) (p : Phase) : Uncalled s (s.goto p) := ⟨⟨rfl, rfl, rfl, rfl, rfl⟩, rfl, rfl⟩

theorem uncalled_raise (s : State) (r : Fault) : Uncalled s (s.raise r) := ⟨⟨rfl, rfl, rfl, rfl, rfl⟩, rfl, rfl⟩

/-- A step of the dispatcher makes no port call, or one whose event is quiet. -/
theorem exchangeStep_calls {s t : State} (h : ExchangeStep s t) : Uncalled s t ∨ ∃ e, e.quiet = true ∧ Calls s e t := by
  cases h with
  | boot =>
    rcases launchAt_calls s.straps.appBase s with ⟨r, h⟩ | ⟨sp, pc, h, -⟩
    · rw [h]
      exact .inl (uncalled_raise s r)
    · exact .inr ⟨_, rfl, h.toCalls⟩
  | store => exact .inr ⟨_, rfl, storeByte_calls _ _ s⟩
  | call hq h => exact .inr ⟨_, hq, h⟩
  | silent => exact .inl (uncalled_goto s _)
  | done => exact .inl ⟨⟨rfl, rfl, rfl, rfl, rfl⟩, rfl, rfl⟩

/-- A step makes no port call, or one, which by the invariant is allowed by the lock bits. -/
theorem step_calls {s t : State} (h : step s = .next t) :
    Uncalled s t ∨ ∃ e, Calls s e t ∧ (s.unlockInv → lockAllows s e) := by
  rcases step_split h with rfl | h | ⟨i, hp, -, h⟩
  · exact .inl ⟨⟨rfl, rfl, rfl, rfl, rfl⟩, rfl, rfl⟩
  · rcases exchangeStep_calls h with h | ⟨e, hq, h⟩
    · exact .inl h
    · exact .inr ⟨e, h, fun _ => lockAllows_of_quiet hq⟩
  · rcases execStep_calls h with ⟨r, rfl⟩ | rfl | ⟨e, h, hm⟩
    · exact .inl (uncalled_raise s r)
    · exact .inl (uncalled_goto s _)
    · exact .inr ⟨e, h.toCalls, fun hu => lockAllows_of_madeInPlace hp hu hm⟩

/-- Settles O50, by what each kind of step can do: `step_calls`. -/
theorem everyStepIsAtMostOnePortCall : Obligations.EveryStepIsAtMostOnePortCall := by
  unfold Obligations.EveryStepIsAtMostOnePortCall
  intro s t h
  rcases step_calls h with h | ⟨e, h, -⟩
  · exact ⟨h.straps, .inl ⟨h.trace, h.flashCtl, h.optCtl, h.opt, h.optStaged, h.mem⟩⟩
  · exact ⟨h.straps, .inr ⟨e, h.trace, h.effect⟩⟩

/-- By the invariant the event that a step appends is one that the lock bits allow. -/
theorem lockAllows_of_step {s t : State} (hu : s.unlockInv) (h : step s = .next t) {e : Event}
    (he : t.trace = s.trace ++ [e]) : lockAllows s e := by
  rcases step_calls h with h | ⟨e', h, hl⟩
  · exact absurd (h.trace.symm.trans he) (by simp)
  · obtain rfl : e' = e := by simpa [h.trace] using he
    exact hl hu

/-- Settles O51: the one event of a step is allowed by the lock bits. -/
theorem operationsAreMadeUnlocked : Obligations.OperationsAreMadeUnlocked := by
  unfold Obligations.OperationsAreMadeUnlocked
  intro s t hinv h
  have hl := fun e => lockAllows_of_step (e := e) hinv.unlock h
  exact ⟨fun a v ans => hl (.flash (.program a v) ans), fun req vr ans => hl (.flash (.erase req vr) ans),
    fun cfg ans => hl (.opt (.program cfg) ans), fun ans => hl (.opt .launch ans)⟩

end Sys2Proof.Machine
end

section
/-! PROOF. Every step keeps the invariant of the block (O52): one lemma for each of its parts. -/

namespace Sys2Proof.Machine

/-! ## Where a step of a command leaves the block -/

/-- A command whose recipe has an option chain reaches the chain's positions. -/
theorem posBelongs_of_inChain {i : Instr} {cfg : OptCfg} {pos : ActPos} (hc : chainCfg i = some cfg)
    (hp : pos.inChain = true) : posBelongs i pos = true := by
  cases i with
  | writeProtect sectorCount sectorCode | writeUnprotect sectorCount sectorCode =>
    have hn : sectorCount.toNat ≤ Config.numSectors := by
      by_contra hn
      simp [chainCfg, Nat.lt_of_not_le hn] at hc
    simp [posBelongs, chainPos, hp, hn]
  | readoutProtect => simp [posBelongs, chainPos, hp]
  | readoutUnprotect level =>
    have hl : (RdpLevel.ofByte level).isSome = true := by
      obtain ⟨l, hl, -⟩ := Option.map_eq_some_iff.mp hc
      rw [hl]
      rfl
    simp [posBelongs, chainPos, hp, hl]
  | _ => exact absurd hc (by simp [chainCfg])

/-- Where a step of the command `i` that raises no fault leaves the block. A position it goes to belongs to the recipe
where the one before did, and what the locks and the Level-2 gate ask there holds. -/
inductive AfterCommand (i : Instr) (s t : State) : Prop where
  | done : t.phase = .done → AfterCommand i s t
  | launched : t.phase = .launched → AfterCommand i s t
  | reply {bytes} : t.phase = .sendReply bytes → bytes ≠ [] → AfterCommand i s t
  | act {pos} : t.phase = .act i.opcode pos → (posBelongs i s.pos = true → posBelongs i pos = true) →
      (s.unlockInv → t.unlockInv) →
      (pos = .optProgram → ∀ level, rdpRequest i = some level → gateRefuses t level = false) → AfterCommand i s t

theorem execStep_after {i : Instr} {s t : State} (hs : s.phase = .act i.opcode s.pos) (h : ExecStep i s t) :
    (∃ r, t = s.raise r) ∨ AfterCommand i s t := by
  cases h with
  | reply hb h =>
    rcases (sendReply_eq_some_iff _ _ _).mp h with ⟨hn, -⟩ | ⟨b, rest, u, -, -, rfl⟩
    · exact absurd hn hb
    · cases rest with
      | nil => exact .inr (.done rfl)
      | cons c rest => exact .inr (.reply rfl (List.cons_ne_nil _ _))
  | readId => exact .inr (.reply rfl (List.cons_ne_nil _ _))
  | silent => exact .inr (.done rfl)
  | status _ hv _ => exact .inr (.act rfl (fun _ => by simp [posBelongs, hv]) (fun _ => trivial) (by simp))
  | launch =>
    rcases launchAt_calls _ s with h | ⟨sp, pc, -, h⟩
    · exact .inl h
    · exact .inr (.launched h)
  | @writeUnlock _ _ _ r _ _ hv hu =>
    obtain ⟨-, rfl⟩ := (flashUnlock_eq_some_iff _ _ _).mp hu
    cases r with
    | ok => exact .inr (.act rfl (fun _ => by simp [posBelongs, writePos, hv]) (fun _ => rfl) (by simp))
    | fail => exact .inr (.act rfl (fun _ => by simp [posBelongs, writePos, hv]) (fun _ => trivial) (by simp))
  | @writeProgram _ _ _ k _ r _ hk hd hu =>
    obtain ⟨-, -, -, rfl⟩ := (flashProgramByte_eq_some_iff _ _ _ _ _).mp hu
    have hlt := (List.getElem?_eq_some_iff.mp hd).1
    rw [hk] at hs
    cases r with
    | ok =>
      refine .inr (.act rfl (fun hb => ?_) (fun hl => by simpa [State.unlockInv, hs] using hl) (by simp))
      simp only [hk, posBelongs, writePos, Bool.and_eq_true, decide_eq_true_eq] at hb ⊢
      exact ⟨hlt, hb.2⟩
    | fail =>
      refine .inr (.act rfl (fun hb => ?_) (fun _ => trivial) (by simp))
      simp only [hk, posBelongs, writePos, Bool.and_eq_true, decide_eq_true_eq] at hb ⊢
      exact hb.2
  | writeLock | eraseLock | optLock => exact .inr (.reply rfl (List.cons_ne_nil _ _))
  | @eraseUnlock _ _ _ _ r _ hreq _ _ hu =>
    obtain ⟨-, rfl⟩ := (flashUnlock_eq_some_iff _ _ _).mp hu
    cases r with
    | ok => exact .inr (.act rfl (fun _ => by simp [posBelongs, erasePos, hreq]) (fun _ => rfl) (by simp))
    | fail => exact .inr (.act rfl (fun _ => by simp [posBelongs, erasePos, hreq]) (fun _ => trivial) (by simp))
  | eraseCall hreq =>
    exact .inr (.act rfl (fun _ => by simp [posBelongs, erasePos, hreq]) (fun _ => trivial) (by simp))
  | @optUnlock _ _ _ r _ hc _ hg hu =>
    obtain ⟨-, rfl⟩ := (optUnlock_eq_some_iff _ _ _).mp hu
    cases r with
    | ok => exact .inr (.act rfl (fun _ => posBelongs_of_inChain hc rfl) (fun _ => rfl) (fun _ => hg))
    | fail => exact .inr (.act rfl (fun _ => posBelongs_of_inChain hc rfl) (fun _ => trivial) (by simp))
  | @optProgram _ _ _ r _ hc hk hu =>
    obtain ⟨-, rfl⟩ := (optProgram_eq_some_iff _ _ _ _).mp hu
    rw [hk] at hs
    cases r with
    | ok =>
      exact .inr (.act rfl (fun _ => posBelongs_of_inChain hc rfl)
        (fun hl => by simpa [State.unlockInv, hs] using hl) (by simp))
    | fail => exact .inr (.act rfl (fun _ => posBelongs_of_inChain hc rfl) (fun _ => trivial) (by simp))
  | optLaunch hc => exact .inr (.act rfl (fun _ => posBelongs_of_inChain hc rfl) (fun _ => trivial) (by simp))

/-! ## Where a step of the dispatcher leaves the block -/

/-- A received byte leaves the block awaiting the rest of its frame. -/
theorem storeByte_phase {s : State} {b : Byte}
    (h : s.phase = .awaitLength ∨ (s.phase = .awaitPayload ∧ frameComplete s = false)) (env : Env) :
    (storeByte b (s.withEnv env)).phase = .awaitPayload := by
  rcases h with h | ⟨h, -⟩ <;> simp [storeByte, h]

theorem launchAt_phase (base : Word) (s : State) :
    (∃ r, (launchAt base s).phase = .faulted r) ∨ (launchAt base s).phase = .launched := by
  rcases launchAt_calls base s with ⟨r, h⟩ | ⟨sp, pc, -, h⟩
  · exact .inl ⟨r, by rw [h]; rfl⟩
  · exact .inr h

/-- The dispatcher enters a recipe at its beginning only (40_dispatcher R130). -/
theorem exchangeStep_act {s t : State} (h : ExchangeStep s t) {op : Opcode} {pos : ActPos}
    (hp : t.phase = .act op pos) : pos = .start := by
  cases h with
  | boot =>
    rcases launchAt_phase s.straps.appBase s with ⟨r, h⟩ | h
    · simp [h] at hp
    · simp [h] at hp
  | store h => simp [storeByte_phase h] at hp
  | call _ _ _ _ hr =>
    rw [hp] at hr
    cases hr
    rfl
  | silent => simp at hp
  | done => simp at hp

/-! ## Memory and CRC.ACC -/

/-- No port call breaks the canonical form of the memory. -/
theorem wf_of_eventEffect {s t : State} {e : Event} (h : eventEffect s e t) (hm : s.mem.wf = true) :
    t.mem.wf = true := by
  obtain ⟨-, -, -, -, h⟩ := h
  split at h
  · obtain ⟨-, took, h⟩ := h
    rw [h]
    exact wf_programEffect _ _ _ _ _ hm
  · obtain ⟨-, took, h⟩ := h
    rw [h]
    exact wf_eraseEffect _ _ _ _ hm
  · split at h
    · obtain ⟨f, h⟩ := h
      rw [h]
      exact Memory.wf_redrawFlash f hm
    · rw [h]
      exact hm
  · rw [h]
    exact hm

theorem step_keeps_memory {s t : State} (h : step s = .next t) (hm : s.mem.wf = true) : t.mem.wf = true := by
  rcases step_calls h with h | ⟨e, h, -⟩
  · rw [h.mem]
    exact hm
  · exact wf_of_eventEffect h.effect hm

/-- A launch keeps the frame registers and CRC.ACC. -/
theorem launchAt_keeps (base : Word) (s : State) :
    FrameKept s (launchAt base s) ∧ (launchAt base s).crcAcc = s.crcAcc := by
  rcases launchAt_calls base s with ⟨r, h⟩ | ⟨sp, pc, h, -⟩
  · rw [h]
    exact ⟨⟨rfl, rfl, rfl⟩, rfl⟩
  · exact ⟨h.toFrameKept, h.crcAcc⟩

/-- A step of a command keeps the frame registers and CRC.ACC. -/
theorem execStep_keeps {i : Instr} {s t : State} (h : ExecStep i s t) : FrameKept s t ∧ t.crcAcc = s.crcAcc := by
  rcases execStep_calls h with ⟨r, rfl⟩ | rfl | ⟨e, h, -⟩
  · exact ⟨⟨rfl, rfl, rfl⟩, rfl⟩
  · exact ⟨⟨rfl, rfl, rfl⟩, rfl⟩
  · exact ⟨h.toFrameKept, h.crcAcc⟩

theorem storeByte_crcAcc (b : Byte) (s : State) : (storeByte b s).crcAcc = s.crcAcc := by
  unfold storeByte
  split <;> rfl

theorem step_keeps_crcAcc {s t : State} (h : step s = .next t) (hc : s.crcAcc = Config.crcInit) :
    t.crcAcc = Config.crcInit := by
  rcases step_split h with rfl | h | ⟨i, -, -, h⟩
  · exact hc
  · cases h with
    | boot => exact (launchAt_keeps _ s).2.trans hc
    | store => exact (storeByte_crcAcc _ _).trans hc
    | call _ _ _ h => exact h.elim (·.trans hc) id
    | silent => exact hc
    | done => exact hc
  · exact (execStep_keeps h).2.trans hc

/-! ## The frame registers -/

/-- A phase in which the frame is still to come or coming. -/
def Phase.early : Phase → Bool
  | .bootLaunch => true
  | .awaitLength => true
  | .awaitPayload => true
  | _ => false

/-- A phase in which the block looks at a complete frame. -/
def Phase.onFrame : Phase → Bool
  | .dispatch => true
  | .verify => true
  | .sendAck _ => true
  | .act _ _ => true
  | .sendReply _ => true
  | _ => false

theorem frameComplete_of_onFrame {s : State} (hf : s.frameInv) (h : s.phase.onFrame = true) :
    frameComplete s = true := by
  obtain ⟨-, -, -, hf⟩ := hf
  cases hp : s.phase with
  | dispatch | verify | sendAck | act | sendReply => simpa [hp] using hf
  | _ => exact absurd h (by simp [hp, Phase.onFrame])

theorem frameComplete_of_atChecks {s : State} (hf : s.frameInv) (h : atChecks s) : frameComplete s = true := by
  rcases h with ⟨-, h⟩ | h
  · exact h
  · exact frameComplete_of_onFrame hf (by rw [h]; rfl)

/-- Where the frame registers stay and no frame is begun, it is enough that a frame looked at was complete. -/
theorem frameInv_of_kept {s t : State} (hf : s.frameInv) (hk : FrameKept s t) (he : t.phase.early = false)
    (hc : t.phase.onFrame = true → frameComplete s = true) : t.frameInv := by
  obtain ⟨hlen, hcnt, hzero, -⟩ := hf
  have hct : frameComplete t = frameComplete s := by simp [frameComplete, hk.len, hk.rxcnt]
  refine ⟨by rw [hk.buf, hk.len]; exact hlen, by rw [hk.rxcnt, hk.len]; exact hcnt,
    by rw [hk.rxcnt, hk.buf]; exact hzero, ?_⟩
  rw [hct]
  cases hp : t.phase with
  | bootLaunch | awaitLength | awaitPayload => exact absurd he (by simp [hp, Phase.early])
  | dispatch | verify | sendAck | act | sendReply => exact hc (by rw [hp]; rfl)
  | _ => trivial

/-- The length byte (40_dispatcher R132). -/
theorem frameInv_storeByte_length {s : State} (hf : s.frameInv) (hp : s.phase = .awaitLength) (b : Byte) (env : Env) :
    (storeByte b (s.withEnv env)).frameInv := by
  obtain ⟨-, -, hzero, hcnt⟩ := hf
  have hcnt : s.rxcnt = 0 := by simpa [hp] using hcnt
  have hbuf : ∀ k, byteAt (s.buf.set 0 b).toList k = if k = 0 then b else byteAt s.buf.toList k := by
    rw [set_zero_eq]
    exact byteAt_set s.buf 0 b (by decide)
  have hs : storeByte b (s.withEnv env) =
      { s with buf := s.buf.set 0 b, len := b, rxcnt := 1, phase := .awaitPayload, trace := s.trace ++ [.rx b], env } := by
    simp [storeByte, hp, State.emit, State.withEnv]
  rw [hs]
  refine ⟨by simp [hbuf], Nat.le_add_right _ _, fun k hk => ?_, by simp⟩
  have hk : 1 ≤ k := hk
  show byteAt (s.buf.set 0 b).toList k = 0
  rw [hbuf, if_neg (by omega)]
  exact hzero k (by simp [hcnt])

/-- A byte of the rest of the frame (40_dispatcher R133). -/
theorem frameInv_storeByte_payload {s : State} (hf : s.frameInv) (hp : s.phase = .awaitPayload)
    (hc : frameComplete s = false) (b : Byte) (env : Env) : (storeByte b (s.withEnv env)).frameInv := by
  obtain ⟨hlen, -, hzero, hcnt⟩ := hf
  have hcnt : s.rxcnt.toNat ≠ 0 := fun h0 => by
    simp only [hp] at hcnt
    exact hcnt (BitVec.eq_of_toNat_eq h0)
  have hlt : s.rxcnt.toNat < 1 + s.len.toNat := by simpa [frameComplete] using hc
  have hl := s.len.isLt
  have hnext : (s.rxcnt + 1).toNat = s.rxcnt.toNat + 1 := by
    rw [BitVec.toNat_add, show (1 : BitVec 9).toNat = 1 from rfl]
    omega
  have hbuf := byteAt_set s.buf s.rxcnt.toNat b (by show _ < 256; omega)
  have hs : storeByte b (s.withEnv env) =
      { s with buf := s.buf.setIfInBounds s.rxcnt.toNat b, rxcnt := s.rxcnt + 1, trace := s.trace ++ [.rx b], env } := by
    simp [storeByte, hp, State.emit, State.withEnv]
  rw [hs]
  refine ⟨?_, ?_, fun k hk => ?_, ?_⟩
  · show byteAt (s.buf.setIfInBounds s.rxcnt.toNat b).toList 0 = s.len
    rw [hbuf, if_neg (Ne.symm hcnt)]
    exact hlen
  · show (s.rxcnt + 1).toNat ≤ 1 + s.len.toNat
    omega
  · have hk : (s.rxcnt + 1).toNat ≤ k := hk
    show byteAt (s.buf.setIfInBounds s.rxcnt.toNat b).toList k = 0
    rw [hbuf, if_neg (by omega)]
    exact hzero k (by omega)
  · simp only [hp]
    intro h0
    exact absurd (hnext.symm.trans (congrArg BitVec.toNat h0)) (Nat.succ_ne_zero _)

theorem frameInv_nextExchange (s : State) : s.nextExchange.frameInv :=
  ⟨byteAt_zero 0, Nat.zero_le _, fun k _ => byteAt_zero k, rfl⟩

/-! ## The command in the buffer -/

/-- The buffer holds the frame of an implemented command. -/
def holdsCommand (s : State) : Prop := ∃ i, s.fetch = .ok i ∧ i.opcode.implemented = true

/-- The dispatcher comes to look at a frame only when it is complete and one of an implemented command. -/
theorem reaches_onFrame {s : State} {p : Phase} (h : Reaches s p) (hp : p.onFrame = true) (hf : s.frameInv)
    (hcmd : s.commandInv) : frameComplete s = true ∧ holdsCommand s := by
  have hon : s.phase.onFrame = true → frameComplete s = true := frameComplete_of_onFrame hf
  unfold State.commandInv at hcmd
  cases h with
  | sendNack => exact absurd hp (by simp [Phase.onFrame])
  | done => exact absurd hp (by simp [Phase.onFrame])
  | sendAck h =>
    rcases h with h | h | ⟨hc, i, hv⟩
    · rw [h] at hcmd hon
      exact ⟨hon rfl, hcmd⟩
    · rw [h] at hcmd hon
      exact ⟨hon rfl, hcmd⟩
    · exact ⟨frameComplete_of_atChecks hf hc, i, verdict_toVerify hv⟩
  | act h _ =>
    rw [h] at hcmd hon
    exact ⟨hon rfl, hcmd⟩
  | reply h _ =>
    rw [h] at hcmd hon
    exact ⟨hon rfl, hcmd.2⟩

theorem posBelongs_start (i : Instr) : posBelongs i .start = true := by cases i <;> rfl

theorem commandInv_of_not_onFrame {t : State} (h : t.phase.onFrame = false) : t.commandInv := by
  unfold State.commandInv
  cases hp : t.phase with
  | dispatch | verify | sendAck | act | sendReply => exact absurd h (by simp [hp, Phase.onFrame])
  | _ => trivial

/-- In a phase that asks nothing of frame and command it is enough that the frame registers stay. -/
theorem keeps_frame_of_free {s t : State} (hf : s.frameInv) (hk : FrameKept s t) (he : t.phase.early = false)
    (ho : t.phase.onFrame = false) : t.frameInv ∧ t.commandInv :=
  ⟨frameInv_of_kept hf hk he (by simp [ho]), commandInv_of_not_onFrame ho⟩

/-- A call of the dispatcher that keeps the frame leaves a phase coherent with it. -/
theorem reaches_keeps {s t : State} (h : Reaches s t.phase) (hk : FrameKept s t) (hf : s.frameInv)
    (hcmd : s.commandInv) : t.frameInv ∧ t.commandInv := by
  have hc := fun hp => reaches_onFrame h hp hf hcmd
  have hfetch := State.fetch_congr hk.buf hk.len
  have he : t.phase.early = false := by
    generalize t.phase = p at h
    cases h <;> rfl
  refine ⟨frameInv_of_kept hf hk he (fun hp => (hc hp).1), ?_⟩
  obtain ⟨p, hp⟩ : ∃ p, t.phase = p := ⟨_, rfl⟩
  rw [hp] at h hc
  cases h with
  | sendNack => exact commandInv_of_not_onFrame (by rw [hp]; rfl)
  | done => exact commandInv_of_not_onFrame (by rw [hp]; rfl)
  | sendAck =>
    simp only [State.commandInv, hp, hfetch]
    exact (hc rfl).2
  | @act i _ hi =>
    obtain ⟨-, j, hj, himp⟩ := hc rfl
    obtain rfl : i = j := by simpa [hi] using hj
    simp only [State.commandInv, hp, hfetch]
    exact ⟨i, hi, himp, rfl, posBelongs_start i⟩
  | reply _ hne =>
    simp only [State.commandInv, hp, hfetch]
    exact ⟨hne, (hc rfl).2⟩

/-- A step of the dispatcher keeps phase, frame and command coherent. -/
theorem exchangeStep_keeps_frame {s t : State} (h : ExchangeStep s t) (hf : s.frameInv) (hcmd : s.commandInv) :
    t.frameInv ∧ t.commandInv := by
  cases h with
  | boot =>
    have hk := (launchAt_keeps s.straps.appBase s).1
    rcases launchAt_phase s.straps.appBase s with ⟨r, h⟩ | h
    · exact keeps_frame_of_free hf hk (by rw [h]; rfl) (by rw [h]; rfl)
    · exact keeps_frame_of_free hf hk (by rw [h]; rfl) (by rw [h]; rfl)
  | store h =>
    refine ⟨?_, commandInv_of_not_onFrame (by rw [storeByte_phase h]; rfl)⟩
    rcases h with hp | ⟨hp, hc⟩
    · exact frameInv_storeByte_length hf hp _ _
    · exact frameInv_storeByte_payload hf hp hc _ _
  | call _ _ hk _ hr => exact reaches_keeps hr hk hf hcmd
  | silent => exact keeps_frame_of_free hf ⟨rfl, rfl, rfl⟩ rfl rfl
  | done => exact ⟨frameInv_nextExchange s, commandInv_of_not_onFrame rfl⟩

/-- A step of a command keeps phase, frame and command coherent. -/
theorem execStep_keeps_frame {i : Instr} {s t : State} (hs : s.phase = .act i.opcode s.pos) (hi : s.fetch = .ok i)
    (h : ExecStep i s t) (hf : s.frameInv) (hcmd : s.commandInv) : t.frameInv ∧ t.commandInv := by
  have hk := (execStep_keeps h).1
  have hfetch := (State.fetch_congr hk.buf hk.len).trans hi
  have hc : frameComplete s = true := frameComplete_of_onFrame hf (by rw [hs]; rfl)
  obtain ⟨himp, hbelongs⟩ : i.opcode.implemented = true ∧ posBelongs i s.pos = true := by
    simp only [State.commandInv, hs] at hcmd
    obtain ⟨j, hj, himp, -, hb⟩ := hcmd
    obtain rfl : i = j := by simpa [hi] using hj
    exact ⟨himp, hb⟩
  rcases execStep_after hs h with ⟨r, rfl⟩ | h
  · exact keeps_frame_of_free hf hk rfl rfl
  · cases h with
    | done hp | launched hp => exact keeps_frame_of_free hf hk (by rw [hp]; rfl) (by rw [hp]; rfl)
    | reply hp hne =>
      refine ⟨frameInv_of_kept hf hk (by rw [hp]; rfl) (fun _ => hc), ?_⟩
      simp only [State.commandInv, hp]
      exact ⟨hne, i, hfetch, himp⟩
    | act hp hb =>
      refine ⟨frameInv_of_kept hf hk (by rw [hp]; rfl) (fun _ => hc), ?_⟩
      simp only [State.commandInv, hp]
      exact ⟨i, hfetch, himp, rfl, hb hbelongs⟩

theorem step_keeps_frame {s t : State} (h : step s = .next t) (hf : s.frameInv) (hcmd : s.commandInv) :
    t.frameInv ∧ t.commandInv := by
  rcases step_split h with rfl | h | ⟨i, hs, hi, h⟩
  · exact ⟨hf, hcmd⟩
  · exact exchangeStep_keeps_frame h hf hcmd
  · exact execStep_keeps_frame hs hi h hf hcmd

/-! ## The locks -/

/-- Nothing is asked of the locks outside a recipe and at its beginning. -/
theorem unlockInv_of_start {t : State} (h : ∀ op pos, t.phase = .act op pos → pos = .start) : t.unlockInv := by
  unfold State.unlockInv
  cases hp : t.phase with
  | act op pos =>
    rw [h op pos hp]
    trivial
  | _ => trivial

theorem step_keeps_unlockInv {s t : State} (h : step s = .next t) (hu : s.unlockInv) : t.unlockInv := by
  rcases step_split h with rfl | h | ⟨i, hs, -, h⟩
  · exact hu
  · exact unlockInv_of_start fun _ _ => exchangeStep_act h
  · rcases execStep_after hs h with ⟨r, rfl⟩ | h
    · trivial
    · cases h with
      | done hp | launched hp | reply hp => exact unlockInv_of_start (by simp [hp])
      | act _ _ hl => exact hl hu

/-! ## INV-RDP2 -/

/-- INV-RDP2 without the part of `State.rdpInv` that speaks of a running command (41_engines R191). -/
def rdp2 (s : State) : Prop := rdpLevel s.opt.rdp = .level2 → rdpLevel s.optStaged.rdp = .level2

/-- The part of `State.rdpInv` that speaks of a running command asks something only where an option program comes next. -/
theorem rdpInv_of {t : State} (h : rdp2 t)
    (hp : ∀ op, t.phase = .act op .optProgram → ∀ i level, t.fetch = .ok i → rdpRequest i = some level →
      rdpLevel t.opt.rdp = .level2 → level = .level2) : t.rdpInv := by
  refine ⟨h, ?_⟩
  split
  · next op hop => exact hp op hop
  · trivial

/-- What a port call can do to the two RDP bytes: nothing, an option program, or a commit of the staged byte. -/
theorem rdp_of_eventEffect {s t : State} {e : Event} (h : eventEffect s e t) :
    (t.opt.rdp = s.opt.rdp ∧ t.optStaged.rdp = s.optStaged.rdp) ∨
    (∃ cfg answer, e = .opt (.program cfg) answer ∧ t.opt.rdp = s.opt.rdp ∧
      t.optStaged.rdp = (cfg.apply s.optStaged).rdp) ∨
    (t.opt.rdp = s.optStaged.rdp ∧ t.optStaged.rdp = s.optStaged.rdp) := by
  obtain ⟨-, -, hstaged, hopt, -⟩ := h
  cases e with
  | opt c answer =>
    cases c with
    | program cfg =>
      have hopt : t.opt = s.opt := hopt
      cases answer with
      | ok =>
        have hstaged : t.optStaged = cfg.apply s.optStaged := hstaged
        exact .inr (.inl ⟨cfg, .ok, rfl, by rw [hopt], by rw [hstaged]⟩)
      | fail =>
        obtain ⟨rdpNew, wrpNew, hstaged⟩ := hstaged
        rw [hopt, hstaged]
        rcases mixConfig_rdp s.optStaged (cfg.apply s.optStaged) rdpNew wrpNew with h | h
        · exact .inl ⟨rfl, h⟩
        · exact .inr (.inl ⟨cfg, .fail, rfl, rfl, h⟩)
    | launch =>
      have hstaged : t.optStaged = s.optStaged := hstaged
      cases answer with
      | ok =>
        have hopt : t.opt = s.optStaged := hopt
        exact .inr (.inr ⟨by rw [hopt], by rw [hstaged]⟩)
      | fail =>
        obtain ⟨rdpNew, wrpNew, hopt⟩ := hopt
        rw [hopt, hstaged]
        rcases mixConfig_rdp s.opt s.optStaged rdpNew wrpNew with h | h
        · exact .inl ⟨h, rfl⟩
        · exact .inr (.inr ⟨h, rfl⟩)
    | _ =>
      have hstaged : t.optStaged = s.optStaged := hstaged
      have hopt : t.opt = s.opt := hopt
      exact .inl ⟨by rw [hopt], by rw [hstaged]⟩
  | _ =>
    have hstaged : t.optStaged = s.optStaged := hstaged
    have hopt : t.opt = s.opt := hopt
    exact .inl ⟨by rw [hopt], by rw [hstaged]⟩

/-- A command's option program leaves the RDP byte, or writes the one of the level it asks for (41_engines R186, R187). -/
theorem apply_rdp_of_chainCfg {i : Instr} {cfg : OptCfg} (hc : chainCfg i = some cfg) (old : OptConfig) :
    (cfg.apply old).rdp = old.rdp ∨ ∃ level, rdpRequest i = some level ∧ (cfg.apply old).rdp = level.sentinel := by
  cases i with
  | writeProtect sectorCount sectorCode | writeUnprotect sectorCount sectorCode =>
    simp only [chainCfg, Option.ite_none_left_eq_some, Option.some.injEq] at hc
    obtain ⟨-, rfl⟩ := hc
    exact .inl rfl
  | readoutProtect =>
    cases hc
    exact .inr ⟨.level1, rfl, rfl⟩
  | readoutUnprotect level =>
    obtain ⟨l, hl, rfl⟩ := Option.map_eq_some_iff.mp hc
    exact .inr ⟨l, hl, rfl⟩
  | _ => exact absurd hc (by simp [chainCfg])

/-- A step of a command keeps INV-RDP2: at Level 2 its option program is one for Level 2. -/
theorem execStep_keeps_rdp2 {i : Instr} {s t : State} (hs : s.phase = .act i.opcode s.pos) (hi : s.fetch = .ok i)
    (h : ExecStep i s t) (hr : s.rdpInv) : rdp2 t := by
  obtain ⟨hr2, hnext⟩ := hr
  rcases execStep_calls h with ⟨r, rfl⟩ | rfl | ⟨e, hcall, hplace⟩
  · exact hr2
  · exact hr2
  · intro h2
    rcases rdp_of_eventEffect hcall.effect with ⟨ho, hst⟩ | ⟨cfg, answer, rfl, ho, hst⟩ | ⟨ho, hst⟩
    · rw [hst]
      exact hr2 (ho ▸ h2)
    · obtain ⟨hpos, hcfg⟩ := hplace
      rw [ho] at h2
      rw [hst]
      rcases apply_rdp_of_chainCfg hcfg s.optStaged with h | ⟨level, hl, h⟩
      · rw [h]
        exact hr2 h2
      · rw [hpos] at hs
        simp only [hs] at hnext
        rw [h, rdpLevel_sentinel]
        exact hnext i level hi hl h2
    · rw [hst, ← ho]
      exact h2

/-- Where an option program comes next after a step of a command, the Level-2 gate has let the request through. -/
theorem gateRefuses_of_optProgram {i : Instr} {s t : State} {op : Opcode} (hs : s.phase = .act i.opcode s.pos)
    (h : ExecStep i s t) (hp : t.phase = .act op .optProgram) {level : RdpLevel} (hl : rdpRequest i = some level) :
    gateRefuses t level = false := by
  rcases execStep_after hs h with ⟨r, rfl⟩ | h
  · simp at hp
  · cases h with
    | done h | launched h | reply h => simp [h] at hp
    | act h _ _ hg =>
      rw [h] at hp
      exact hg (Phase.act.inj hp).2 level hl

/-- A step of the dispatcher writes nothing of the platform. -/
theorem exchangeStep_keeps_platform {s t : State} (h : ExchangeStep s t) : PlatformKept s t := by
  rcases exchangeStep_calls h with h | ⟨e, hq, h⟩
  · exact h.toPlatformKept
  · exact platformKept_of_quiet hq h.effect

/-- INV-RDP2 is kept by every step, of states no run reaches too (41_engines R191). -/
theorem step_keeps_rdpInv {s t : State} (h : step s = .next t) (hr : s.rdpInv) : t.rdpInv := by
  rcases step_split h with rfl | h | ⟨i, hs, hi, h⟩
  · exact hr
  · have hk := exchangeStep_keeps_platform h
    refine rdpInv_of ?_ fun op hp => ActPos.noConfusion (exchangeStep_act h hp)
    rw [rdp2, hk.opt, hk.optStaged]
    exact hr.1
  · refine rdpInv_of (execStep_keeps_rdp2 hs hi h hr) fun op hp j level hj hl h2 => ?_
    have hk := (execStep_keeps h).1
    obtain rfl : i = j := by simpa [(State.fetch_congr hk.buf hk.len).trans hi] using hj
    simpa [gateRefuses, h2] using gateRefuses_of_optProgram hs h hp hl

/-! ## The fault mark -/

/-- A state that makes a next state has not faulted. -/
theorem fault_eq_none_of_step {s t : State} (h : step s = .next t) (hf : s.faultInv) : s.fault = none := by
  unfold State.faultInv at hf
  rw [hf]
  cases hp : s.phase with
  | faulted r => exact absurd ((step_faulted hp).symm.trans h) (by simp)
  | _ => rfl

theorem faultInv_of_none {t : State} (hf : t.fault = none) (hp : ∀ r, t.phase ≠ .faulted r) : t.faultInv := by
  unfold State.faultInv
  rw [hf]
  cases h : t.phase with
  | faulted r => exact absurd h (hp r)
  | _ => rfl

/-- A launch from a state that has not faulted marks the fault it raises (10_state R41). -/
theorem faultInv_launchAt (base : Word) {s : State} (hf : s.fault = none) : (launchAt base s).faultInv := by
  rcases launchAt_calls base s with ⟨r, h⟩ | ⟨sp, pc, h, hp⟩
  · rw [h]
    rfl
  · exact faultInv_of_none (h.fault.trans hf) (by simp [hp])

theorem step_keeps_faultInv {s t : State} (h : step s = .next t) (hf : s.faultInv) : t.faultInv := by
  have hn := fault_eq_none_of_step h hf
  rcases step_split h with rfl | h | ⟨i, hs, -, h⟩
  · exact hf
  · cases h with
    | boot => exact faultInv_launchAt _ hn
    | store hp => exact faultInv_of_none ((storeByte_calls _ _ s).fault.trans hn) (by simp [storeByte_phase hp])
    | call _ hc _ _ hr =>
      refine faultInv_of_none (hc.fault.trans hn) fun r hp => ?_
      rw [hp] at hr
      cases hr
    | silent => exact faultInv_of_none hn (by simp)
    | done => exact faultInv_of_none hn (by simp)
  · rcases execStep_after hs h with ⟨r, rfl⟩ | ha
    · rfl
    · have hp : ∀ r, t.phase ≠ .faulted r := by
        cases ha with
        | done hp | launched hp | reply hp | act hp => simp [hp]
      rcases execStep_calls h with ⟨r, rfl⟩ | rfl | ⟨e, hc, -⟩
      · rfl
      · exact faultInv_of_none hn hp
      · exact faultInv_of_none (hc.fault.trans hn) hp

/-! ## The invariant -/

/-- Settles O52, part by part: each is kept by the step on its own, but for the frame registers and the command in the
buffer, which are kept together. -/
theorem stepKeepsTheInvariant : Obligations.StepKeepsTheInvariant := by
  unfold Obligations.StepKeepsTheInvariant
  intro s t hinv h
  obtain ⟨hframe, hcommand⟩ := step_keeps_frame h hinv.frame hinv.command
  exact {
    memory := step_keeps_memory h hinv.memory
    crc := step_keeps_crcAcc h hinv.crc
    frame := hframe
    command := hcommand
    unlock := step_keeps_unlockInv h hinv.unlock
    rdp := step_keeps_rdpInv h hinv.rdp
    fault := step_keeps_faultInv h hinv.fault }

end Sys2Proof.Machine
end

section
/-! PROOF. Decoding what the encoder wrote (O1), and the frames written out in the spec (O2). -/

namespace Sys2Proof

/-- Any bytes that begin with a well-formed command's length byte, opcode and payload decode to the command: what stands
in `tail`, pad bytes and trailer, is counted and not read (30_encoding R100, R102). -/
theorem decode_of_payload (i : Instr) (hw : i.wellFormed = true) (tail rest : List Byte) (htrailer : 4 ≤ tail.length)
    (hfits : 1 + i.payload.length + tail.length ≤ 255) :
    decode (BitVec.ofNat 8 (1 + i.payload.length + tail.length) :: i.opcode.byte :: (i.payload ++ tail ++ rest)) =
      .ok (i, rest) := by
  generalize hl : BitVec.ofNat 8 (1 + i.payload.length + tail.length) = l
  have hlen : l.toNat = 1 + i.payload.length + tail.length := by
    rw [← hl, BitVec.toNat_ofNat, Nat.mod_eq_of_lt (by omega)]
  have hcomplete : ¬ (i.opcode.byte :: (i.payload ++ tail ++ rest)).length < l.toNat := by
    simp only [List.length_cons, List.length_append]
    omega
  have hminimum : ¬ l.toNat < Config.minFrameLen := by
    show ¬ l.toNat < 5
    omega
  have hopcode : byteAt (l :: i.opcode.byte :: (i.payload ++ tail ++ rest)) 1 = i.opcode.byte := rfl
  have hmin := minLenOk_frame i hw l (tail ++ rest) (n := l.toNat) (by omega)
  have hoperands := operands_frame i hw l (tail ++ rest)
  have hrest : (l :: i.opcode.byte :: (i.payload ++ tail ++ rest)).drop (l.toNat + 1) = rest :=
    List.drop_left' (l₁ := l :: i.opcode.byte :: (i.payload ++ tail)) (by simp [hlen]; omega)
  rw [← List.append_assoc] at hmin hoperands
  rw [decode, if_neg hcomplete, if_neg hminimum, hopcode, Opcode.ofByte_byte]
  simp only [hmin, hoperands, hrest, if_true]

/-- The frame of a command with pad bytes, cut where the operands end (30_encoding R90, R100). -/
theorem encodePadded_eq (pad : List Byte) (i : Instr) :
    encodePadded pad i =
      BitVec.ofNat 8 (1 + i.payload.length + (pad.length + 4)) :: i.opcode.byte ::
        (i.payload ++ (pad ++ bytesLe32 (crc (frameBody i.opcode.byte (i.payload ++ pad))))) := by
  rw [encodePadded, frame_eq, List.length_append, List.append_assoc,
    show 5 + (i.payload.length + pad.length) = 1 + i.payload.length + (pad.length + 4) by omega]

/-- Settles O1: pad bytes and CRC trailer together are a tail the decoder does not read. -/
theorem decodeOfEncodedCommandGivesItBack : Obligations.DecodeOfEncodedCommandGivesItBack := by
  unfold Obligations.DecodeOfEncodedCommandGivesItBack
  intro i pad rest hw hfits
  rw [encodePadded_eq]
  have h := decode_of_payload i hw (pad ++ bytesLe32 (crc (frameBody i.opcode.byte (i.payload ++ pad)))) rest
  simp only [List.length_append, bytesLe32_length] at h
  exact h (by omega) (by omega)

/-- Settles O2: an accepted frame by its command and its tail, a rejected one by evaluation. -/
theorem writtenOutFramesDecode : Obligations.WrittenOutFramesDecode := by
  unfold Obligations.WrittenOutFramesDecode
  refine ⟨?getVersion, ?goToAddress, ?writeMemory, ?erase, ?writeProtect, ?readoutUnprotect, ?checksum,
    ?unknownOpcode, ?tooShort, ?malformed⟩
  case getVersion => exact decode_of_payload .getVersion rfl [0xE0, 0x42, 0x3C, 0x04] [] (by decide) (by decide)
  case goToAddress =>
    exact decode_of_payload (.goToAddress 0x08008000) rfl [0x67, 0x84, 0x4A, 0x09] [] (by decide) (by decide)
  case writeMemory =>
    exact decode_of_payload (.writeMemory 0x20010000 [0x11, 0x22]) rfl [0x26, 0xAC, 0x92, 0xC3] [] (by decide)
      (by decide)
  case erase => exact decode_of_payload (.erase 6 5) rfl [0x26, 0x10, 0x2D, 0x11] [] (by decide) (by decide)
  case writeProtect =>
    exact decode_of_payload (.writeProtect 2 3) rfl [0xAD, 0xE9, 0xD5, 0x1B] [] (by decide) (by decide)
  case readoutUnprotect =>
    exact decode_of_payload (.readoutUnprotect 2) rfl [0x00, 0xE9, 0xF8, 0x65, 0x6F] [] (by decide) (by decide)
  case checksum => exact decode_of_payload .checksum rfl [0xEE, 0x14, 0x13, 0xF5] [] (by decide) (by decide)
  case unknownOpcode => decide
  case tooShort => decide
  case malformed => decide

end Sys2Proof
end

section
/-! PROOF. What a verification detects (O3), and what it leaves (O10): a round of the CRC is injective, so no change
of one byte gets lost. -/

namespace Sys2Proof

/-! ## A round of the CRC loses nothing -/

/-- Bit 0 of the polynomial is 1, so a round turns the bit it shifts out into bit 0. -/
theorem crcRound_getElem_zero (a : Word) : (crcRound a)[0] = a[31] := by
  have htop : a.getLsbD 31 = a[31] := rfl
  unfold crcRound
  rw [htop]
  cases a[31] <;> simp [Config.crcPoly]

/-- A round moves every other bit up by one, and XORs the polynomial's bit into it when bit 31 was 1. -/
theorem crcRound_getElem_succ (a : Word) {k : Nat} (hk : k + 1 < 32) :
    (crcRound a)[k + 1] = (a[k] ^^ (a[31] && Config.crcPoly[k + 1])) := by
  have htop : a.getLsbD 31 = a[31] := rfl
  unfold crcRound
  rw [htop]
  cases a[31] <;> simp

theorem crcRound_injective : Function.Injective crcRound := by
  intro a b h
  have htop : a[31] = b[31] := by rw [← crcRound_getElem_zero, ← crcRound_getElem_zero, h]
  refine BitVec.eq_of_getElem_eq fun k hk => ?_
  rcases Nat.lt_succ_iff_lt_or_eq.mp hk with hk | rfl
  · have hbit : (crcRound a)[k + 1] = (crcRound b)[k + 1] := by rw [h]
    rwa [crcRound_getElem_succ, crcRound_getElem_succ, htop, Bool.xor_left_inj] at hbit
  · exact htop

theorem crcRounds_injective (n : Nat) : Function.Injective (crcRounds n) := by
  induction n with
  | zero => exact Function.injective_id
  | succ n ih => exact ih.comp crcRound_injective

/-- Two accumulators stay apart when the same byte is folded into both. -/
theorem crcFold_left_injective (u : CrcUnit) (b : Byte) : Function.Injective (crcFold u · b) := by
  intro c d h
  cases u with
  | byteAsWord => exact BitVec.xor_left_inj _ |>.mp (crcRounds_injective 32 h)
  | byteAsByte => exact BitVec.xor_left_inj _ |>.mp (crcRounds_injective 8 h)

/-- Two bytes folded into one accumulator bring it apart. -/
theorem crcFold_right_injective (u : CrcUnit) (c : Word) : Function.Injective (crcFold u c) := by
  intro a b h
  cases u with
  | byteAsWord =>
    have h : a.setWidth 32 = b.setWidth 32 := BitVec.xor_right_inj _ |>.mp (crcRounds_injective 32 h)
    bv_omega
  | byteAsByte =>
    have h : a.setWidth 32 <<< 24 = b.setWidth 32 <<< 24 := BitVec.xor_right_inj _ |>.mp (crcRounds_injective 8 h)
    bv_omega

theorem crcAccumulate_injective (u : CrcUnit) (d : List Byte) : Function.Injective (crcAccumulate u · d) := by
  induction d with
  | nil => exact Function.injective_id
  | cons b d ih => exact ih.comp (crcFold_left_injective u b)

/-- Changing one byte of the data changes the accumulator (40_dispatcher R143). -/
theorem crcAccumulate_modify_ne (u : CrcUnit) (c : Word) {data : List Byte} {k : Nat} (hk : k < data.length)
    {f : Byte → Byte} (hf : f data[k] ≠ data[k]) : crcAccumulate u c (data.modify k f) ≠ crcAccumulate u c data := by
  intro h
  rw [List.modify_eq_take_cons_drop hk] at h
  conv at h => rhs; rw [← List.take_append_drop k data, List.drop_eq_getElem_cons hk]
  simp only [crcAccumulate, List.foldl_append, List.foldl_cons] at h
  exact hf (crcFold_right_injective u _ (crcAccumulate_injective u _ h))

/-- XORing one bit into a word changes the word. -/
theorem xor_bit_ne {w bit : Nat} (h : bit < w) (x : BitVec w) : x ^^^ ((1 <<< bit : Nat) : BitVec w) ≠ x := by
  have hlt : 2 ^ bit < 2 ^ w := Nat.pow_lt_pow_right (by decide) h
  have hbit : ((1 <<< bit : Nat) : BitVec w).toNat = 2 ^ bit := by
    rw [BitVec.natCast_eq_ofNat, BitVec.toNat_ofNat, Nat.one_shiftLeft, Nat.mod_eq_of_lt hlt]
  intro hx
  have hzero : ((1 <<< bit : Nat) : BitVec w) = 0 := by simpa using hx
  rw [hzero] at hbit
  exact absurd hbit.symm (Nat.two_pow_pos bit).ne'

namespace Machine

/-! ## Verification -/

theorem crc_modify_ne {data : List Byte} {k : Nat} (hk : k < data.length) {f : Byte → Byte}
    (hf : f data[k] ≠ data[k]) : crc (data.modify k f) ≠ crc data :=
  fun h => crcAccumulate_modify_ne _ _ hk hf (BitVec.xor_left_inj _ |>.mp h)

theorem verifyData_fail_iff {s : State} (data : List Byte) (claimed : Word) (h : s.crcAcc = Config.crcInit) :
    (verifyData data claimed s).1 = .fail ↔ crc data ≠ claimed := by
  simp [verifyData, h, crc, crcWith]

/-- Settles O3: a changed byte changes the CRC of the data, and a changed claimed CRC is no longer it. -/
theorem verifyDetectsEverySingleBitFlip : Obligations.VerifyDetectsEverySingleBitFlip := by
  unfold Obligations.VerifyDetectsEverySingleBitFlip
  intro data claimed s hs hpass
  obtain rfl := (verifyData_pass_iff data claimed hs).mp hpass
  simp only [verifyData_fail_iff _ _ hs]
  exact ⟨fun k bit hk hbit => crc_modify_ne hk (xor_bit_ne hbit data[k]), fun bit hbit => (xor_bit_ne hbit _).symm⟩

/-- Settles O10. -/
theorem verificationsDoNotCombine : Obligations.VerificationsDoNotCombine := by
  unfold Obligations.VerificationsDoNotCombine
  intro data claimed s s' hs hs'
  refine ⟨rfl, ?_, verifyData_pass_iff data claimed hs⟩
  simp only [verifyData, hs, hs']

end Machine
end Sys2Proof
end

section
/-! PROOF. The step of each phase of the dispatcher: the length byte (O4), the checks on a complete frame (O6), NACK
and ACK (O7), a reply (O8), `Done` (O9), and the step that acts on a command (O49). -/

namespace Sys2Proof.Machine

/-! ## The step of each phase -/

theorem step_awaitLength {s : State} (h : s.phase = .awaitLength) : step s = answered s (receive s) := by
  simp [step, settle, h]

theorem step_sendNack {s : State} (h : s.phase = .sendNack) : step s = answered s (sendNack s) := by
  simp [step, settle, h]

theorem step_ackByte {s : State} (h : s.phase = .sendAck false) : step s = answered s (sendAckByte s) := by
  simp [step, settle, h]

theorem step_ackLen {s : State} {i : Instr} (h : s.phase = .sendAck true) (hi : s.fetch = .ok i) :
    step s = answered s (sendAckLen i.opcode s) := by
  simp [step, settle, h, hi]

theorem step_act {s : State} {i : Instr} {pos : ActPos} (h : s.phase = .act i.opcode pos) (hi : s.fetch = .ok i) :
    step s = exec i s := by
  simp [step, settle, h, hi]

theorem step_sendReply {s : State} {bytes : List Byte} (h : s.phase = .sendReply bytes) :
    step s = answered s (sendReply bytes s) := by
  simp [step, settle, h]

theorem step_done {s : State} (h : s.phase = .done) : step s = .next s.nextExchange := by
  simp [step, settle, h]

/-! ## A byte that the dispatcher sends -/

/-- What an accepted byte leaves (10_state R40). -/
theorem txByte_map_goto {s : State} (ha : s.env.tx.accepts = true) (b : Byte) (p : Phase) :
    (txByte b s).map (·.goto p) = some (s.afterTx b p) := by
  rw [txByte_accepted ha]
  rfl

/-- The phase before a byte is sent does not matter to what it leaves. -/
@[simp] theorem afterTx_goto (s : State) (q : Phase) (b : Byte) (p : Phase) :
    (s.goto q).afterTx b p = s.afterTx b p := rfl

theorem sendNack_accepted {s : State} (ha : s.env.tx.accepts = true) : sendNack s = some (s.afterTx 0x1F .done) :=
  txByte_map_goto ha Config.nack .done

theorem sendAckByte_accepted {s : State} (ha : s.env.tx.accepts = true) :
    sendAckByte s = some (s.afterTx 0x79 (.sendAck true)) :=
  txByte_map_goto ha Config.ack (.sendAck true)

theorem sendAckLen_accepted {s : State} (ha : s.env.tx.accepts = true) (op : Opcode) :
    sendAckLen op s = some (s.afterTx (replyLenByte op) (.act op .start)) :=
  txByte_map_goto ha (replyLenByte op) (.act op .start)

theorem sendReply_accepted {s : State} (ha : s.env.tx.accepts = true) (b : Byte) (rest : List Byte) :
    sendReply (b :: rest) s = some (s.afterTx b (if rest.isEmpty then .done else .sendReply rest)) :=
  txByte_map_goto ha b _

/-- Settles O7: the step of each of the three phases is one accepted byte. -/
theorem nackAndAckAreSent : Obligations.NackAndAckAreSent := by
  unfold Obligations.NackAndAckAreSent
  refine ⟨fun s ha => ⟨fun hp => ?nack, fun hp => ?ackByte, fun i n hp hi hn => ?ackLen⟩, rfl, rfl, rfl,
    ?oneByte, ?noReply⟩
  case nack => rw [step_sendNack hp, sendNack_accepted ha, answered_some]
  case ackByte => rw [step_ackByte hp, sendAckByte_accepted ha, answered_some]
  case ackLen =>
    rw [step_ackLen hp hi, sendAckLen_accepted ha, answered_some, replyLenByte, hn, Option.getD_some]
  case oneByte => rintro op (rfl | rfl | rfl | rfl | rfl | rfl | rfl) <;> rfl
  case noReply => rintro op (rfl | rfl | rfl | rfl | rfl) <;> rfl

/-- Settles O9. -/
theorem doneClearsTheFrame : Obligations.DoneClearsTheFrame := by
  unfold Obligations.DoneClearsTheFrame
  exact fun _ => step_done

theorem fetch_of_decode {s : State} {i : Instr} {rest : List Byte} (h : decode s.frameBytes = .ok (i, rest)) :
    s.fetch = .ok i := by
  rw [State.fetch, h]
  rfl

/-- Settles O49, by the step of `Act` and the checks on a frame. -/
theorem stepRunsTheDecodedCommand : Obligations.StepRunsTheDecodedCommand := by
  unfold Obligations.StepRunsTheDecodedCommand
  intro s i rest h
  have hi := fetch_of_decode h
  refine ⟨fun pos hp => step_act hp hi, fun himp hp => ?_⟩
  have hv : verdict s = .silent i := by simp [verdict, hi, himp]
  rw [step_atChecks hp.symm, hv]
  rfl

/-! ## A reply -/

theorem afterTx_of_always {s : State} (h : s.env.tx = .always) (b : Byte) (p : Phase) :
    s.afterTx b p = { s with phase := p, trace := s.trace ++ [.tx b] } := by
  have henv : ({ s.env with tx := s.env.tx.spend } : Env) = s.env := by rw [h, Acceptance.spend, ← h]
  rw [State.afterTx, henv]

/-- Settles O8, by induction on the bytes of the reply. -/
theorem replyIsSentByteByByte : Obligations.ReplyIsSentByteByByte := by
  unfold Obligations.ReplyIsSentByteByByte
  intro s bytes hp hne htx
  induction bytes generalizing s with
  | nil => exact absurd rfl hne
  | cons b rest ih =>
    have hstep : step s = .next (s.afterTx b (if rest.isEmpty then .done else .sendReply rest)) := by
      rw [step_sendReply hp, sendReply_accepted (accepts_of_always htx), answered_some]
    rw [List.length_cons, core_run_succ hstep, afterTx_of_always htx]
    cases rest with
    | nil => rfl
    | cons c rest =>
      exact (ih { s with phase := .sendReply (c :: rest), trace := s.trace ++ [.tx b] } rfl (List.cons_ne_nil _ _)
        htx).trans (by simp)

/-! ## The checks on a complete frame -/

/-- A verification that starts from `P_CRC_INIT` leaves the accumulator as it was (40_dispatcher R142). -/
theorem verified_eq_goto {s : State} (h : s.crcAcc = Config.crcInit) (pass : Bool) :
    verified s pass = s.goto (if pass then .sendAck false else .sendNack) := by
  rw [verified, ← h]
  rfl

/-- Check (2). -/
theorem verdict_of_malformed {s : State} (h0 : byteAt s.frameBytes 0 = s.len) (hl : s.len.toNat < 5) :
    verdict s = .malformed := by
  simp [verdict, s.fetch_eq h0, Config.minFrameLen, hl]

/-- Check (3). -/
theorem verdict_of_unknown {s : State} (h0 : byteAt s.frameBytes 0 = s.len) (hl : 5 ≤ s.len.toNat)
    (hop : Opcode.ofByte (byteAt s.frameBytes 1) = none) : verdict s = .unknown (byteAt s.frameBytes 1) := by
  simp [verdict, s.fetch_eq h0, Config.minFrameLen, Nat.not_lt.mpr hl, hop]

section Known

variable {s : State} {op : Opcode} (h0 : byteAt s.frameBytes 0 = s.len) (hl : 5 ≤ s.len.toNat)
  (hop : Opcode.ofByte (byteAt s.frameBytes 1) = some op)
include h0 hl hop

/-- A frame of a known opcode and of its minimum length holds its command. -/
theorem fetch_of_known :
    s.fetch =
      if minLenOk op.format s.len.toNat s.frameBytes then .ok (operands op s.frameBytes) else .error .tooShort := by
  simp [s.fetch_eq h0, Config.minFrameLen, Nat.not_lt.mpr hl, hop]

/-- Check (4): an unimplemented command has no minimum length of its own. -/
theorem verdict_of_unimplemented (himp : op.implemented = false) : verdict s = .silent (operands op s.frameBytes) := by
  have hfmt : op.format = .fu := by simpa [Opcode.implemented] using himp
  simp [verdict, fetch_of_known h0 hl hop, hfmt, minLenOk, himp]

/-- Check (5). -/
theorem verdict_of_tooShort (hm : minLenOk op.format s.len.toNat s.frameBytes = false) : verdict s = .tooShort := by
  simp [verdict, fetch_of_known h0 hl hop, hm]

theorem verdict_of_minLenOk (himp : op.implemented = true) (hm : minLenOk op.format s.len.toNat s.frameBytes = true) :
    verdict s = .toVerify (operands op s.frameBytes) := by
  simp [verdict, fetch_of_known h0 hl hop, hm, himp]

end Known

/-- Settles O6: the verdict on the frame, check by check, and the step that each verdict makes. -/
theorem frameChecksComeInOrder : Obligations.FrameChecksComeInOrder := by
  unfold Obligations.FrameChecksComeInOrder
  rintro s ⟨hp, hc, h0, hcrc⟩ ha
  have hstep := step_atChecks (.inl ⟨hp, hc⟩)
  have hnack : ∀ q, answered s (sendNack (s.goto q)) = .next (s.afterTx 0x1F .done) :=
    fun q => by rw [sendNack_accepted (s := s.goto q) ha, afterTx_goto, answered_some]
  have hack : ∀ q, answered s (sendAckByte (s.goto q)) = .next (s.afterTx 0x79 (.sendAck true)) :=
    fun q => by rw [sendAckByte_accepted (s := s.goto q) ha, afterTx_goto, answered_some]
  simp only [verified_eq_goto hcrc, hnack, hack] at hstep
  refine ⟨fun hl => ?malformed, fun hl => ⟨fun hop => ?unknown, fun op hop => ⟨fun himp => ?unimplemented,
    fun himp => ⟨fun hm => ?tooShort, fun hm => ⟨fun hne => ?badCrc, fun heq => ?accepted⟩⟩⟩⟩⟩
  case malformed => rw [hstep, verdict_of_malformed h0 hl]
  case unknown =>
    rw [hstep, verdict_of_unknown h0 hl hop]
    rfl
  case unimplemented =>
    rw [hstep, verdict_of_unimplemented h0 hl hop himp]
    exact exec_of_not_implemented (by simpa using himp) _
  case tooShort => rw [hstep, verdict_of_tooShort h0 hl hop hm]
  case badCrc =>
    rw [hstep, verdict_of_minLenOk h0 hl hop himp hm]
    exact if_neg (mt (verifyData_pass_iff _ _ hcrc).mp hne)
  case accepted =>
    rw [hstep, verdict_of_minLenOk h0 hl hop himp hm]
    exact if_pos ((verifyData_pass_iff _ _ hcrc).mpr heq)

/-! ## Receiving -/

theorem step_awaitPayload {s : State} (h : s.phase = .awaitPayload) (hc : frameComplete s = false) :
    step s = answered s (receive s) := by
  simp [step, settle, h, hc]

theorem receive_byte {s : State} {b : Byte} {rest : List RxAnswer} (h : s.env.rx = .byte b :: rest) :
    receive s = some (storeByte b (s.withEnv { s.env with rx := rest })) := by
  rw [receive, h]

theorem receive_rxFail {s : State} {rest : List RxAnswer} (h : s.env.rx = .rxFail :: rest) :
    receive s = some { s with
      phase := if s.straps.nackOnRxFail then .sendNack else .done
      trace := s.trace ++ [.rxFailed], env := { s.env with rx := rest } } := by
  rw [receive, h]
  rfl

theorem receive_hold {s : State} (h : s.env.rx = []) : receive s = none := by
  rw [receive, h]

/-- Settles O4. -/
theorem lengthByteIsReceived : Obligations.LengthByteIsReceived := by
  unfold Obligations.LengthByteIsReceived
  intro s hp
  rw [step_awaitLength hp]
  refine ⟨fun b rest hrx => ?byte, fun rest hrx => ?failure, fun hrx => ?hold⟩
  case byte =>
    rw [receive_byte hrx]
    simp [storeByte, hp, State.emit, State.withEnv]
  case failure => rw [receive_rxFail hrx, answered_some]
  case hold => rw [receive_hold hrx, answered_none]

end Sys2Proof.Machine
end

section
/-! PROOF. Which steps receive, and which write the frame registers. From it: the bytes of a frame (O5), and that
exchanges do not overlap (O12). -/

namespace Sys2Proof.Machine

/-! ## Steps that receive nothing -/

/-- An event of the receive port. -/
def Event.isReceive : Event → Bool
  | .rx _ => true
  | .rxFailed => true
  | _ => false

/-- From `s` to `t` the receive port is not called: its answers are all still to come, and no event of it is
recorded. -/
structure Unreceived (s t : State) : Prop where
  rx    : t.env.rx = s.env.rx
  trace : t.trace = s.trace ∨ ∃ e, e.isReceive = false ∧ t.trace = s.trace ++ [e]

theorem Unreceived.refl (s : State) : Unreceived s s := ⟨rfl, .inl rfl⟩

/-- The trace does not grow by an event of the receive port. -/
theorem Unreceived.trace_ne {s t : State} (h : Unreceived s t) {e : Event} (he : e.isReceive = true) :
    t.trace ≠ s.trace ++ [e] := by
  intro ht
  rcases h.trace with h | ⟨e', he', h⟩
  · exact absurd (h.symm.trans ht) (by simp)
  · obtain rfl : e' = e := by simpa [h] using ht
    simp [he] at he'

theorem launchAt_unreceived (base : Word) (s : State) : Unreceived s (launchAt base s) := by
  rcases launchAt_cases base s with ⟨-, h⟩ | ⟨-, -, h⟩ | ⟨-, sp, pc, -, -, h⟩
  · rw [h]
    exact ⟨rfl, .inl rfl⟩
  · rw [h]
    exact ⟨rfl, .inl rfl⟩
  · rw [h]
    exact ⟨rfl, .inr ⟨_, rfl, rfl⟩⟩

theorem txByte_unreceived {b : Byte} {s t : State} (h : txByte b s = some t) : Unreceived s t := by
  obtain ⟨-, rfl⟩ := (txByte_eq_some_iff b s t).mp h
  exact ⟨rfl, .inr ⟨_, rfl, rfl⟩⟩

theorem Unreceived.goto {s t : State} (h : Unreceived s t) (p : Phase) : Unreceived s (t.goto p) := ⟨h.rx, h.trace⟩

theorem Unreceived.of_txByte {b : Byte} {s t : State} {p : Phase} (h : (txByte b s).map (·.goto p) = some t) :
    Unreceived s t := by
  obtain ⟨u, hu, rfl⟩ := Option.map_eq_some_iff.mp h
  exact (txByte_unreceived hu).goto p

theorem sendReply_unreceived {bytes : List Byte} {s t : State} (h : sendReply bytes s = some t) : Unreceived s t := by
  rcases (sendReply_eq_some_iff _ _ _).mp h with ⟨-, rfl⟩ | ⟨b, rest, u, -, hu, rfl⟩
  · exact ⟨rfl, .inl rfl⟩
  · exact (txByte_unreceived hu).goto _

/-- No command receives. -/
theorem execStep_unreceived {i : Instr} {s t : State} (h : ExecStep i s t) : Unreceived s t := by
  cases h with
  | reply _ h => exact sendReply_unreceived h
  | readId => exact ⟨rfl, .inr ⟨_, rfl, rfl⟩⟩
  | silent => exact ⟨rfl, .inl rfl⟩
  | status _ _ h => exact (txByte_unreceived h).goto _
  | launch => exact launchAt_unreceived _ s
  | writeUnlock _ _ h | eraseUnlock _ _ _ h =>
    obtain ⟨-, rfl⟩ := (flashUnlock_eq_some_iff _ _ _).mp h
    exact ⟨rfl, .inr ⟨_, rfl, rfl⟩⟩
  | writeProgram _ _ h =>
    obtain ⟨-, -, -, rfl⟩ := (flashProgramByte_eq_some_iff _ _ _ _ _).mp h
    exact ⟨rfl, .inr ⟨_, rfl, rfl⟩⟩
  | writeLock _ h | eraseLock _ _ h =>
    obtain ⟨-, rfl⟩ := (flashLock_eq_some_iff _ _ _).mp h
    exact ⟨rfl, .inr ⟨_, rfl, rfl⟩⟩
  | eraseCall _ _ h =>
    obtain ⟨-, -, -, rfl⟩ := (flashErase_eq_some_iff _ _ _ _).mp h
    exact ⟨rfl, .inr ⟨_, rfl, rfl⟩⟩
  | optUnlock _ _ _ h =>
    obtain ⟨-, rfl⟩ := (optUnlock_eq_some_iff _ _ _).mp h
    exact ⟨rfl, .inr ⟨_, rfl, rfl⟩⟩
  | optProgram _ _ h =>
    obtain ⟨-, rfl⟩ := (optProgram_eq_some_iff _ _ _ _).mp h
    exact ⟨rfl, .inr ⟨_, rfl, rfl⟩⟩
  | optLaunch _ _ h =>
    obtain ⟨-, rfl⟩ := (optLaunch_eq_some_iff _ _ _).mp h
    exact ⟨rfl, .inr ⟨_, rfl, rfl⟩⟩
  | optLock _ _ h =>
    obtain ⟨-, rfl⟩ := (optLock_eq_some_iff _ _ _).mp h
    exact ⟨rfl, .inr ⟨_, rfl, rfl⟩⟩

theorem exec_unreceived {i : Instr} {s t : State} (h : exec i s = .next t) : Unreceived s t := by
  rcases exec_next h with rfl | h
  · exact .refl _
  · exact execStep_unreceived h

/-- The block waits for the next byte of a frame. -/
def awaitsByte (s : State) : Prop := s.phase = .awaitLength ∨ (s.phase = .awaitPayload ∧ frameComplete s = false)

/-- Where the block does not wait for a byte of a frame, its step receives none (40_dispatcher R146). -/
theorem step_unreceived {s t : State} (h : step s = .next t) (hw : ¬ awaitsByte s) : Unreceived s t := by
  rcases step_next h with rfl | h
  · exact .refl _
  · cases h with
    | boot => exact launchAt_unreceived _ s
    | receive hp => exact absurd hp hw
    | unknown => exact ⟨rfl, .inr ⟨_, rfl, rfl⟩⟩
    | silent _ _ h =>
      obtain ⟨hrx, htrace⟩ := exec_unreceived h
      exact ⟨hrx, htrace⟩
    | nack _ h | ackByte _ h | ackLen _ _ h => exact .of_txByte h
    | reject _ _ h | badCrc _ h | accept _ h =>
      obtain ⟨hrx, htrace⟩ := Unreceived.of_txByte h
      exact ⟨hrx, htrace⟩
    | act _ _ h => exact exec_unreceived h
    | reply _ h => exact sendReply_unreceived h
    | done => exact ⟨rfl, .inl rfl⟩

/-! ## Steps that keep the frame -/

/-- Only a received byte and `Done` write the frame registers (40_dispatcher R132, R133, R139). -/
theorem step_keeps_frameRegisters {s t : State} (h : step s = .next t) (hw : ¬ awaitsByte s) (hd : s.phase ≠ .done) :
    FrameKept s t := by
  rcases step_split h with rfl | h | ⟨i, -, -, h⟩
  · exact ⟨rfl, rfl, rfl⟩
  · cases h with
    | boot => exact (launchAt_keeps _ s).1
    | store hp => exact absurd hp hw
    | call _ _ hk => exact hk
    | silent => exact ⟨rfl, rfl, rfl⟩
    | done hp => exact absurd hp hd
  · exact (execStep_keeps h).1

/-- Settles O5. The index is inside the buffer because a frame is at most 256 bytes long. -/
theorem payloadBytesAreReceived : Obligations.PayloadBytesAreReceived := by
  unfold Obligations.PayloadBytesAreReceived
  intro s hp
  refine ⟨fun hlt => ?_, fun hle t h => ?complete⟩
  · rw [step_awaitPayload hp (by simpa [frameComplete] using hlt)]
    refine ⟨fun b rest hrx => ?byte, ?index, fun rest hrx => ?failure, fun hrx => ?hold⟩
    case byte =>
      rw [receive_byte hrx]
      simp [storeByte, hp, State.emit, State.withEnv]
    case index =>
      have hlen := s.len.isLt
      show s.rxcnt.toNat < 256
      omega
    case failure => rw [receive_rxFail hrx, answered_some]
    case hold => rw [receive_hold hrx, answered_none]
  case complete =>
    have hw : ¬ awaitsByte s := by simp [awaitsByte, hp, frameComplete, hle]
    exact ⟨(step_unreceived h hw).rx, (step_keeps_frameRegisters h hw (by simp [hp])).buf⟩

/-! ## Exchanges do not overlap -/

/-- What the receive port answers is recorded as an event of that port. -/
theorem receive_trace {s t : State} (h : receive s = some t) :
    ∃ e, e.isReceive = true ∧ t.trace = s.trace ++ [e] := by
  unfold receive at h
  split at h
  · cases h
  · cases h
    exact ⟨_, rfl, (storeByte_calls _ _ s).trace⟩
  · cases h
    exact ⟨_, rfl, rfl⟩

/-- While the block awaits a frame's first byte its step receives or does nothing. -/
theorem trace_ne_of_awaitLength {s t : State} (h : step s = .next t) (hp : s.phase = .awaitLength) {e : Event}
    (he : e.isReceive = false) : t.trace ≠ s.trace ++ [e] := by
  intro ht
  rw [step_awaitLength hp, answered_eq_next_iff] at h
  rcases h with ⟨-, rfl⟩ | h
  · simp at ht
  · obtain ⟨e', he', h⟩ := receive_trace h
    obtain rfl : e' = e := by simpa [h] using ht
    simp [he] at he'

/-- The block comes to await a frame from `Done` only (40_dispatcher R139). -/
theorem done_of_enters_awaitLength {s t : State} (h : step s = .next t) (ht : t.phase = .awaitLength)
    (hs : s.phase ≠ .awaitLength) : s.phase = .done := by
  rcases step_split h with rfl | h | ⟨i, hp, -, h⟩
  · exact absurd ht hs
  · cases h with
    | boot =>
      rcases launchAt_phase s.straps.appBase s with ⟨r, h⟩ | h
      · simp [h] at ht
      · simp [h] at ht
    | store hp => simp [storeByte_phase hp] at ht
    | call _ _ _ _ hr =>
      rw [ht] at hr
      cases hr
    | silent => simp at ht
    | done hp => exact hp
  · rcases execStep_after hp h with ⟨r, rfl⟩ | h
    · simp at ht
    · cases h with
      | done h | launched h | reply h | act h => simp [h] at ht

/-- Settles O12. -/
theorem exchangesNeverOverlap : Obligations.ExchangesNeverOverlap := by
  unfold Obligations.ExchangesNeverOverlap
  intro s t h
  refine ⟨fun hl hp => ?_, fun hp b => trace_ne_of_awaitLength h hp rfl, done_of_enters_awaitLength h⟩
  have hr := step_unreceived h (by simp [awaitsByte, hl, hp])
  exact ⟨hr.rx, fun b => hr.trace_ne rfl, hr.trace_ne rfl⟩

end Sys2Proof.Machine
end

section
/-! PROOF. What the commands leave alone (O43). -/

namespace Sys2Proof.Machine

/-! ## What a command leaves alone -/

/-- No command writes a platform input (10_state R36). -/
theorem execStep_keeps_straps {i : Instr} {s t : State} (h : ExecStep i s t) : t.straps = s.straps := by
  rcases execStep_calls h with ⟨r, rfl⟩ | rfl | ⟨e, h, -⟩
  · rfl
  · rfl
  · exact h.straps

theorem sendReply_keeps_fault {bytes : List Byte} {s t : State} (h : sendReply bytes s = some t) :
    t.fault = s.fault := by
  rcases (sendReply_eq_some_iff _ _ _).mp h with ⟨-, rfl⟩ | ⟨b, rest, u, -, hu, rfl⟩
  · rfl
  · exact (txByte_calls hu).fault

/-- Only a launch raises a fault. -/
theorem execStep_keeps_fault {i : Instr} {s t : State} (h : ExecStep i s t) (hgo : ∀ addr, i ≠ .goToAddress addr) :
    t.fault = s.fault := by
  cases h with
  | reply _ h => exact sendReply_keeps_fault h
  | readId | silent => rfl
  | status _ _ hu => exact (txByte_calls hu).fault
  | launch => exact absurd rfl (hgo _)
  | writeUnlock _ _ hu | eraseUnlock _ _ _ hu => exact (flashUnlock_calls hu).fault
  | writeProgram _ _ hu => exact (flashProgramByte_calls hu).fault
  | writeLock _ hu | eraseLock _ _ hu => exact (flashLock_calls hu).fault
  | eraseCall _ _ hu => exact (flashErase_calls hu).fault
  | optUnlock _ _ _ hu => exact (optUnlock_calls hu).fault
  | optProgram _ _ hu => exact (optProgram_calls hu).fault
  | optLaunch _ _ hu => exact (optLaunch_calls hu).fault
  | optLock _ _ hu => exact (optLock_calls hu).fault

theorem sendReply_keeps_platform {bytes : List Byte} {s t : State} (h : sendReply bytes s = some t) :
    PlatformKept s t := by
  rcases (sendReply_eq_some_iff _ _ _).mp h with ⟨-, rfl⟩ | ⟨b, rest, u, -, hu, rfl⟩
  · exact ⟨rfl, rfl, rfl, rfl, rfl⟩
  · exact platformKept_of_quiet rfl ((txByte_calls hu).goto _).effect

theorem launchAt_keeps_platform (base : Word) (s : State) : PlatformKept s (launchAt base s) := by
  rcases launchAt_calls base s with ⟨r, h⟩ | ⟨sp, pc, h, -⟩
  · rw [h]
    exact ⟨rfl, rfl, rfl, rfl, rfl⟩
  · exact platformKept_of_quiet rfl h.effect

/-- A command with no flash and no option call in its recipe: an information command, an unimplemented one, or
GO_TO_ADDRESS. -/
def callsNoController (i : Instr) : Prop :=
  i.opcode.implemented = false ∨ i = .getHelp ∨ i = .getVersion ∨ i = .getId ∨ ∃ addr, i = .goToAddress addr

theorem chainCfg_of_callsNoController {i : Instr} (h : callsNoController i) : chainCfg i = none := by
  cases i with
  | writeProtect | writeUnprotect | readoutProtect | readoutUnprotect =>
    exact absurd h (by simp [callsNoController, Instr.opcode, Opcode.implemented, Opcode.format])
  | _ => rfl

/-- Such a command writes no control register, no option field and no memory. -/
theorem execStep_keeps_platform {i : Instr} {s t : State} (h : ExecStep i s t) (hi : callsNoController i) :
    PlatformKept s t := by
  have hchain := chainCfg_of_callsNoController hi
  cases h with
  | reply _ h => exact sendReply_keeps_platform h
  | readId | silent => exact ⟨rfl, rfl, rfl, rfl, rfl⟩
  | status _ _ hu => exact platformKept_of_quiet rfl ((txByte_calls hu).goto _).effect
  | launch => exact launchAt_keeps_platform _ s
  | writeUnlock | writeProgram | writeLock | eraseUnlock | eraseCall | eraseLock =>
    exact absurd hi (by simp [callsNoController, Instr.opcode, Opcode.implemented, Opcode.format])
  | optUnlock hc | optProgram hc | optLaunch hc | optLock hc => exact absurd (hchain.symm.trans hc) (by simp)

/-- Settles O43, by what one step of a command can do. -/
theorem commandsLeaveTheFrameAlone : Obligations.CommandsLeaveTheFrameAlone := by
  unfold Obligations.CommandsLeaveTheFrameAlone
  intro i s t h
  rcases exec_next h with rfl | h
  · exact ⟨⟨rfl, rfl, rfl, rfl, rfl⟩, fun _ => ⟨rfl, rfl, rfl, rfl, rfl⟩, fun _ => rfl⟩
  · obtain ⟨⟨hbuf, hlen, hrxcnt⟩, hcrc⟩ := execStep_keeps h
    refine ⟨⟨hbuf, hlen, hrxcnt, hcrc, execStep_keeps_straps h⟩, fun hi => ?_, execStep_keeps_fault h⟩
    obtain ⟨hflash, hoptCtl, hopt, hstaged, hmem⟩ := execStep_keeps_platform h hi
    exact ⟨hflash, hoptCtl, hopt, hstaged, hmem⟩

end Sys2Proof.Machine
end

section
/-! PROOF. How an exchange ends: with one of the four outcomes (O13). -/

namespace Sys2Proof.Machine

/-! ## What the pure computation keeps -/

theorem settle_eq (s : State) : settle s = { s with crcAcc := (settle s).crcAcc, phase := (settle s).phase } := by
  rcases settle_cases s with ⟨h, -⟩ | ⟨-, -, h⟩ | ⟨-, -, h⟩ | ⟨-, pass, h⟩ <;> rw [h] <;> rfl

theorem settle_trace (s : State) : (settle s).trace = s.trace := by rw [settle_eq]

theorem settle_straps (s : State) : (settle s).straps = s.straps := by rw [settle_eq]

theorem settle_verdict (s : State) : verdict (settle s) = verdict s := by rw [settle_eq]; rfl

/-- Where the pure computation changes something, a NACK, a diagnostic call, a silent end or an ACK comes next. -/
theorem settle_eq_self_or (s : State) :
    settle s = s ∨ (settle s).phase = .sendNack ∨ (settle s).phase = .dispatch ∨ (settle s).phase = .sendAck false := by
  rcases settle_cases s with ⟨h, -⟩ | ⟨-, -, h⟩ | ⟨-, -, h⟩ | ⟨-, pass, h⟩
  · exact .inl h
  · exact .inr (.inl (by rw [h]; rfl))
  · exact .inr (.inr (.inl (by rw [h]; rfl)))
  · rw [h]
    cases pass with
    | false => exact .inr (.inl rfl)
    | true => exact .inr (.inr (.inr rfl))

/-! ## How a step ends an exchange -/

/-- A step that ends an exchange: it leaves the block in `Done`, or it launched. -/
def State.ended (t : State) : Prop := t.phase = .done ∨ t.phase = .launched

/-- What each outcome says of the step from `s` to `t`, whose command is in the buffer (40_dispatcher R145). -/
def ExchangeOutcome.describes (s t : State) : ExchangeOutcome → Prop
  | .nack => t.trace = s.trace ++ [.tx 0x1F] ∨ (t.trace = s.trace ++ [.rxFailed] ∧ s.straps.nackOnRxFail = false)
  | .silent => t.trace = s.trace ∧ ∃ i, s.fetch = .ok i ∧ i.opcode.implemented = false
  | .acked => ∃ i b, s.fetch = .ok i ∧ i.opcode.implemented = true ∧ t.trace = s.trace ++ [.tx b]
  | .launched => ∃ sp pc, t.trace = s.trace ++ [.launch sp pc]

/-- No step starts where an exchange has ended and ends one there. -/
theorem not_ended_of_step_self {s : State} (h : step s = .next s) : ¬ s.ended := by
  rintro (hp | hp)
  · rw [step_done hp] at h
    have hq : s.nextExchange.phase = s.phase := congrArg State.phase (Host.Outcome.next.inj h)
    simp [hp] at hq
  · rw [step_launched hp] at h
    cases h

theorem trace_of_txByte_goto {b : Byte} {s t : State} {p : Phase} (h : (txByte b s).map (·.goto p) = some t) :
    t.trace = s.trace ++ [.tx b] ∧ t.phase = p := by
  obtain ⟨u, hu, rfl⟩ := Option.map_eq_some_iff.mp h
  exact ⟨(txByte_calls hu).trace, rfl⟩

/-- The one way in which a receive ends an exchange (40_dispatcher R136). -/
theorem receive_ended {s t : State} (hw : s.phase = .awaitLength ∨ s.phase = .awaitPayload) (h : receive s = some t)
    (ht : t.ended) : t.phase = .done ∧ t.trace = s.trace ++ [.rxFailed] ∧ s.straps.nackOnRxFail = false := by
  unfold receive at h
  split at h
  · cases h
  · cases h
    rcases hw with hw | hw <;> simp [State.ended, storeByte, hw] at ht
  · cases h
    cases hn : s.straps.nackOnRxFail with
    | false => exact ⟨by simp [rxFailure, hn], rfl, rfl⟩
    | true => simp [State.ended, rxFailure, hn] at ht

/-- A launch ends the exchange with its event, unless it raises a fault. -/
theorem launchAt_ended {base : Word} {s : State} (ht : (launchAt base s).ended) :
    (launchAt base s).phase = .launched ∧ ∃ sp pc, (launchAt base s).trace = s.trace ++ [.launch sp pc] := by
  rcases launchAt_calls base s with ⟨r, h⟩ | ⟨sp, pc, h, hp⟩
  · rw [h] at ht
    simp [State.ended] at ht
  · exact ⟨hp, sp, pc, h.trace⟩

/-- The last byte of a reply ends the exchange. -/
theorem sendReply_ended {bytes : List Byte} {s t : State} (hb : bytes ≠ []) (h : sendReply bytes s = some t)
    (ht : t.ended) : t.phase = .done ∧ ∃ b, t.trace = s.trace ++ [.tx b] := by
  rcases (sendReply_eq_some_iff _ _ _).mp h with ⟨hn, -⟩ | ⟨b, rest, u, -, hu, rfl⟩
  · exact absurd hn hb
  · cases rest with
    | nil => exact ⟨rfl, b, (txByte_calls hu).trace⟩
    | cons c rest => simp [State.ended] at ht

/-- An implemented command ends the exchange with the last byte of its reply or with a launch. -/
theorem execStep_ended {i : Instr} {s t : State} (h : ExecStep i s t) (himp : i.opcode.implemented = true)
    (ht : t.ended) :
    (t.phase = .done ∧ ∃ b, t.trace = s.trace ++ [.tx b]) ∨
      (t.phase = .launched ∧ ∃ sp pc, t.trace = s.trace ++ [.launch sp pc]) := by
  cases h with
  | reply hb h => exact .inl (sendReply_ended hb h ht)
  | silent hn => simp [himp] at hn
  | launch => exact .inr (launchAt_ended ht)
  | _ => simp [State.ended] at ht

/-- The step from `s` to `t` has an outcome, and what it says is so. -/
def hasOutcome (s t : State) : Prop := ∃ o, exchangeOutcome s t = some o ∧ o.describes s t

theorem hasOutcome_of_launch {s t : State} {sp pc : Word} (hp : t.phase = .launched)
    (htrace : t.trace = s.trace ++ [.launch sp pc]) : hasOutcome s t :=
  ⟨.launched, by simp [exchangeOutcome, hp], sp, pc, htrace⟩

/-- A command that is acted on ends its exchange acknowledged or launched. -/
theorem hasOutcome_of_act {s t : State} {op : Opcode} {pos : ActPos} (hp : s.phase = .act op pos)
    (hcmd : s.commandInv) (h : step s = .next t) (hself : t ≠ s) (ht : t.ended) : hasOutcome s t := by
  simp only [State.commandInv, hp] at hcmd
  obtain ⟨i, hi, himp, rfl, -⟩ := hcmd
  rw [step_act hp hi] at h
  rcases execStep_ended ((exec_next h).resolve_left hself) himp ht with ⟨hq, b, htrace⟩ | ⟨hq, sp, pc, htrace⟩
  · exact ⟨.acked, by simp [exchangeOutcome, hq, settle, hp], i, b, hi, himp, htrace⟩
  · exact hasOutcome_of_launch hq htrace

/-- The last byte of a reply ends an exchange that was acknowledged. -/
theorem hasOutcome_of_sendReply {s t : State} {bytes : List Byte} (hp : s.phase = .sendReply bytes)
    (hcmd : s.commandInv) (h : sendReply bytes s = some t) (ht : t.ended) : hasOutcome s t := by
  simp only [State.commandInv, hp] at hcmd
  obtain ⟨hne, i, hi, himp⟩ := hcmd
  obtain ⟨hq, b, htrace⟩ := sendReply_ended hne h ht
  exact ⟨.acked, by simp [exchangeOutcome, hq, settle, hp], i, b, hi, himp, htrace⟩

/-- In a state of the invariant a step that ends an exchange has an outcome: by the phase that the pure computation
comes to, which says what port call the step makes. -/
theorem hasOutcome_of_ended {s t : State} (hcmd : s.commandInv) (h : step s = .next t) (ht : t.ended) :
    hasOutcome s t := by
  have hself : t ≠ s := fun hts => not_ended_of_step_self (hts ▸ h) (hts ▸ ht)
  have hanswer : ∀ {r}, answered s r = .next t → r = some t := fun hr =>
    ((answered_eq_next_iff s t _).mp hr).resolve_left fun hn => hself hn.2
  have hstep := h
  unfold step at h
  cases hp : (settle s).phase with
  | bootLaunch =>
    simp only [hp] at h
    cases h
    obtain ⟨hq, sp, pc, htrace⟩ := launchAt_ended ht
    exact hasOutcome_of_launch hq (by rw [htrace, settle_trace])
  | awaitLength | awaitPayload =>
    simp only [hp] at h
    obtain ⟨hq, htrace, hn⟩ := receive_ended (by simp [hp]) (hanswer h) ht
    rw [settle_trace] at htrace
    rw [settle_straps] at hn
    exact ⟨.nack, by simp [exchangeOutcome, hq, hp], .inr ⟨htrace, hn⟩⟩
  | dispatch =>
    simp only [hp] at h
    split at h
    · cases h
      simp [State.ended, diagUnknown] at ht
    · next i hv =>
      obtain ⟨hi, himp⟩ := verdict_silent (settle_verdict s ▸ hv)
      rw [exec_of_not_implemented himp] at h
      cases h
      exact ⟨.silent, by simp [exchangeOutcome, hp], settle_trace s, i, hi, himp⟩
    · cases h
  | sendNack =>
    simp only [hp] at h
    obtain ⟨htrace, hq⟩ := trace_of_txByte_goto (hanswer h)
    exact ⟨.nack, by simp [exchangeOutcome, hq, hp], .inl (by rw [htrace, settle_trace]; rfl)⟩
  | sendAck sent =>
    cases sent with
    | false =>
      simp only [hp] at h
      simp [State.ended, (trace_of_txByte_goto (hanswer h)).2] at ht
    | true =>
      simp only [hp] at h
      split at h
      · simp [State.ended, (trace_of_txByte_goto (hanswer h)).2] at ht
      · cases h
  | act op pos =>
    have hs : settle s = s := by simpa [hp] using settle_eq_self_or s
    exact hasOutcome_of_act (hs ▸ hp) hcmd hstep hself ht
  | sendReply bytes =>
    have hs : settle s = s := by simpa [hp] using settle_eq_self_or s
    simp only [hp] at h
    rw [hs] at h hp
    exact hasOutcome_of_sendReply hp hcmd (hanswer h) ht
  | done =>
    simp only [hp] at h
    cases h
    simp [State.ended] at ht
  | verify | launched | faulted => simp [hp] at h

/-- Settles O13, by the outcome of a step that ends an exchange. -/
theorem everyExchangeEndsWithOneOutcome : Obligations.EveryExchangeEndsWithOneOutcome := by
  unfold Obligations.EveryExchangeEndsWithOneOutcome
  intro s t hinv h ht
  obtain ⟨o, ho, hd⟩ := hasOutcome_of_ended hinv.command h ht
  exact ⟨o, ho, by rintro rfl; exact hd, by rintro rfl; exact hd, by rintro rfl; exact hd, by rintro rfl; exact hd⟩

end Sys2Proof.Machine
end

section
/-! PROOF. The address validator (O14), the launcher (O15) and the final states (O16). -/

namespace Sys2Proof.Machine

/-! ## The windows -/

/-- `Classify` and the memory agree on what the windows hold (41_engines R170, 10_state R34). -/
theorem classify_eq_valid_iff (a : Word) : classify a = .valid ↔ mapped a.toNat = true := by
  rw [show classify a = if mapped a.toNat then .valid else .invalid from rfl]
  cases mapped a.toNat <;> simp

theorem mapped_of_classify_invalid {a : Word} (h : classify a = .invalid) : mapped a.toNat = false := by
  rw [← Bool.not_eq_true, ← classify_eq_valid_iff, h]
  exact Classification.noConfusion

/-- Settles O14: each window by its bounds. -/
theorem classifyIsWindowMembership : Obligations.ClassifyIsWindowMembership := by
  unfold Obligations.ClassifyIsWindowMembership
  intro a
  rw [classify_eq_valid_iff, mapped, Bool.or_eq_true, Bool.or_eq_true, Memory.ramA_contains_iff,
    Memory.ramB_contains_iff, Memory.flash_contains_iff, or_assoc]

/-! ## Reading a word -/

/-- A word one of whose bytes has no value has none (20_memory R62). -/
theorem Memory.read32_eq_none {m : Memory} {a : Word} {k : Nat} (hk : k < 4)
    (h : m.byte (a + BitVec.ofNat 32 k) = none) : m.read32 a = none := by
  unfold read32
  split
  · next h0 h1 h2 h3 =>
    interval_cases k
    · rw [BitVec.add_zero] at h
      exact absurd (h.symm.trans h0) (by simp)
    · exact absurd (h.symm.trans h1) (by simp)
    · exact absurd (h.symm.trans h2) (by simp)
    · exact absurd (h.symm.trans h3) (by simp)
  · rfl

/-- A word whose four bytes have values is their little-endian word (20_memory R61). -/
theorem Memory.read32_eq_some {m : Memory} {a : Word} {b : Nat → Byte}
    (h : ∀ k < 4, m.byte (a + BitVec.ofNat 32 k) = some (b k)) :
    m.read32 a = some (le32 (b 0) (b 1) (b 2) (b 3)) := by
  have h0 : m.byte a = some (b 0) := by simpa using h 0 (by omega)
  have h1 : m.byte (a + 1) = some (b 1) := h 1 (by omega)
  have h2 : m.byte (a + 2) = some (b 2) := h 2 (by omega)
  have h3 : m.byte (a + 3) = some (b 3) := h 3 (by omega)
  rw [read32, h0, h1, h2, h3]

/-- The bytes of the entry region's second word. -/
theorem add_four_add_ofNat (base : Word) (k : Nat) :
    base + 4 + BitVec.ofNat 32 k = base + BitVec.ofNat 32 (4 + k) := by
  rw [BitVec.add_assoc, BitVec.ofNat_add]
  rfl

/-! ## The launch -/

theorem launchAt_misaligned {base : Word} (h : base.toNat % 4 ≠ 0) (s : State) :
    launchAt base s = s.raise (.misalignedLaunch base) := by
  rw [launchAt, if_pos h]

/-- An aligned launch over an entry region one of whose 8 bytes has no value faults (41_engines R200). -/
theorem launchAt_unreadable {base : Word} {s : State} (hb : base.toNat % 4 = 0) {k : Nat} (hk : k < 8)
    (h : s.mem.byte (base + BitVec.ofNat 32 k) = none) : launchAt base s = s.raise (.launchRead base) := by
  have hword : s.mem.read32 base = none ∨ s.mem.read32 (base + 4) = none := by
    by_cases hlow : k < 4
    · exact .inl (Memory.read32_eq_none hlow h)
    · refine .inr (Memory.read32_eq_none (k := k - 4) (by omega) ?_)
      rwa [add_four_add_ofNat, Nat.add_sub_cancel' (by omega)]
  rcases launchAt_cases base s with ⟨hn, -⟩ | ⟨-, -, h⟩ | ⟨-, sp, pc, hsp, hpc, -⟩
  · exact absurd hb hn
  · exact h
  · rcases hword with h | h
    · exact absurd (h.symm.trans hsp) (by simp)
    · exact absurd (h.symm.trans hpc) (by simp)

/-- An aligned launch over a readable entry region transfers control with its two words (41_engines R200). -/
theorem launchAt_readable {base : Word} {s : State} (hb : base.toNat % 4 = 0) {b : Nat → Byte}
    (h : ∀ k < 8, s.mem.byte (base + BitVec.ofNat 32 k) = some (b k)) :
    launchAt base s =
      (s.emit (.launch (le32 (b 0) (b 1) (b 2) (b 3)) (le32 (b 4) (b 5) (b 6) (b 7)))).goto .launched := by
  have hsp : s.mem.read32 base = some (le32 (b 0) (b 1) (b 2) (b 3)) :=
    Memory.read32_eq_some fun k hk => h k (by omega)
  have hpc : s.mem.read32 (base + 4) = some (le32 (b 4) (b 5) (b 6) (b 7)) :=
    Memory.read32_eq_some (b := fun k => b (4 + k)) fun k hk => by
      rw [add_four_add_ofNat]
      exact h (4 + k) (by omega)
  rw [launchAt, if_neg (by simp [hb]), hsp, hpc]
  rfl

/-- Settles O15, case by case of the launch. -/
theorem launchReadsEntryRegion : Obligations.LaunchReadsEntryRegion := by
  unfold Obligations.LaunchReadsEntryRegion
  intro base s
  exact ⟨fun hb => launchAt_misaligned hb s,
    fun hb => ⟨fun k hk h => launchAt_unreadable hb hk h, fun b h => launchAt_readable hb h⟩,
    fun a ha => Memory.read_unmapped (mapped_of_classify_invalid ha)⟩

/-- Settles O16. -/
theorem finalStatesHaveNoStep : Obligations.FinalStatesHaveNoStep := by
  unfold Obligations.FinalStatesHaveNoStep
  exact fun s => ⟨step_launched, fun r => step_faulted⟩

end Sys2Proof.Machine
end

section
/-! PROOF. The flash port's program call (O17), erase requests (O18, O19) and the erase call (O20). -/

namespace Sys2Proof.Machine

/-! ## Programming a byte -/

theorem mapped_of_ram {a : Nat} (h : Config.ramA.contains a = true ∨ Config.ramB.contains a = true) :
    mapped a = true := by
  rcases h with h | h <;> simp [mapped, h]

/-- The RAM windows and the flash window do not meet (10_state R34). -/
theorem flash_of_ram {a : Nat} (h : Config.ramA.contains a = true ∨ Config.ramB.contains a = true) :
    Config.flash.contains a = false := by
  rw [Memory.ramA_contains_iff, Memory.ramB_contains_iff] at h
  rw [← Bool.not_eq_true, Memory.flash_contains_iff]
  omega

/-- A program of an address outside the windows has no effect (41_engines R176). -/
theorem Memory.program_unmapped (m : Memory) {a : Word} (v : Byte) (h : mapped a.toNat = false) :
    m.program a v = m := by
  have hf : Config.flash.contains a.toNat = false := by
    by_contra hf
    rw [mapped_of_flash (Bool.not_eq_false _ ▸ hf)] at h
    exact Bool.noConfusion h
  simp [program, hf, write, h]

theorem programResult_erased (v : Byte) : programResult 0xFF v = v := if_pos rfl

/-- A program of an unprotected byte takes place, or has failed and left the byte (41_engines R176). -/
theorem programEffect_unprotected (m : Memory) {wrp : Byte} {a : Word} (v : Byte) (r : PortResult) (took : Bool)
    (h : protectedByte wrp a.toNat = false) :
    programEffect m wrp a v r took = m.program a v ∨ (r = .fail ∧ programEffect m wrp a v r took = m) := by
  cases r with
  | ok => simp [programEffect, h]
  | fail => cases took <;> simp [programEffect, h]

/-- What a program of an unprotected byte leaves there, where `w` is what it leaves when it takes place. -/
theorem byte_programEffect {m : Memory} {wrp : Byte} {a : Word} {v w : Byte} (r : PortResult) (took : Bool)
    (h : protectedByte wrp a.toNat = false) (hw : (m.program a v).byte a = some w) :
    (r = .ok → (programEffect m wrp a v r took).byte a = some w) ∧
    (r = .fail → (programEffect m wrp a v r took).byte a = m.byte a ∨
      (programEffect m wrp a v r took).byte a = some w) := by
  rcases programEffect_unprotected m v r took h with he | ⟨rfl, he⟩
  · exact he ▸ ⟨fun _ => hw, fun _ => .inr hw⟩
  · exact ⟨fun hr => PortResult.noConfusion hr, fun _ => .inl (congrArg (Memory.byte · a) he)⟩

/-- Settles O17, by whether the byte is protected and by the window it lies in. -/
theorem programByteEffect : Obligations.ProgramByteEffect := by
  unfold Obligations.ProgramByteEffect
  intro a v s t r drawn hdrawn h
  obtain ⟨drawn', hdrawn', hr, rfl⟩ := (flashProgramByte_eq_some_iff a v s t r).mp h
  obtain rfl : drawn = drawn' := by simpa [hdrawn] using hdrawn'
  refine ⟨fun hp => ⟨hr.trans (programAnswer_protected drawn hp), programEffect_protected _ _ _ _ hp⟩,
    fun hp => ⟨hr.trans (programAnswer_unprotected drawn hp), fun old hf hold => ?flash, fun hram => ?ram,
      fun ha => ?outside⟩,
    fun b hb => read_programEffect_ne _ _ _ _ _ _ hb, programResult_erased v, rfl⟩
  case flash => exact hold ▸ byte_programEffect r _ hp (Memory.read_program_flash _ _ _ hf hold)
  case ram => exact byte_programEffect r _ hp (Memory.read_program_ram _ _ (mapped_of_ram hram) (flash_of_ram hram))
  case outside =>
    rcases programEffect_unprotected s.mem v r (Config.programTook s.env.draws) hp with h | ⟨-, h⟩
    · exact h.trans (Memory.program_unmapped _ _ (mapped_of_classify_invalid ha))
    · exact h

/-! ## Choosing the erase request -/

/-- `eraseRequest` with the sector table's numbers written out. -/
theorem eraseRequest_eq (sector count : Byte) :
    eraseRequest sector count =
      if 8 < count.toNat then none
      else if sector = 0xFF then some .mass
      else if sector.toNat < 8 then
        some (.sectors sector (BitVec.ofNat 8 (min count.toNat (8 - sector.toNat))))
      else none := rfl

theorem eraseRequest_count_above (sector : Byte) {count : Byte} (h : 8 < count.toNat) :
    eraseRequest sector count = none := by
  rw [eraseRequest_eq, if_pos h]

theorem eraseRequest_mass {count : Byte} (h : count.toNat ≤ 8) : eraseRequest 0xFF count = some .mass := by
  rw [eraseRequest_eq, if_neg (Nat.not_lt.mpr h), if_pos rfl]

/-- An erase of a sector of the table is clamped to the end of the table (41_engines R178). -/
theorem eraseRequest_sectors {sector count : Byte} (h : count.toNat ≤ 8) (hs : sector.toNat < 8) :
    eraseRequest sector count =
      some (.sectors sector (BitVec.ofNat 8 (min count.toNat (8 - sector.toNat)))) := by
  have hm : sector ≠ 0xFF := by
    rintro rfl
    exact absurd hs (by decide)
  rw [eraseRequest_eq, if_neg (Nat.not_lt.mpr h), if_neg hm, if_pos hs]

theorem eraseRequest_sector_above {sector count : Byte} (hs : 8 ≤ sector.toNat) (hm : sector ≠ 0xFF) :
    eraseRequest sector count = none := by
  rw [eraseRequest_eq, if_neg hm, if_neg (Nat.not_lt.mpr hs), ite_self]

/-- Settles O18. -/
theorem eraseRequestIsChosen : Obligations.EraseRequestIsChosen := by
  unfold Obligations.EraseRequestIsChosen
  exact fun sector count => ⟨eraseRequest_count_above sector,
    fun hc => ⟨fun hs => hs ▸ eraseRequest_mass hc, eraseRequest_sectors hc, eraseRequest_sector_above⟩⟩

/-- A request for sectors comes from a count and a sector within the table, and its count is the clamped one. -/
theorem eraseRequest_eq_sectors {sector count first n : Byte}
    (h : eraseRequest sector count = some (.sectors first n)) :
    count.toNat ≤ 8 ∧ sector.toNat < 8 ∧ first = sector ∧
      n = BitVec.ofNat 8 (min count.toNat (8 - sector.toNat)) := by
  rw [eraseRequest_eq] at h
  split at h
  · exact absurd h (by simp)
  · next hc =>
    split at h
    · exact absurd h (by simp)
    · split at h
      · next hs =>
        cases h
        exact ⟨Nat.not_lt.mp hc, hs, rfl, rfl⟩
      · exact absurd h (by simp)

/-- Settles O19: the clamped count is exact, and sectors of the table are flash. -/
theorem eraseClampStaysInTable : Obligations.EraseClampStaysInTable := by
  unfold Obligations.EraseClampStaysInTable
  intro sector count first n h
  obtain ⟨hc, hs, rfl, rfl⟩ := eraseRequest_eq_sectors h
  have hn : (BitVec.ofNat 8 (min count.toNat (8 - first.toNat))).toNat = min count.toNat (8 - first.toNat) := by
    rw [BitVec.toNat_ofNat, Nat.mod_eq_of_lt (by omega)]
  exact ⟨rfl, by omega, by omega, fun a ha => (Memory.flash_contains_iff a).mp (Memory.flash_of_covers ha)⟩

/-! ## The erase call -/

/-- An erase that answers `P_ERASE_OK` erases its request (41_engines R179). -/
theorem read_eraseEffect_ok (m : Memory) (wrp : Byte) (req : EraseReq) (took : Nat → Bool) (a : Nat) :
    (eraseEffect m wrp req Config.eraseOk took).read a = if req.covers a then some 0xFF else m.read a := by
  rw [eraseEffect, if_pos rfl, Memory.read_eraseWhere]
  by_cases hc : req.covers a = true
  · rw [hc, Memory.flash_of_covers hc]
    rfl
  · simp [hc]

/-- Any other erase leaves each byte or erases it, and leaves those it may not touch (41_engines R179). -/
theorem read_eraseEffect_failed (m : Memory) {wrp : Byte} {req : EraseReq} {word : Word} (took : Nat → Bool)
    (h : word ≠ Config.eraseOk) (a : Nat) :
    (eraseEffect m wrp req word took).read a = m.read a ∨
      (req.covers a = true ∧ protectedByte wrp a = false ∧
        (eraseEffect m wrp req word took).read a = some 0xFF) := by
  rw [eraseEffect, if_neg h, Memory.read_eraseWhere]
  split
  · next hc =>
    simp only [Bool.and_eq_true, Bool.not_eq_true'] at hc
    obtain ⟨-, ⟨hcovers, hfree⟩, -⟩ := hc
    exact .inr ⟨hcovers, hfree, rfl⟩
  · exact .inl rfl

/-- Settles O20, by the status word. -/
theorem eraseCallEffect : Obligations.EraseCallEffect := by
  unfold Obligations.EraseCallEffect
  intro req s t ans drawn hdrawn h
  obtain ⟨drawn', hdrawn', hans, rfl⟩ := (flashErase_eq_some_iff req s t ans).mp h
  obtain rfl : drawn = drawn' := by simpa [hdrawn] using hdrawn'
  refine ⟨fun hp => hans ▸ forcedEraseAnswer_word_ne drawn hp,
    fun hp => hans.trans (forcedEraseAnswer_free drawn hp), fun hok a => ?ok, fun hn a => ?failed, rfl⟩
  case ok =>
    rw [show ans.word = Config.eraseOk from hok]
    exact read_eraseEffect_ok s.mem s.opt.wrp req (Config.eraseTook s.env.draws) a
  case failed =>
    rcases read_eraseEffect_failed s.mem (Config.eraseTook s.env.draws) hn a with h | ⟨hc, hp, h⟩
    · exact ⟨fun _ _ => .inl h, fun _ => h⟩
    · exact ⟨fun _ _ => .inr h, fun hout => absurd hout (by simp [hc, hp])⟩

end Sys2Proof.Machine
end

section
/-! PROOF. The protection controller: RDP levels (O21), option programs and commits (O22, O23), the option chain (O24),
INV-RDP2 (O25), and the frame of the protection commands (O45). -/

namespace Sys2Proof.Machine

/-! ## RDP levels -/

theorem rdpLevel_eq_level0_iff (b : Byte) : rdpLevel b = .level0 ↔ b = 0xAA := by
  unfold rdpLevel
  split
  · next h => exact iff_of_true rfl h
  · next h => split <;> exact iff_of_false (by simp) h

theorem rdpLevel_eq_level1_iff (b : Byte) : rdpLevel b = .level1 ↔ b = 0x55 := by
  unfold rdpLevel
  split
  · next h =>
    refine iff_of_false (by simp) ?_
    rw [h]
    decide
  · split
    · next h => exact iff_of_true rfl h
    · next h => exact iff_of_false (by simp) h

/-- Level 2 is what is neither of the other two (41_engines R184). -/
theorem rdpLevel_eq_level2_iff (b : Byte) : rdpLevel b = .level2 ↔ b ≠ 0xAA ∧ b ≠ 0x55 := by
  rw [Ne, Ne, ← rdpLevel_eq_level0_iff, ← rdpLevel_eq_level1_iff]
  cases rdpLevel b <;> simp

/-- Settles O21. -/
theorem rdpLevelsAndSentinels : Obligations.RdpLevelsAndSentinels := by
  unfold Obligations.RdpLevelsAndSentinels
  exact ⟨rfl, rfl, rfl,
    fun b => ⟨rdpLevel_eq_level0_iff b, rdpLevel_eq_level1_iff b, rdpLevel_eq_level2_iff b⟩, rdpLevel_sentinel⟩

/-! ## The option program -/

/-- A program of write protection sets the bits its mask names, and leaves the others (41_engines R188). -/
theorem apply_wrp_bit (enable : Bool) (mask : Byte) (old : OptConfig) {k : Nat} (hk : k < 8) :
    ((OptCfg.wrp enable mask).apply old).wrp.getLsbD k = if mask.getLsbD k then enable else old.wrp.getLsbD k := by
  cases enable with
  | true =>
    rw [OptCfg.apply, BitVec.getLsbD_or]
    cases mask.getLsbD k <;> simp
  | false =>
    rw [OptCfg.apply, BitVec.getLsbD_and, BitVec.getLsbD_not, decide_eq_true hk, Bool.true_and]
    cases mask.getLsbD k <;> simp

/-- Each WRP bit of a mixture is the old one or the new one. -/
theorem mixConfig_wrp_bit_or (old new : OptConfig) (b : Bool) (m : Byte) (k : Nat) :
    (mixConfig old new b m).wrp.getLsbD k = old.wrp.getLsbD k ∨
      (mixConfig old new b m).wrp.getLsbD k = new.wrp.getLsbD k := by
  rw [mixConfig_wrp_bit]
  split
  · exact .inr rfl
  · exact .inl rfl

/-- Settles O22, by the field that the configuration names and by the answer. -/
theorem optProgramEffect : Obligations.OptProgramEffect := by
  unfold Obligations.OptProgramEffect
  intro cfg s t r h
  obtain ⟨-, rfl⟩ := (optProgram_eq_some_iff cfg s t r).mp h
  have hmixRdp := mixConfig_rdp s.optStaged (cfg.apply s.optStaged) (Config.rdpTook s.env.draws)
    (Config.wrpTook s.env.draws)
  have hmixWrp := mixConfig_wrp_bit_or s.optStaged (cfg.apply s.optStaged) (Config.rdpTook s.env.draws)
    (Config.wrpTook s.env.draws)
  refine ⟨?rdp, ?wrp, rfl⟩
  case rdp =>
    rintro x rfl
    cases r with
    | ok => exact ⟨rfl, fun _ => rfl, fun h => PortResult.noConfusion h⟩
    | fail =>
      exact ⟨BitVec.eq_of_getLsbD_eq fun k _ => (hmixWrp k).elim id id, fun h => PortResult.noConfusion h,
        fun _ => hmixRdp⟩
  case wrp =>
    rintro enable mask rfl
    have hbit := fun k (hk : k < 8) => apply_wrp_bit enable mask s.optStaged hk
    have hrdp : ((OptCfg.wrp enable mask).apply s.optStaged).rdp = s.optStaged.rdp := by cases enable <;> rfl
    cases r with
    | ok =>
      refine ⟨hrdp, fun k hk => ⟨fun hm => ?_, fun hm => ⟨fun _ => ?_, fun h => PortResult.noConfusion h⟩⟩⟩
      · exact (hbit k hk).trans (if_neg (by simp [hm]))
      · exact (hbit k hk).trans (if_pos hm)
    | fail =>
      refine ⟨hmixRdp.elim id (·.trans hrdp),
        fun k hk => ⟨fun hm => ?_, fun hm => ⟨fun h => PortResult.noConfusion h, fun _ => ?_⟩⟩⟩
      · exact (hmixWrp k).elim id (·.trans ((hbit k hk).trans (if_neg (by simp [hm]))))
      · exact (hmixWrp k).imp id (·.trans ((hbit k hk).trans (if_pos hm)))

/-! ## The commit -/

theorem regresses_iff (old new : OptConfig) :
    regresses old new = true ↔ rdpLevel old.rdp = .level1 ∧ rdpLevel new.rdp = .level0 := by
  simp [regresses]

/-- Settles O23, by the answer and by whether the level went from 1 to 0. -/
theorem optLaunchEffect : Obligations.OptLaunchEffect := by
  unfold Obligations.OptLaunchEffect
  intro s t r h
  obtain ⟨-, rfl⟩ := (optLaunch_eq_some_iff s t r).mp h
  have hreg := regresses_iff s.opt (launchedConfig s r)
  rw [rdpLevel_eq_level1_iff, rdpLevel_eq_level0_iff] at hreg
  refine ⟨?ok, ?fail, fun hn => if_neg (mt hreg.mp hn), fun hlower a => ?lower, rfl⟩
  case ok =>
    rintro rfl
    rfl
  case fail =>
    rintro rfl
    exact ⟨mixConfig_rdp _ _ _ _, mixConfig_wrp_bit_or _ _ _ _⟩
  case lower =>
    dsimp only
    rw [if_pos (hreg.mpr hlower), Memory.read_redrawFlash, ← Memory.flash_contains_iff]
    exact ⟨fun hf => if_pos hf, fun hf => if_neg hf⟩

/-! ## The option chain -/

/-- Past the gate, a protection command is its chain (41_engines R186, R187). -/
theorem exec_eq_optChain {i : Instr} {cfg : OptCfg} {s : State} (hc : chainCfg i = some cfg)
    (hg : s.pos.inChain = true ∨ ∀ level, rdpRequest i = some level → gateRefuses s level = false) :
    exec i s = optChain i.opcode cfg chainStatus s := by
  have hgate : ∀ level, rdpRequest i = some level → ¬ (!s.pos.inChain && gateRefuses s level) = true := by
    intro level hl
    rcases hg with h | h <;> simp [h, hl]
  cases i with
  | writeProtect sectorCount sectorCode | writeUnprotect sectorCount sectorCode =>
    simp only [chainCfg, Option.ite_none_left_eq_some, Option.some.injEq] at hc
    obtain ⟨hn, rfl⟩ := hc
    rw [← wrp_status_eq]
    exact if_neg hn
  | readoutProtect =>
    cases hc
    rw [← rdp_status_eq]
    exact if_neg (hgate .level1 rfl)
  | readoutUnprotect level =>
    obtain ⟨l, hl, rfl⟩ := Option.map_eq_some_iff.mp hc
    rw [← rdp_status_eq, exec, execReadoutUnprotect, hl]
    exact if_neg (hgate l hl)
  | _ => exact absurd hc (by simp [chainCfg])

/-- The status byte of a chain is `0x00` only where every step answered Ok (41_engines R182). -/
theorem chainStatus_afterLock (c : ChainResult) (r : PortResult) :
    chainStatus (c.afterLock r) = if c = .ok ∧ r = .ok then 0x00 else 0x02 := by
  cases c <;> cases r <;> rfl

theorem optChain_unlock {op : Opcode} {cfg : OptCfg} {status : ChainResult → Byte} {s : State} {r : PortResult}
    (hp : s.pos.inChain = false) (hr : s.env.optAnswer = some r) :
    optChain op cfg status s = .next { s with
      optCtl := { optlock := if r = .ok then false else s.optCtl.optlock }
      trace := s.trace ++ [.opt .unlock r], env := s.env.afterOpt
      phase := .act op (if r = .ok then .optProgram else .optLock .failed) } := by
  have hu := (optUnlock_eq_some_iff s _ r).mpr ⟨hr, rfl⟩
  unfold optChain
  split
  · next h => simp [h, ActPos.inChain] at hp
  · next h => simp [h, ActPos.inChain] at hp
  · next h => simp [h, ActPos.inChain] at hp
  · rw [hu]
    cases r <;> rfl

theorem optChain_program {op : Opcode} {cfg : OptCfg} {status : ChainResult → Byte} {s t : State} {r : PortResult}
    (hp : s.pos = .optProgram) (h : optProgram cfg s = some (r, t)) :
    optChain op cfg status s =
      .next { t with phase := .act op (if r = .ok then .optLaunch else .optLock .failed) } := by
  rw [optChain, hp]
  dsimp only
  rw [h]
  cases r <;> rfl

theorem optChain_launch {op : Opcode} {cfg : OptCfg} {status : ChainResult → Byte} {s t : State} {r : PortResult}
    (hp : s.pos = .optLaunch) (h : optLaunch s = some (r, t)) :
    optChain op cfg status s =
      .next { t with phase := .act op (.optLock (if r = .ok then .ok else .failed)) } := by
  rw [optChain, hp]
  dsimp only
  rw [h]
  cases r <;> rfl

theorem optChain_lock {op : Opcode} {cfg : OptCfg} {status : ChainResult → Byte} {s : State} {r : PortResult}
    {c : ChainResult} (hp : s.pos = .optLock c) (hr : s.env.optAnswer = some r) :
    optChain op cfg status s = .next { s with
      optCtl := { optlock := if r = .ok then true else s.optCtl.optlock }
      trace := s.trace ++ [.opt .lock r], env := s.env.afterOpt
      phase := .sendReply [status (c.afterLock r)] } := by
  rw [optChain, hp]
  dsimp only
  rw [(optLock_eq_some_iff s _ r).mpr ⟨hr, rfl⟩]
  rfl

/-- Settles O24, by the position in the chain. -/
theorem optionChainSteps : Obligations.OptionChainSteps := by
  unfold Obligations.OptionChainSteps
  intro i cfg s r hc hr
  have hinside : s.pos.inChain = true → exec i s = optChain i.opcode cfg chainStatus s :=
    fun hp => exec_eq_optChain hc (.inl hp)
  refine ⟨fun hp hg => ?unlock, fun hp => ?program, fun hp => ?commit, fun earlier hp => ?lock⟩
  case unlock => rw [exec_eq_optChain hc (.inr hg), optChain_unlock hp hr]
  case program =>
    have h := (optProgram_eq_some_iff cfg s _ r).mpr ⟨hr, rfl⟩
    exact ⟨_, h, (hinside (by rw [hp]; rfl)).trans (optChain_program hp h)⟩
  case commit =>
    have h := (optLaunch_eq_some_iff s _ r).mpr ⟨hr, rfl⟩
    exact ⟨_, h, (hinside (by rw [hp]; rfl)).trans (optChain_launch hp h)⟩
  case lock => rw [hinside (by rw [hp]; rfl), optChain_lock hp hr, chainStatus_afterLock]

/-! ## The Level-2 gate -/

theorem replyNow_accepted {s : State} (ha : s.env.tx.accepts = true) (b : Byte) :
    replyNow [b] s = .next (s.afterTx b .done) := by
  rw [replyNow, sendReply_accepted ha]
  rfl

/-- A request that the gate turns away reports failure with no port call (41_engines R186, D33). -/
theorem exec_of_gateRefuses {i : Instr} {level : RdpLevel} {s : State} (hl : rdpRequest i = some level)
    (hg : gateRefuses s level = true) (hp : s.pos.inChain = false) : exec i s = replyNow [Config.stFailed] s := by
  have hgate : (!s.pos.inChain && gateRefuses s level) = true := by simp [hp, hg]
  cases i with
  | readoutProtect =>
    cases hl
    exact if_pos hgate
  | readoutUnprotect b =>
    have hb : RdpLevel.ofByte b = some level := hl
    rw [exec, execReadoutUnprotect, hb]
    exact if_pos hgate
  | _ => exact absurd hl (by simp [rdpRequest])

/-- Under INV-RDP2 a commit at Level 2 commits Level 2, and no other call writes the committed byte
(41_engines R191). -/
theorem step_keeps_level2 {s t : State} (hr : s.rdpInv) (h : step s = .next t) (h2 : rdpLevel s.opt.rdp = .level2) :
    rdpLevel t.opt.rdp = .level2 := by
  rcases step_calls h with h | ⟨e, h, -⟩
  · rw [h.opt]
    exact h2
  · rcases rdp_of_eventEffect h.effect with ⟨ho, -⟩ | ⟨cfg, answer, -, ho, -⟩ | ⟨ho, -⟩
    · rwa [ho]
    · rwa [ho]
    · rw [ho]
      exact hr.1 h2

/-- At reset the staged byte is the committed one, and no command is running (70_reset R341). -/
theorem rdpInv_resetWith (p : ResetParams) : (State.resetWith p).rdpInv := by
  refine ⟨id, ?_⟩
  cases hb : p.bootLaunch <;> simp [State.resetWith, hb]

/-- Settles O25: reset, every step, and the gate. -/
theorem level2IsIrreversible : Obligations.Level2IsIrreversible := by
  unfold Obligations.Level2IsIrreversible
  refine ⟨rdpInv_resetWith, fun s t hr h => ⟨step_keeps_rdpInv h hr, step_keeps_level2 hr h⟩, ?_⟩
  intro s i level hl hne h2 hp ha
  rw [exec_of_gateRefuses hl (by simp [gateRefuses, h2, hne]) hp]
  exact replyNow_accepted ha _

/-! ## The frame of the protection commands -/

/-- Settles O45, by the call that a step of the chain makes. -/
theorem protectionCommandsFrame : Obligations.ProtectionCommandsFrame := by
  unfold Obligations.ProtectionCommandsFrame
  intro i s t hop h
  rcases exec_next h with rfl | h
  · exact ⟨rfl, fun _ => rfl, fun _ => rfl, fun _ => rfl, fun _ => rfl, fun _ _ => rfl⟩
  cases h with
  | reply _ h =>
    obtain ⟨hflash, hoptCtl, hopt, hstaged, hmem⟩ := sendReply_keeps_platform h
    exact ⟨hflash, fun _ => hstaged, fun _ => hopt, fun _ => hoptCtl, fun _ => hmem, fun _ _ => by rw [hmem]⟩
  | silent => exact ⟨rfl, fun _ => rfl, fun _ => rfl, fun _ => rfl, fun _ => rfl, fun _ _ => rfl⟩
  | readId | status | launch | writeUnlock | writeProgram | writeLock | eraseUnlock | eraseCall | eraseLock =>
    exact absurd hop (by simp [Instr.opcode])
  | optUnlock _ hp _ hu =>
    obtain ⟨-, rfl⟩ := (optUnlock_eq_some_iff _ _ _).mp hu
    refine ⟨rfl, fun _ => rfl, fun _ => rfl, ?_, fun _ => rfl, fun _ _ => rfl⟩
    rintro (h | h) <;> simp [h, ActPos.inChain] at hp
  | optProgram _ hp hu =>
    obtain ⟨-, rfl⟩ := (optProgram_eq_some_iff _ _ _ _).mp hu
    exact ⟨rfl, fun hn => absurd hp hn, fun _ => rfl, fun _ => rfl, fun _ => rfl, fun _ _ => rfl⟩
  | optLaunch _ hp hu =>
    obtain ⟨-, rfl⟩ := (optLaunch_eq_some_iff _ _ _).mp hu
    refine ⟨rfl, fun _ => rfl, fun hn => absurd hp hn, fun _ => rfl, fun hn => if_neg fun hr => hn ?_,
      fun a ha => ?_⟩
    · exact ⟨hp, (regresses_iff _ _).mp hr⟩
    · rw [← Memory.flash_contains_iff] at ha
      simp only [State.goto_mem]
      split
      · rw [Memory.read_redrawFlash, if_neg ha]
      · rfl
  | optLock _ hp hu =>
    obtain ⟨-, rfl⟩ := (optLock_eq_some_iff _ _ _).mp hu
    refine ⟨rfl, fun _ => rfl, fun _ => rfl, ?_, fun _ => rfl, fun _ _ => rfl⟩
    rintro (h | h) <;> simp [h] at hp

end Sys2Proof.Machine
end

section
/-! PROOF. WRITE_MEMORY and ERASE: their steps (O31, O33), and what they leave alone (O44). -/

namespace Sys2Proof.Machine

/-! ## The steps of a write -/

/-- Past the check of its start address, WRITE_MEMORY is `WritePayload` (43_memory_commands R231). -/
theorem exec_writeMemory_eq {addr : Word} {data : List Byte} {s : State}
    (h : s.pos.inWrite = true ∨ classify addr = .valid) :
    exec (.writeMemory addr data) s = writePayload data addr s := by
  refine if_neg ?_
  rcases h with h | h <;> simp [h]

theorem exec_writeMemory_invalid {addr : Word} {data : List Byte} {s : State} (hp : s.pos.inWrite = false)
    (hc : classify addr = .invalid) : exec (.writeMemory addr data) s = replyNow [Config.stAddrInvalid] s :=
  if_pos (by simp [hp, hc])

theorem writePayload_unlock {addr : Word} {data : List Byte} {s : State} {r : PortResult}
    (hp : s.pos.inWrite = false) (hr : s.env.flashAnswer = some r) :
    writePayload data addr s = .next { s with
      flashCtl := { lock := if r = .ok then false else s.flashCtl.lock }
      trace := s.trace ++ [.flash .unlock (.result r)], env := s.env.afterFlash
      phase := .act .writeMemory (if r = .ok then .program 0 else .writeLock .fail) } := by
  unfold writePayload
  split
  · next h => simp [h, ActPos.inWrite] at hp
  · next h => simp [h, ActPos.inWrite] at hp
  · rw [(flashUnlock_eq_some_iff s _ r).mpr ⟨hr, rfl⟩]
    cases r <;> rfl

theorem writePayload_program {addr : Word} {data : List Byte} {s t : State} {k : Nat} {v : Byte} {r : PortResult}
    (hp : s.pos = .program k) (hv : data[k]? = some v)
    (h : flashProgramByte (addr + BitVec.ofNat 32 k) v s = some (r, t)) :
    writePayload data addr s = .next { t with
      phase := .act .writeMemory (if r = .ok then .program (k + 1) else .writeLock .fail) } := by
  rw [writePayload, hp]
  dsimp only
  rw [hv]
  dsimp only
  rw [h]
  cases r <;> rfl

theorem WriteResult.status_eq (res : WriteResult) : res.status = if res = .pass then 0x00 else 0x02 := by
  cases res <;> rfl

/-- The lock step of a write: its answer decides the lock bit and not the status (41_engines R172, R174). -/
theorem writeLockStep_answered (res : WriteResult) {s : State} {r : PortResult} (hr : s.env.flashAnswer = some r) :
    writeLockStep res s = .next { s with
      flashCtl := { lock := if r = .ok then true else s.flashCtl.lock }
      trace := s.trace ++ [.flash .lock (.result r)], env := s.env.afterFlash
      phase := .sendReply [if res = .pass then 0x00 else 0x02] } := by
  rw [writeLockStep, (flashLock_eq_some_iff s _ r).mpr ⟨hr, rfl⟩, ← WriteResult.status_eq]
  rfl

/-- After a failed call the lock comes next with the result Fail, after the last byte with the result Pass. -/
theorem writePayload_lock {addr : Word} {data : List Byte} {s : State} {res : WriteResult}
    (hp : s.pos = .writeLock res ∨ (res = .pass ∧ ∃ k, s.pos = .program k ∧ data.length ≤ k)) :
    writePayload data addr s = writeLockStep res s := by
  rcases hp with hp | ⟨rfl, k, hp, hk⟩
  · rw [writePayload, hp]
  · rw [writePayload, hp]
    dsimp only
    rw [List.getElem?_eq_none hk]

/-- Settles O31, by the position in the recipe. -/
theorem writeMemorySteps : Obligations.WriteMemorySteps := by
  unfold Obligations.WriteMemorySteps
  intro addr data s
  refine ⟨fun hp hc ha => ?invalid,
    fun r hr => ⟨fun hp hc => ?unlock, fun k v hp hv => ?program, fun res hp => ?lock⟩⟩
  case invalid =>
    rw [exec_writeMemory_invalid hp hc]
    exact replyNow_accepted ha _
  case unlock => rw [exec_writeMemory_eq (.inr hc), writePayload_unlock hp hr]
  case program =>
    have h := (flashProgramByte_eq_some_iff (addr + BitVec.ofNat 32 k) v s _ _).mpr ⟨r, hr, rfl, rfl⟩
    refine ⟨_, _, h, ?_⟩
    rw [exec_writeMemory_eq (.inl (by rw [hp]; rfl)), writePayload_program hp hv h]
  case lock =>
    have hin : s.pos.inWrite = true := by rcases hp with hp | ⟨-, k, hp, -⟩ <;> rw [hp] <;> rfl
    rw [exec_writeMemory_eq (.inl hin), writePayload_lock hp, writeLockStep_answered res hr]

/-! ## The steps of an erase -/

theorem exec_erase_rejected {sector count : Byte} (h : eraseRequest sector count = none) (s : State) :
    exec (.erase sector count) s = replyNow [Config.stFailed] s := by
  rw [exec, execErase, eraseSequence, h]
  rfl

theorem EraseResult.status_eq (res : EraseResult) : res.status = if res = .pass then 0x00 else 0x02 := by
  cases res <;> rfl

section
variable {sector count : Byte} {req : EraseReq} {s t : State} {r : PortResult}
  (hreq : eraseRequest sector count = some req)
include hreq

theorem exec_erase_unlock (hcall : s.pos ≠ .eraseCall) (hlock : ∀ res, s.pos ≠ .eraseLock res)
    (hr : s.env.flashAnswer = some r) :
    exec (.erase sector count) s = .next { s with
      flashCtl := { lock := if r = .ok then false else s.flashCtl.lock }
      trace := s.trace ++ [.flash .unlock (.result r)], env := s.env.afterFlash
      phase := .act .erase (if r = .ok then .eraseCall else .eraseLock .fail) } := by
  rw [exec, execErase, eraseSequence, hreq]
  dsimp only
  split
  · next h => exact absurd h hcall
  · next res h => exact absurd h (hlock res)
  · rw [(flashUnlock_eq_some_iff s _ r).mpr ⟨hr, rfl⟩]
    cases r <;> rfl

/-- The status word alone decides the result of the erase call (41_engines R180). -/
theorem exec_erase_call {ans : EraseAnswer} (hp : s.pos = .eraseCall) (h : flashErase req s = some (ans, t)) :
    exec (.erase sector count) s = .next { t with
      phase := .act .erase (.eraseLock (if ans.word = 0xFFFFFFFF then .pass else .fail)) } := by
  rw [exec, execErase, eraseSequence, hreq, hp]
  dsimp only
  rw [h]
  rfl

theorem exec_erase_lock {res : EraseResult} (hp : s.pos = .eraseLock res) (hr : s.env.flashAnswer = some r) :
    exec (.erase sector count) s = .next { s with
      flashCtl := { lock := if r = .ok then true else s.flashCtl.lock }
      trace := s.trace ++ [.flash .lock (.result r)], env := s.env.afterFlash
      phase := .sendReply [if res = .pass then 0x00 else 0x02] } := by
  rw [exec, execErase, eraseSequence, hreq, hp]
  dsimp only
  rw [(flashLock_eq_some_iff s _ r).mpr ⟨hr, rfl⟩, ← EraseResult.status_eq]
  rfl

end

/-- Settles O33, by the request and the position in the recipe. -/
theorem eraseSteps : Obligations.EraseSteps := by
  unfold Obligations.EraseSteps
  intro sector count s
  refine ⟨fun hreq ha => ?rejected,
    fun req hreq => ⟨fun r hr => ⟨fun hcall hlock => ?unlock, fun res hp => ?lock⟩, fun drawn hdrawn hp => ?call⟩⟩
  case rejected =>
    rw [exec_erase_rejected hreq]
    exact replyNow_accepted ha _
  case unlock => exact exec_erase_unlock hreq hcall hlock hr
  case lock => exact exec_erase_lock hreq hp hr
  case call =>
    have h := (flashErase_eq_some_iff req s _ _).mpr ⟨drawn, hdrawn, rfl, rfl⟩
    exact ⟨_, _, h, exec_erase_call hreq hp h⟩

/-! ## What they leave alone -/

/-- The byte at `a` is neither the one that the command's program call names next nor in the request of its erase
call. -/
def notNamed (i : Instr) (s : State) (a : Nat) : Prop :=
  match i with
  | .writeMemory addr data => ∀ k, s.pos = .program k → k < data.length → a ≠ (addr + BitVec.ofNat 32 k).toNat
  | .erase sector count => ∀ req, eraseRequest sector count = some req → s.pos = .eraseCall → req.covers a = false
  | _ => True

/-- The option registers stay, and every byte that the command's flash call does not name. -/
structure FlashFrame (i : Instr) (s t : State) : Prop where
  optCtl    : t.optCtl = s.optCtl
  opt       : t.opt = s.opt
  optStaged : t.optStaged = s.optStaged
  read      : ∀ a, notNamed i s a → t.mem.read a = s.mem.read a

theorem flashFrame_of_platformKept {s t : State} (h : PlatformKept s t) (i : Instr) : FlashFrame i s t :=
  ⟨h.optCtl, h.opt, h.optStaged, fun _ _ => by rw [h.mem]⟩

/-- A command without an option chain writes nothing of the platform but by its flash calls. -/
theorem exec_flashFrame {i : Instr} {s t : State} (hc : chainCfg i = none) (h : exec i s = .next t) :
    FlashFrame i s t := by
  rcases exec_next h with rfl | h
  · exact ⟨rfl, rfl, rfl, fun _ _ => rfl⟩
  cases h with
  | reply _ h => exact flashFrame_of_platformKept (sendReply_keeps_platform h) _
  | readId | silent => exact ⟨rfl, rfl, rfl, fun _ _ => rfl⟩
  | status _ _ hu => exact flashFrame_of_platformKept (platformKept_of_quiet rfl ((txByte_calls hu).goto _).effect) _
  | launch => exact flashFrame_of_platformKept (launchAt_keeps_platform _ s) _
  | writeUnlock _ _ hu | eraseUnlock _ _ _ hu =>
    obtain ⟨-, rfl⟩ := (flashUnlock_eq_some_iff _ _ _).mp hu
    exact ⟨rfl, rfl, rfl, fun _ _ => rfl⟩
  | writeProgram hp hv hu =>
    obtain ⟨-, -, -, rfl⟩ := (flashProgramByte_eq_some_iff _ _ _ _ _).mp hu
    have hk := (List.getElem?_eq_some_iff.mp hv).1
    exact ⟨rfl, rfl, rfl, fun a ha => read_programEffect_ne _ _ _ _ _ _ (ha _ hp hk)⟩
  | eraseCall hreq hp hu =>
    obtain ⟨-, -, -, rfl⟩ := (flashErase_eq_some_iff _ _ _ _).mp hu
    exact ⟨rfl, rfl, rfl, fun a ha => read_eraseEffect_ne _ _ _ _ _ (ha _ hreq hp)⟩
  | writeLock _ hu | eraseLock _ _ hu =>
    obtain ⟨-, rfl⟩ := (flashLock_eq_some_iff _ _ _).mp hu
    exact ⟨rfl, rfl, rfl, fun _ _ => rfl⟩
  | optUnlock hcfg | optProgram hcfg | optLaunch hcfg | optLock hcfg => exact absurd (hc.symm.trans hcfg) (by simp)

/-- Settles O44. -/
theorem memoryCommandsFrame : Obligations.MemoryCommandsFrame := by
  unfold Obligations.MemoryCommandsFrame
  refine ⟨fun addr data s t h => ?write, fun sector count s t h => ?erase⟩
  case write =>
    obtain ⟨hoptCtl, hopt, hstaged, hread⟩ := exec_flashFrame (i := .writeMemory addr data) rfl h
    exact ⟨hoptCtl, hopt, hstaged, hread⟩
  case erase =>
    obtain ⟨hoptCtl, hopt, hstaged, hread⟩ := exec_flashFrame (i := .erase sector count) rfl h
    exact ⟨hoptCtl, hopt, hstaged, hread⟩

end Sys2Proof.Machine
end

section
/-! PROOF. A WRITE_MEMORY whose calls all answer Ok, from its recipe's beginning to `Done` (O32). -/

namespace Sys2Proof.Machine

/-! ## What a write leaves in memory -/

theorem add_one_add_ofNat (a : Word) (k : Nat) : a + 1 + BitVec.ofNat 32 k = a + BitVec.ofNat 32 (k + 1) := by
  rw [BitVec.add_assoc, Nat.add_comm k 1, BitVec.ofNat_add]
  rfl

/-- The bytes of a write that is shorter than the address space have different addresses. -/
theorem toNat_ne_add_ofNat (a : Word) {k : Nat} (hk : k + 1 < 2 ^ 32) :
    a.toNat ≠ (a + BitVec.ofNat 32 (k + 1)).toNat := by
  rw [BitVec.toNat_add, BitVec.toNat_ofNat]
  have := a.isLt
  omega

/-- A write leaves every byte outside its range alone. -/
theorem read_programmed_ne {data : List Byte} {a : Word} {b : Nat} (m : Memory)
    (h : ∀ k < data.length, b ≠ (a + BitVec.ofNat 32 k).toNat) : (programmed m a data).read b = m.read b := by
  induction data generalizing m a with
  | nil => rfl
  | cons v rest ih =>
    have hhead : b ≠ a.toNat := by simpa using h 0 (Nat.succ_pos _)
    rw [programmed, ih (m.program a v) fun k hk => ?_, Memory.read_program_ne m a v hhead]
    rw [add_one_add_ofNat]
    exact h (k + 1) (Nat.succ_lt_succ hk)

/-- An address where a program leaves the byte it is given: RAM, or an erased byte of the flash window
(41_engines R176). -/
def takesByte (m : Memory) (a : Word) : Prop :=
  mapped a.toNat = true ∧ (Config.flash.contains a.toNat = true → m.byte a = some 0xFF)

theorem takesByte_of_ram (m : Memory) {a : Word}
    (h : Config.ramA.contains a.toNat = true ∨ Config.ramB.contains a.toNat = true) : takesByte m a :=
  ⟨mapped_of_ram h, fun hf => by simp [flash_of_ram h] at hf⟩

theorem takesByte_of_erased {m : Memory} {a : Word} (h : m.byte a = some 0xFF) : takesByte m a := by
  refine ⟨?_, fun _ => h⟩
  by_contra hm
  rw [Memory.byte, Memory.read_unmapped (by simpa using hm)] at h
  simp at h

theorem byte_program_of_takesByte {m : Memory} {a : Word} (h : takesByte m a) (v : Byte) :
    (m.program a v).byte a = some v := by
  obtain ⟨hmapped, herased⟩ := h
  cases hf : Config.flash.contains a.toNat with
  | false => exact Memory.read_program_ram m v hmapped hf
  | true => exact (Memory.read_program_flash m v 0xFF hf (herased hf)).trans (by rw [programResult_erased])

/-- A program of another byte does not matter to that. -/
theorem takesByte_program {m : Memory} {a b : Word} (v : Byte) (hne : b.toNat ≠ a.toNat) (h : takesByte m b) :
    takesByte (m.program a v) b := by
  obtain ⟨hmapped, herased⟩ := h
  exact ⟨hmapped, fun hf => (Memory.read_program_ne m a v hne).trans (herased hf)⟩

/-- A write leaves its data at every address that takes a byte. -/
theorem byte_programmed {data : List Byte} {m : Memory} {a : Word} {k : Nat} {v : Byte} (hlen : data.length ≤ 2 ^ 32)
    (hv : data[k]? = some v) (h : takesByte m (a + BitVec.ofNat 32 k)) :
    (programmed m a data).byte (a + BitVec.ofNat 32 k) = some v := by
  induction data generalizing m a k with
  | nil => simp at hv
  | cons w rest ih =>
    rw [List.length_cons] at hlen
    cases k with
    | zero =>
      rw [BitVec.add_zero] at h ⊢
      obtain rfl : w = v := by simpa using hv
      refine (read_programmed_ne (m.program a w) fun j hj => ?_).trans (byte_program_of_takesByte h w)
      rw [add_one_add_ofNat]
      exact toNat_ne_add_ofNat a (by omega)
    | succ k =>
      rw [← add_one_add_ofNat] at h ⊢
      have hv : rest[k]? = some v := by simpa using hv
      have hk := (List.getElem?_eq_some_iff.mp hv).1
      refine ih (by omega) hv (takesByte_program w ?_ h)
      rw [add_one_add_ofNat]
      exact (toNat_ne_add_ofNat a (by omega)).symm

/-! ## The run of a write -/

theorem flashAnswer_cons {e : Env} {r : Option PortResult} {rest : List (Option PortResult)}
    (h : e.flash = r :: rest) : e.flashAnswer = r := by
  rw [Env.flashAnswer, h]

/-- A program of an unprotected byte that answers Ok (41_engines R176). -/
theorem flashProgramByte_ok {a : Word} {s : State} (v : Byte) (hr : s.env.flashAnswer = some .ok)
    (hfree : protectedByte s.opt.wrp a.toNat = false) :
    flashProgramByte a v s = some (.ok, { s with
      mem := s.mem.program a v
      trace := s.trace ++ [.flash (.program a v) (.result .ok)]
      env := s.env.afterFlash }) := by
  refine (flashProgramByte_eq_some_iff a v s _ .ok).mpr ⟨.ok, hr, (programAnswer_unprotected .ok hfree).symm, ?_⟩
  rw [(programEffect_unprotected s.mem v .ok _ hfree).resolve_right (by simp)]

/-- The state after the bytes `data` are programmed from `a` on and the data byte `k` is next, `later` being the answers
that are left. -/
def State.afterPrograms (s : State) (a : Word) (data : List Byte) (k : Nat)
    (later : List (Option PortResult)) : State :=
  { s with
    phase := .act .writeMemory (.program k)
    mem := programmed s.mem a data
    trace := s.trace ++ programEvents a data
    env := { s.env with flash := later, draws := s.env.draws + data.length } }

theorem State.afterPrograms_cons (s : State) (a : Word) (v : Byte) (rest : List Byte) (j k : Nat)
    (later later' : List (Option PortResult)) :
    (s.afterPrograms a [v] j later).afterPrograms (a + 1) rest k later' = s.afterPrograms a (v :: rest) k later' := by
  simp [afterPrograms, programmed, programEvents, Nat.add_assoc, Nat.add_comm 1]

/-- One program step of an unprotected byte that answers Ok. -/
theorem step_program {addr : Word} {data : List Byte} {s : State} {k : Nat} {v : Byte}
    (hp : s.phase = .act .writeMemory (.program k)) (hi : s.fetch = .ok (.writeMemory addr data))
    (hv : data[k]? = some v) (hr : s.env.flashAnswer = some .ok)
    (hfree : protectedByte s.opt.wrp (addr + BitVec.ofNat 32 k).toNat = false) :
    step s = .next (s.afterPrograms (addr + BitVec.ofNat 32 k) [v] (k + 1) s.env.flash.tail) := by
  have hpos := State.pos_act s _ _ hp
  rw [step_act (i := .writeMemory addr data) hp hi, exec_writeMemory_eq (.inl (by rw [hpos]; rfl)),
    writePayload_program hpos hv (flashProgramByte_ok v hr hfree)]
  rfl

/-- The programs of the data bytes `rest` from byte `k` on, by induction on `rest`. -/
theorem run_programs {addr : Word} {data : List Byte} {later : List (Option PortResult)} (n : Nat) {s : State}
    {k : Nat} {rest : List Byte} (hrest : data.drop k = rest) (hp : s.phase = .act .writeMemory (.program k))
    (hi : s.fetch = .ok (.writeMemory addr data))
    (hf : s.env.flash = List.replicate rest.length (some .ok) ++ later)
    (hfree : ∀ j < data.length, protectedByte s.opt.wrp (addr + BitVec.ofNat 32 j).toNat = false) :
    Sys2Proof.core.run (rest.length + n) s =
      Sys2Proof.core.run n (s.afterPrograms (addr + BitVec.ofNat 32 k) rest (k + rest.length) later) := by
  induction rest generalizing s k with
  | nil =>
    have hs : s.afterPrograms (addr + BitVec.ofNat 32 k) [] k later = s := by
      have hf : s.env.flash = later := hf
      rw [State.afterPrograms, ← hp, ← hf, programEvents, List.append_nil]
      rfl
    rw [List.length_nil, Nat.zero_add, Nat.add_zero, hs]
  | cons v rest ih =>
    have hv : data[k]? = some v := by simpa [hrest] using (List.getElem?_drop (xs := data) (i := k) (j := 0)).symm
    have hk := (List.getElem?_eq_some_iff.mp hv).1
    have htail : data.drop (k + 1) = rest := by rw [← List.tail_drop, hrest, List.tail_cons]
    have hflash : s.env.flash.tail = List.replicate rest.length (some .ok) ++ later := by rw [hf]; rfl
    have hnext : addr + BitVec.ofNat 32 (k + 1) = addr + BitVec.ofNat 32 k + 1 := by
      rw [BitVec.ofNat_add, ← BitVec.add_assoc]
      rfl
    have hrun := ih (s := s.afterPrograms (addr + BitVec.ofNat 32 k) [v] (k + 1) s.env.flash.tail) htail rfl hi hflash
      hfree
    rw [hnext, State.afterPrograms_cons] at hrun
    rw [List.length_cons, Nat.add_right_comm,
      core_run_succ (step_program hp hi hv (flashAnswer_cons hf) (hfree k hk)), hrun, Nat.add_assoc k 1,
      Nat.add_comm 1]

/-- The unlock step that answers Ok. -/
theorem step_writeUnlock {addr : Word} {data : List Byte} {s : State} (h : s.begins (.writeMemory addr data))
    (hc : classify addr = .valid) (hr : s.env.flashAnswer = some .ok) :
    step s = .next { s with
      flashCtl := { lock := false }
      trace := s.trace ++ [.flash .unlock (.result .ok)], env := s.env.afterFlash
      phase := .act .writeMemory (.program 0) } := by
  obtain ⟨hp, hi⟩ := h
  rw [step_act hp hi, exec_writeMemory_eq (.inr hc), writePayload_unlock (by rw [State.pos_act s _ _ hp]; rfl) hr]
  rfl

/-- The lock step after the last program, where it answers Ok. -/
theorem step_writeLock {addr : Word} {data : List Byte} {s : State} {k : Nat}
    (hp : s.phase = .act .writeMemory (.program k)) (hk : data.length ≤ k)
    (hi : s.fetch = .ok (.writeMemory addr data)) (hr : s.env.flashAnswer = some .ok) :
    step s = .next { s with
      flashCtl := { lock := true }
      trace := s.trace ++ [.flash .lock (.result .ok)], env := s.env.afterFlash
      phase := .sendReply [0x00] } := by
  have hpos := State.pos_act s _ _ hp
  rw [step_act (i := .writeMemory addr data) hp hi, exec_writeMemory_eq (.inl (by rw [hpos]; rfl)),
    writePayload_lock (.inr ⟨rfl, k, hpos, hk⟩), writeLockStep_answered .pass hr]
  rfl

/-- Settles O32: the run is the unlock, the programs, the lock and the status byte. -/
theorem writeMemoryWritesItsData : Obligations.WriteMemoryWritesItsData := by
  unfold Obligations.WriteMemoryWritesItsData
  intro addr data s later hbegins hvalid htx hflash hfree hlen
  refine ⟨_, ?run, rfl, fun k v hv => ⟨fun hram => ?ram, fun herased => ?erased⟩, fun a ha => ?frame⟩
  case ram => exact byte_programmed (by omega) hv (takesByte_of_ram _ hram)
  case erased => exact byte_programmed (by omega) hv (takesByte_of_erased herased)
  case frame => exact read_programmed_ne _ ha
  case run =>
    have hfetch : s.fetch = .ok (.writeMemory addr data) := hbegins.2
    have htail : s.env.flash.tail = List.replicate data.length (some .ok) ++ (some .ok :: later) := by
      rw [hflash, List.replicate_succ, List.replicate_succ']
      simp
    refine Eq.trans (core_run_succ (step_writeUnlock hbegins hvalid (flashAnswer_cons hflash))) ?_
    refine Eq.trans (run_programs 2 (k := 0) (rest := data) rfl rfl hfetch htail hfree) ?_
    refine Eq.trans (core_run_succ (step_writeLock rfl (Nat.zero_add _).ge hfetch (flashAnswer_cons rfl))) ?_
    refine Eq.trans (replyIsSentByteByByte _ [0x00] rfl (List.cons_ne_nil _ _) htx) ?_
    simp [State.afterPrograms, Env.afterFlash, Nat.add_right_comm]

end Sys2Proof.Machine
end

section
/-! PROOF. The information commands: the version record and the opcode table (O26), the version record alone (O27), and
the identity word (O28). A command that replies at once sends its first byte in the step that acts on it. -/

namespace Sys2Proof.Machine

/-! ## A command that replies at once -/

/-- The first byte of a longer reply goes out in the step of the command (40_dispatcher R138). -/
theorem replyNow_first {s : State} (ha : s.env.tx.accepts = true) (b c : Byte) (rest : List Byte) :
    replyNow (b :: c :: rest) s = .next (s.afterTx b (.sendReply (c :: rest))) := by
  rw [replyNow, sendReply_accepted ha]
  rfl

/-- The exchange of such a command is its reply, byte by byte. -/
theorem run_of_replyNow {i : Instr} {s : State} {b c : Byte} {rest : List Byte}
    (hexec : exec i s = replyNow (b :: c :: rest) s) (h : s.begins i) (htx : s.env.tx = .always) :
    Sys2Proof.core.run (rest.length + 2) s =
      .next ({ s with phase := .done, trace := s.trace ++ (b :: c :: rest).map Event.tx } : State) := by
  obtain ⟨hp, hi⟩ := h
  have hstep : step s = .next (s.afterTx b (.sendReply (c :: rest))) := by
    rw [step_act hp hi, hexec, replyNow_first (accepts_of_always htx)]
  rw [core_run_succ hstep, afterTx_of_always htx]
  refine Eq.trans (replyIsSentByteByByte _ (c :: rest) rfl (List.cons_ne_nil _ _) htx) ?_
  simp

/-! ## GET_HELP and GET_VERSION -/

/-- The version record and the opcode bytes of the command table, in table order (10_state R35). -/
theorem exec_getHelp (s : State) : exec .getHelp s = replyNow
    [0xC8, 0x01, 0x00, 0x00, 0x00, 0x01, 0x02, 0x11, 0x21, 0x31, 0x43, 0x44, 0x50, 0x51, 0x63, 0x73, 0x82, 0x92, 0xA1]
    s := rfl

/-- The version record (10_state R35). -/
theorem exec_getVersion (s : State) : exec .getVersion s = replyNow [0xC8, 0x01, 0x00, 0x00] s := rfl

/-- Settles O26: the reply goes out at once, so the exchange is the reply. -/
theorem getHelpReplies : Obligations.GetHelpReplies := by
  unfold Obligations.GetHelpReplies
  refine ⟨⟨rfl, rfl, rfl⟩, fun s ha => ?first, fun s h htx => ?run⟩
  case first => rw [exec_getHelp, replyNow_first ha]
  case run => exact run_of_replyNow (exec_getHelp s) h htx

/-- Settles O27, as O26. -/
theorem getVersionReplies : Obligations.GetVersionReplies := by
  unfold Obligations.GetVersionReplies
  refine ⟨⟨rfl, rfl, rfl⟩, fun s ha => ?first, fun s h htx => ?run⟩
  case first => rw [exec_getVersion, replyNow_first ha]
  case run => exact run_of_replyNow (exec_getVersion s) h htx

/-! ## GET_ID -/

/-- The second byte of the identifier carries its four high bits (42_info_commands R222). -/
theorem idBytes_eq (idcode : Word) :
    idBytes idcode = [idcode.extractLsb' 0 8, (idcode.extractLsb' 8 4).setWidth 8] := by
  have hlow : ((idcode.extractLsb' 0 12).setWidth 16).extractLsb' 0 8 = idcode.extractLsb' 0 8 := by
    ext k hk
    have h12 : k < 12 := by omega
    have h16 : k < 16 := by omega
    simp [h12, h16]
  have hhigh : ((idcode.extractLsb' 0 12).setWidth 16).extractLsb' 8 8 = (idcode.extractLsb' 8 4).setWidth 8 := by
    ext k hk
    have h12 : 8 + k < 12 ↔ k < 4 := by omega
    have h16 : 8 + k < 16 := by omega
    simp [h12, h16]
  rw [idBytes, hlow, hhigh]

/-- The identity word is read and its event recorded; the reply comes next. -/
theorem exec_getId (s : State) :
    exec .getId s = .next ((s.emit (.id s.straps.idcode)).goto (.sendReply (idBytes s.straps.idcode))) := rfl

/-- Settles O28: the identity call, and then the two bytes as any reply. -/
theorem getIdReplies : Obligations.GetIdReplies := by
  unfold Obligations.GetIdReplies
  refine ⟨⟨rfl, rfl, rfl⟩, fun s => ⟨?call, fun ⟨hp, hi⟩ htx => ?run⟩⟩
  case call =>
    rw [exec_getId, idBytes_eq]
    rfl
  case run =>
    rw [core_run_succ ((step_act hp hi).trans (exec_getId s)), idBytes_eq]
    refine Eq.trans (replyIsSentByteByByte _ [_, _] rfl (List.cons_ne_nil _ _) htx) ?_
    simp [State.goto, State.emit]

end Sys2Proof.Machine
end

section
/-! PROOF. GO_TO_ADDRESS: its steps (O29), and its run from the recipe's beginning to the launch or the fault (O30). -/

namespace Sys2Proof.Machine

/-! ## The steps of GO_TO_ADDRESS -/

theorem exec_goToAddress_invalid {addr : Word} {s : State} (hp : s.pos ≠ .launch) (hc : classify addr = .invalid) :
    exec (.goToAddress addr) s = replyNow [Config.stAddrInvalid] s := by
  rw [exec, execGoToAddress, hc]
  split
  · next h => exact absurd h hp
  · rfl

/-- A valid address is answered with `0x00`, and its launch comes next (43_memory_commands R230). -/
theorem exec_goToAddress_valid {addr : Word} {s : State} (hp : s.pos ≠ .launch) (hc : classify addr = .valid)
    (ha : s.env.tx.accepts = true) :
    exec (.goToAddress addr) s = .next (s.afterTx 0x00 (.act .goToAddress .launch)) := by
  rw [exec, execGoToAddress, hc]
  split
  · next h => exact absurd h hp
  · exact congrArg (answered s) (txByte_map_goto ha Config.stOk _)

theorem exec_goToAddress_launch {s : State} (hp : s.pos = .launch) (addr : Word) :
    exec (.goToAddress addr) s = .next (launchAt addr s) := by
  rw [exec, execGoToAddress, hp]

/-- Settles O29, by the position in the recipe and the class of the address. -/
theorem goToAddressSteps : Obligations.GoToAddressSteps := by
  unfold Obligations.GoToAddressSteps
  refine fun addr s => ⟨fun hp ha => ⟨fun hc => ?invalid, fun hc => ?valid⟩, fun hp => ?launch⟩
  case invalid =>
    rw [exec_goToAddress_invalid hp hc]
    exact replyNow_accepted ha _
  case valid => exact exec_goToAddress_valid hp hc ha
  case launch => exact exec_goToAddress_launch hp addr

/-! ## The run of GO_TO_ADDRESS -/

/-- The state in which the status byte of GO_TO_ADDRESS is out and the launch is next. -/
def State.atLaunch (s : State) : State :=
  { s with phase := .act .goToAddress .launch, trace := s.trace ++ [.tx 0x00] }

/-- From its recipe's beginning a valid GO_TO_ADDRESS is its status byte and the launch. -/
theorem run_goToAddress {addr : Word} {s : State} (h : s.begins (.goToAddress addr)) (hc : classify addr = .valid)
    (htx : s.env.tx = .always) : Sys2Proof.core.run 2 s = .next (launchAt addr s.atLaunch) := by
  obtain ⟨hp, hi⟩ := h
  have hstatus : step s = .next s.atLaunch := by
    rw [step_act hp hi, exec_goToAddress_valid (by simp [State.pos_act s _ _ hp]) hc (accepts_of_always htx),
      afterTx_of_always htx]
    rfl
  have hlaunch : step s.atLaunch = .next (launchAt addr s.atLaunch) :=
    (step_act (s := s.atLaunch) (i := .goToAddress addr) rfl hi).trans (exec_goToAddress_launch rfl addr)
  rw [core_run_succ hstatus, core_run_succ hlaunch, core_run_zero]

/-- Settles O30: the launch of O15 after the status byte. -/
theorem goToAddressLaunches : Obligations.GoToAddressLaunches := by
  unfold Obligations.GoToAddressLaunches
  intro addr s h hc htx
  rw [run_goToAddress h hc htx]
  refine ⟨fun hb => ⟨fun b hread => ?readable, fun k hk hnone => ?unreadable⟩, fun hb => ?misaligned⟩
  case readable =>
    rw [launchAt_readable (s := s.atLaunch) hb hread]
    simp [State.atLaunch, State.emit, State.goto]
  case unreadable =>
    rw [launchAt_unreadable (s := s.atLaunch) hb hk hnone]
    rfl
  case misaligned =>
    rw [launchAt_misaligned hb]
    rfl

end Sys2Proof.Machine
end

section
/-! PROOF. An ERASE whose status word is `P_ERASE_OK`, from its recipe's beginning to `Done` (O34). -/

namespace Sys2Proof.Machine

theorem eraseAnswer_cons {e : Env} {r : Option EraseAnswer} {rest : List (Option EraseAnswer)}
    (h : e.erase = r :: rest) : e.eraseAnswer = r := by
  rw [Env.eraseAnswer, h]

/-- An erase that covers no protected sector and answers `P_ERASE_OK` (41_engines R179). -/
theorem flashErase_ok {req : EraseReq} {s : State} {ll : PortResult}
    (hr : s.env.eraseAnswer = some ⟨ll, 0xFFFFFFFF⟩) (hfree : req.hitsProtected s.opt.wrp = false) :
    flashErase req s = some (⟨ll, 0xFFFFFFFF⟩, { s with
      mem := eraseEffect s.mem s.opt.wrp req Config.eraseOk (Config.eraseTook s.env.draws)
      trace := s.trace ++ [.flash (.erase req Config.voltageRange) (.erase ⟨ll, 0xFFFFFFFF⟩)]
      env := s.env.afterErase }) :=
  (flashErase_eq_some_iff req s _ _).mpr ⟨_, hr, (forcedEraseAnswer_free _ hfree).symm, rfl⟩

section
variable {sector count : Byte} {req : EraseReq} {s : State} (hreq : eraseRequest sector count = some req)
include hreq

/-- The unlock step that answers Ok. -/
theorem step_eraseUnlock (h : s.begins (.erase sector count)) (hr : s.env.flashAnswer = some .ok) :
    step s = .next { s with
      flashCtl := { lock := false }
      trace := s.trace ++ [.flash .unlock (.result .ok)], env := s.env.afterFlash
      phase := .act .erase .eraseCall } := by
  obtain ⟨hp, hi⟩ := h
  have hpos := State.pos_act s _ _ hp
  rw [step_act hp hi, exec_erase_unlock hreq (by simp [hpos]) (by simp [hpos]) hr]
  rfl

/-- The erase step of an unprotected request that answers `P_ERASE_OK`. -/
theorem step_eraseCall_ok {ll : PortResult} (hp : s.phase = .act .erase .eraseCall)
    (hi : s.fetch = .ok (.erase sector count)) (hr : s.env.eraseAnswer = some ⟨ll, 0xFFFFFFFF⟩)
    (hfree : req.hitsProtected s.opt.wrp = false) :
    step s = .next { s with
      mem := eraseEffect s.mem s.opt.wrp req Config.eraseOk (Config.eraseTook s.env.draws)
      trace := s.trace ++ [.flash (.erase req Config.voltageRange) (.erase ⟨ll, 0xFFFFFFFF⟩)]
      env := s.env.afterErase
      phase := .act .erase (.eraseLock .pass) } := by
  rw [step_act (i := .erase sector count) hp hi,
    exec_erase_call hreq (State.pos_act s _ _ hp) (flashErase_ok hr hfree)]
  rfl

/-- The lock step after an erase that passed: its answer decides the lock bit and not the status (41_engines R177). -/
theorem step_eraseLock_pass {r : PortResult} (hp : s.phase = .act .erase (.eraseLock .pass))
    (hi : s.fetch = .ok (.erase sector count)) (hr : s.env.flashAnswer = some r) :
    step s = .next { s with
      flashCtl := { lock := if r = .ok then true else s.flashCtl.lock }
      trace := s.trace ++ [.flash .lock (.result r)], env := s.env.afterFlash
      phase := .sendReply [0x00] } := by
  rw [step_act (i := .erase sector count) hp hi, exec_erase_lock hreq (State.pos_act s _ _ hp) hr]
  rfl

end

/-- Settles O34: the run is the unlock, the erase, the lock and the status byte. -/
theorem eraseErasesItsSectors : Obligations.EraseErasesItsSectors := by
  unfold Obligations.EraseErasesItsSectors
  intro sector count req s ll lockAnswer laterFlash laterErase hbegins hreq htx hflash herase hfree
  refine ⟨eraseEffect s.mem s.opt.wrp req Config.eraseOk (Config.eraseTook (s.env.draws + 1)),
    read_eraseEffect_ok s.mem s.opt.wrp req _, ?run⟩
  have hfetch : s.fetch = .ok (.erase sector count) := hbegins.2
  have hlock : s.env.flash.tail = some lockAnswer :: laterFlash := by rw [hflash, List.tail_cons]
  refine Eq.trans (core_run_succ (step_eraseUnlock hreq hbegins (flashAnswer_cons hflash))) ?_
  refine Eq.trans (core_run_succ (step_eraseCall_ok hreq rfl hfetch (eraseAnswer_cons herase) hfree)) ?_
  refine Eq.trans (core_run_succ (step_eraseLock_pass hreq rfl hfetch (flashAnswer_cons hlock))) ?_
  refine Eq.trans (replyIsSentByteByByte _ [0x00] rfl (List.cons_ne_nil _ _) htx) ?_
  simp [Env.afterFlash, Env.afterErase, hflash, herase]

end Sys2Proof.Machine
end

section
/-! PROOF. The protection commands: what each programs and when it is turned away (O37, O38), a command whose option
calls all answer Ok, from its recipe's beginning to `Done` (O36), and a request that is turned away at Level 2 (O39). -/

namespace Sys2Proof.Machine

/-! ## WRITE_PROTECT and WRITE_UNPROTECT -/

/-- A sector count above the number of sectors is turned away with no port call (41_engines R187). -/
theorem setWrp_count_above {sectorCount : Byte} (h : 8 < sectorCount.toNat) (op : Opcode) (sectorCode : Byte)
    (enable : Bool) {s : State} (ha : s.env.tx.accepts = true) :
    setWrp op sectorCount sectorCode enable s = .next (s.afterTx 0x02 .done) :=
  (if_pos h).trans (replyNow_accepted ha _)

/-- Settles O37: the count decides which clause applies, and each mask bit what its WRP bit becomes. -/
theorem writeProtectionConfigures : Obligations.WriteProtectionConfigures := by
  unfold Obligations.WriteProtectionConfigures
  intro sectorCount sectorCode s
  refine ⟨fun h ha => ⟨setWrp_count_above h _ _ _ ha, setWrp_count_above h _ _ _ ha⟩,
    fun h => ⟨if_neg (Nat.not_lt.mpr h), if_neg (Nat.not_lt.mpr h)⟩, fun k hk => ?bits⟩
  case bits =>
    rw [apply_wrp_bit true _ _ hk, apply_wrp_bit false _ _ hk]
    cases sectorCode.getLsbD k <;> simp

/-! ## READOUT_PROTECT and READOUT_UNPROTECT -/

/-- A `level` byte above 2 names no level (44_protection_commands R253). -/
theorem RdpLevel.ofByte_above {b : Byte} (h : 2 < b.toNat) : RdpLevel.ofByte b = none := by
  have hne : ∀ c : Byte, c.toNat ≤ 2 → b ≠ c := fun c hc hb => by
    rw [hb] at h
    omega
  rw [RdpLevel.ofByte, if_neg (hne 0 (by decide)), if_neg (hne 1 (by decide)), if_neg (hne 2 (by decide))]

theorem exec_readoutUnprotect_rejected {level : Byte} (h : RdpLevel.ofByte level = none) (s : State) :
    exec (.readoutUnprotect level) s = replyNow [Config.stFailed] s := by
  rw [exec, execReadoutUnprotect, h]

/-- The gate turns away what would leave Level 2 (41_engines R186, D33). -/
theorem gateRefuses_iff (s : State) (level : RdpLevel) :
    gateRefuses s level = true ↔ (s.opt.rdp ≠ 0xAA ∧ s.opt.rdp ≠ 0x55) ∧ level ≠ .level2 := by
  rw [gateRefuses, Bool.and_eq_true, decide_eq_true_iff, decide_eq_true_iff, rdpLevel_eq_level2_iff]

/-- Settles O38. -/
theorem readProtectionConfigures : Obligations.ReadProtectionConfigures := by
  unfold Obligations.ReadProtectionConfigures
  intro level s
  refine ⟨rfl, ?level0, ?level1, ?level2, fun h ha => ?above, gateRefuses_iff s⟩
  case level0 | level1 | level2 =>
    rintro rfl
    rfl
  case above =>
    rw [exec_readoutUnprotect_rejected (RdpLevel.ofByte_above h)]
    exact replyNow_accepted ha _

/-! ## The run of a command whose option calls answer Ok -/

theorem optAnswer_cons {e : Env} {r : Option PortResult} {rest : List (Option PortResult)}
    (h : e.opt = r :: rest) : e.optAnswer = r := by
  rw [Env.optAnswer, h]

/-- `mem` after the commit of the configuration `new` (41_engines R189). -/
def committedMem (s : State) (new : OptConfig) : Memory :=
  if regresses s.opt new then s.mem.redrawFlash (Config.flashDraw s.env.draws) else s.mem

/-- Only a commit that goes from Level 1 to Level 0 writes memory. -/
theorem committedMem_eq {s : State} {new : OptConfig} (h : ¬ (s.opt.rdp = 0x55 ∧ new.rdp = 0xAA)) :
    committedMem s new = s.mem := by
  rw [← rdpLevel_eq_level1_iff, ← rdpLevel_eq_level0_iff, ← regresses_iff] at h
  exact if_neg h

/-- A commit writes the flash window alone. -/
theorem read_committedMem_outside (s : State) (new : OptConfig) {a : Nat}
    (h : ¬ (0x08000000 ≤ a ∧ a ≤ 0x080FFFFF)) : (committedMem s new).read a = s.mem.read a := by
  unfold committedMem
  split
  · rw [Memory.read_redrawFlash, if_neg (mt (Memory.flash_contains_iff a).mp h)]
  · rfl

section
variable {i : Instr} {cfg : OptCfg} {s : State} (hc : chainCfg i = some cfg)
include hc

/-- The unlock step that answers Ok. -/
theorem step_optUnlock (h : s.begins i) (hg : ∀ level, rdpRequest i = some level → gateRefuses s level = false)
    (hr : s.env.optAnswer = some .ok) :
    step s = .next { s with
      optCtl := { optlock := false }
      trace := s.trace ++ [.opt .unlock .ok], env := s.env.afterOpt
      phase := .act i.opcode .optProgram } := by
  obtain ⟨hp, hi⟩ := h
  rw [step_act hp hi, exec_eq_optChain hc (.inr hg), optChain_unlock (by rw [State.pos_act s _ _ hp]; rfl) hr]
  rfl

/-- Inside the chain a step of the command is a step of its chain. -/
theorem step_inChain {pos : ActPos} (hp : s.phase = .act i.opcode pos) (hin : pos.inChain = true)
    (hi : s.fetch = .ok i) : step s = optChain i.opcode cfg chainStatus s := by
  rw [step_act hp hi, exec_eq_optChain hc (.inl (by rwa [State.pos_act s _ _ hp]))]

/-- The program step that answers Ok. -/
theorem step_optProgram (hp : s.phase = .act i.opcode .optProgram) (hi : s.fetch = .ok i)
    (hr : s.env.optAnswer = some .ok) :
    step s = .next { s with
      optStaged := cfg.apply s.optStaged
      trace := s.trace ++ [.opt (.program cfg) .ok], env := s.env.afterOpt
      phase := .act i.opcode .optLaunch } := by
  have hcall := (optProgram_eq_some_iff cfg s _ .ok).mpr ⟨hr, rfl⟩
  rw [step_inChain hc hp rfl hi, optChain_program (State.pos_act s _ _ hp) hcall]
  rfl

/-- The commit that answers Ok. -/
theorem step_optLaunch (hp : s.phase = .act i.opcode .optLaunch) (hi : s.fetch = .ok i)
    (hr : s.env.optAnswer = some .ok) :
    step s = .next { s with
      opt := s.optStaged
      mem := committedMem s s.optStaged
      trace := s.trace ++ [.opt .launch .ok], env := s.env.afterOpt
      phase := .act i.opcode (.optLock .ok) } := by
  have hcall := (optLaunch_eq_some_iff s _ .ok).mpr ⟨hr, rfl⟩
  rw [step_inChain hc hp rfl hi, optChain_launch (State.pos_act s _ _ hp) hcall]
  rfl

/-- The lock step of a chain that no call failed, where it answers Ok. -/
theorem step_optLock (hp : s.phase = .act i.opcode (.optLock .ok)) (hi : s.fetch = .ok i)
    (hr : s.env.optAnswer = some .ok) :
    step s = .next { s with
      optCtl := { optlock := true }
      trace := s.trace ++ [.opt .lock .ok], env := s.env.afterOpt
      phase := .sendReply [0x00] } := by
  rw [step_inChain hc hp rfl hi, optChain_lock (State.pos_act s _ _ hp) hr]
  rfl

end

/-- Settles O36: the run is the unlock, the program, the commit, the lock and the status byte. -/
theorem protectionCommandsCommit : Obligations.ProtectionCommandsCommit := by
  unfold Obligations.ProtectionCommandsCommit
  intro i cfg s later hc hbegins hg htx hopt
  -- the commit is the third call, so its redraw is that of two draws later
  refine ⟨committedMem { s with env := s.env.afterOpt.afterOpt } (cfg.apply s.optStaged), fun h => committedMem_eq h,
    fun a h => read_committedMem_outside _ _ h, ?run⟩
  have hfetch : s.fetch = .ok i := hbegins.2
  have hopt1 : s.env.afterOpt.opt = [some .ok, some .ok, some .ok] ++ later := by rw [Env.afterOpt_opt, hopt]; rfl
  have hopt2 : s.env.afterOpt.afterOpt.opt = [some .ok, some .ok] ++ later := by rw [Env.afterOpt_opt, hopt1]; rfl
  have hopt3 : s.env.afterOpt.afterOpt.afterOpt.opt = [some .ok] ++ later := by rw [Env.afterOpt_opt, hopt2]; rfl
  refine Eq.trans (core_run_succ (step_optUnlock hc hbegins hg (optAnswer_cons hopt))) ?_
  refine Eq.trans (core_run_succ (step_optProgram hc rfl hfetch (optAnswer_cons hopt1))) ?_
  refine Eq.trans (core_run_succ (step_optLaunch hc rfl hfetch (optAnswer_cons hopt2))) ?_
  refine Eq.trans (core_run_succ (step_optLock hc rfl hfetch (optAnswer_cons hopt3))) ?_
  refine Eq.trans (replyIsSentByteByByte _ [0x00] rfl (List.cons_ne_nil _ _) htx) ?_
  simp [Env.afterOpt, hopt, committedMem]

/-! ## A request that is turned away at Level 2 -/

section
variable {s : State} {i : Instr} (hi : s.fetch = .ok i) (htx : s.env.tx = .always)
include hi htx

/-- A received frame of an implemented command that passes the CRC check is acknowledged (40_dispatcher R131, R137). -/
theorem step_accepted (hs : s.frameReceived) (himp : i.opcode.implemented = true)
    (hcrc : crc (s.frameBytes.take (s.len.toNat - 3)) = wordAt s.frameBytes (s.len.toNat - 3)) :
    step s = .next { s with phase := .sendAck true, trace := s.trace ++ [.tx 0x79] } := by
  obtain ⟨hp, hc, -, hacc⟩ := hs
  have hv : verdict s = .toVerify i := by simp [verdict, hi, himp]
  have hpass : (verifyData s.coveredBytes s.claimedCrc s).1 = .pass := (verifyData_pass_iff _ _ hacc).mpr hcrc
  rw [step_atChecks (.inl ⟨hp, hc⟩), hv]
  refine (if_pos hpass).trans ?_
  rw [verified_eq_goto hacc, if_pos rfl, sendAckByte_accepted (s := s.goto (.sendAck false)) (accepts_of_always htx),
    answered_some, afterTx_goto, afterTx_of_always htx]

/-- The length byte of the acknowledgement, after which the command's recipe comes next (40_dispatcher R130, R137). -/
theorem step_ackLen_sent (hp : s.phase = .sendAck true) :
    step s = .next { s with
      phase := .act i.opcode .start, trace := s.trace ++ [.tx (replyLenByte i.opcode)] } := by
  rw [step_ackLen hp hi, sendAckLen_accepted (accepts_of_always htx), answered_some, afterTx_of_always htx]

/-- At Level 2 a request for another level answers `0x02` (41_engines R186, R191). -/
theorem step_gated {level : RdpLevel} (hp : s.phase = .act i.opcode .start) (hl : rdpRequest i = some level)
    (hne : level ≠ .level2) (h2 : rdpLevel s.opt.rdp = .level2) :
    step s = .next { s with phase := .done, trace := s.trace ++ [.tx 0x02] } := by
  have hpos : s.pos.inChain = false := by rw [State.pos_act s _ _ hp]; rfl
  obtain ⟨-, -, hgate⟩ := level2IsIrreversible
  rw [step_act hp hi, hgate s i level hl hne h2 hpos (accepts_of_always htx), afterTx_of_always htx]

end

/-- Settles O39: the two bytes of the acknowledgement, and then the status byte of the gate. -/
theorem level2RequestsReportFailure : Obligations.Level2RequestsReportFailure := by
  unfold Obligations.Level2RequestsReportFailure
  intro s i hs hi hreq hcrc h2 htx
  obtain ⟨himp, hlen, level, hl, hne⟩ : i.opcode.implemented = true ∧ replyLenByte i.opcode = 0x01 ∧
      ∃ level, rdpRequest i = some level ∧ level ≠ .level2 := by
    rcases hreq with rfl | rfl | rfl <;> exact ⟨rfl, rfl, _, rfl, RdpLevel.noConfusion⟩
  refine Eq.trans (core_run_succ (step_accepted hi htx hs himp hcrc)) ?_
  refine Eq.trans (core_run_succ (step_ackLen_sent hi htx rfl)) ?_
  refine Eq.trans (core_run_succ (step_gated hi htx rfl hl hne h2)) ?_
  simp [hlen]

end Sys2Proof.Machine
end

section
/-! PROOF. The five unimplemented commands (O40): check (4) ends the exchange before the trailer is verified. -/

namespace Sys2Proof.Machine

/-- The five commands to which the opcode table gives no behaviour (45_unimplemented_commands R270). -/
theorem implemented_eq_false_iff (op : Opcode) :
    op.implemented = false ↔
      op = .readMemory ∨ op = .extendedErase ∨ op = .special ∨ op = .extendedSpecial ∨ op = .checksum := by
  cases op <;> decide

section

variable {s : State} {i : Instr} (hc : atChecks s) (hv : verdict s = .silent i)
include hc hv

/-- A silent end is decided in `Dispatch`: neither verification nor a NACK comes before it (40_dispatcher R131). -/
theorem settle_of_silent : settle s = s.goto .dispatch := by
  rcases settle_cases s with ⟨-, hn, -⟩ | ⟨-, hm | hm, -⟩ | ⟨-, -, hs⟩ | ⟨hp | ⟨-, j, hj⟩, -⟩
  · exact absurd hc hn
  · exact Verdict.noConfusion (hv.symm.trans hm)
  · exact Verdict.noConfusion (hv.symm.trans hm)
  · exact hs
  · rcases hc with ⟨hp', -⟩ | hp' <;> exact Phase.noConfusion (hp.symm.trans hp')
  · exact Verdict.noConfusion (hv.symm.trans hj)

theorem step_of_silent : step s = .next (s.goto .done) := by
  rw [step_atChecks hc, hv]
  exact exec_of_not_implemented (verdict_silent hv).2 _

theorem exchangeOutcome_of_silent : exchangeOutcome s (s.goto .done) = some .silent := by
  simp [exchangeOutcome, settle_of_silent hc hv]

end

/-- Settles O40: the verdict on such a frame is silent whatever its trailer, unless check (2) turned it away before. -/
theorem unimplementedCommandsAreSilent : Obligations.UnimplementedCommandsAreSilent := by
  unfold Obligations.UnimplementedCommandsAreSilent
  intro op i s hop
  have himp : op.implemented = false := (implemented_eq_false_iff op).mpr hop
  refine ⟨fun hi => exec_of_not_implemented (hi ▸ himp) s, fun hs hbyte =>
    ⟨fun hl => ?silent, fun hl ha => ?malformed⟩⟩
  case silent =>
    obtain ⟨hp, hcomplete, h0, -⟩ := hs
    have hc : atChecks s := .inl ⟨hp, hcomplete⟩
    have hv := verdict_of_unimplemented h0 hl hbyte himp
    exact ⟨step_of_silent hc hv, exchangeOutcome_of_silent hc hv⟩
  case malformed =>
    obtain ⟨hnack, -⟩ := frameChecksComeInOrder s hs ha
    exact hnack hl

end Sys2Proof.Machine
end

section
/-! PROOF. What is turned away: a command, on a ground of 60_exceptions R314, by its status byte (O41); and a complete
frame, by NACK (O42). -/

namespace Sys2Proof.Machine

/-! ## Commands -/

/-- A sector count above the number of sectors is turned away with no port call (41_engines R187). -/
theorem setWrp_rejected {sectorCount : Byte} (h : Config.numSectors < sectorCount.toNat) (op : Opcode)
    (sectorCode : Byte) (enable : Bool) (s : State) :
    setWrp op sectorCount sectorCode enable s = replyNow [Config.stFailed] s := if_pos h

/-- The grounds on which a command is turned away, each with its cause (60_exceptions R302, R308, R314). -/
inductive TurnedAway (s : State) : Instr → ErrorCause → Prop where
  | goToAddress {addr} : classify addr = .invalid → TurnedAway s (.goToAddress addr) .addressInvalid
  | writeMemory {addr data} : classify addr = .invalid → TurnedAway s (.writeMemory addr data) .addressInvalid
  | erase {sector count} : eraseRequest sector count = none → TurnedAway s (.erase sector count) .parameterRejected
  | writeProtect {sectorCount sectorCode} : Config.numSectors < sectorCount.toNat →
      TurnedAway s (.writeProtect sectorCount sectorCode) .parameterRejected
  | writeUnprotect {sectorCount sectorCode} : Config.numSectors < sectorCount.toNat →
      TurnedAway s (.writeUnprotect sectorCount sectorCode) .parameterRejected
  | level {level} : RdpLevel.ofByte level = none → TurnedAway s (.readoutUnprotect level) .parameterRejected
  | gate {i level} : rdpRequest i = some level → gateRefuses s level = true → TurnedAway s i .policyRefused

theorem turnedAway_of_commandCause {i : Instr} {s : State} {c : ErrorCause} (h : commandCause i s = some c) :
    TurnedAway s i c := by
  cases i with
  | goToAddress | writeMemory | erase | writeProtect | writeUnprotect =>
    obtain ⟨hground, rfl⟩ := Option.ite_some_none_eq_some.mp h
    constructor
    exact hground
  | readoutProtect =>
    obtain ⟨hg, rfl⟩ := Option.ite_some_none_eq_some.mp h
    exact .gate rfl hg
  | readoutUnprotect level =>
    rw [commandCause] at h
    split at h
    · next hl =>
      cases h
      exact .level hl
    · next l hl =>
      obtain ⟨hg, rfl⟩ := Option.ite_some_none_eq_some.mp h
      exact .gate hl hg
  | _ => exact absurd h (by simp [commandCause])

theorem TurnedAway.cause {i : Instr} {s : State} {c : ErrorCause} (h : TurnedAway s i c) :
    c = .addressInvalid ∨ c = .policyRefused ∨ c = .parameterRejected := by
  cases h <;> simp

/-- A command that is turned away only reports its cause (60_exceptions R300, R302, R308). -/
theorem TurnedAway.exec_eq {i : Instr} {s : State} {c : ErrorCause} (h : TurnedAway s i c) (hp : s.pos = .start) :
    exec i s = replyNow (c.response s.straps.nackOnRxFail) s := by
  cases h with
  | goToAddress hc => exact exec_goToAddress_invalid (by simp [hp]) hc
  | writeMemory hc => exact exec_writeMemory_invalid (by rw [hp]; rfl) hc
  | erase hreq => exact exec_erase_rejected hreq s
  | writeProtect hn => exact setWrp_rejected hn _ _ _ s
  | writeUnprotect hn => exact setWrp_rejected hn _ _ _ s
  | level hl => exact exec_readoutUnprotect_rejected hl s
  | gate hl hg => exact exec_of_gateRefuses hl hg (by rw [hp]; rfl)

/-- Settles O41: on each ground the command is the reply of its cause, which is one byte. -/
theorem rejectedCommandsOnlyReportStatus : Obligations.RejectedCommandsOnlyReportStatus := by
  unfold Obligations.RejectedCommandsOnlyReportStatus
  intro i s c hcause hp ha
  have haway := turnedAway_of_commandCause hcause
  have hexec := haway.exec_eq hp
  refine ⟨haway.cause, ?address, fun hne => ?other⟩
  case address =>
    rintro rfl
    exact hexec.trans (replyNow_accepted ha _)
  case other =>
    rcases haway.cause with rfl | rfl | rfl
    · exact absurd rfl hne
    all_goals exact hexec.trans (replyNow_accepted ha _)

/-! ## Frames -/

/-- The phase before a byte that ends in the phase `p` does not matter, whether the port accepts the byte or holds. -/
theorem txByte_goto_map_goto (s : State) (q : Phase) (b : Byte) (p : Phase) :
    (txByte b (s.goto q)).map (·.goto p) = (txByte b s).map (·.goto p) := by
  cases ha : s.env.tx.accepts with
  | true => rw [txByte_map_goto (s := s.goto q) ha, txByte_map_goto ha, afterTx_goto]
  | false => rw [(txByte_eq_none_iff b (s.goto q)).mpr ha, (txByte_eq_none_iff b s).mpr ha]

theorem sendNack_goto (s : State) (q : Phase) : sendNack (s.goto q) = sendNack s := txByte_goto_map_goto s q _ _

theorem sendAckByte_goto (s : State) (q : Phase) : sendAckByte (s.goto q) = sendAckByte s :=
  txByte_goto_map_goto s q _ _

/-- What the step that makes the checks on a frame does, by the cause it finds (40_dispatcher R131; 60_exceptions R301,
R305, R307). -/
inductive FrameAnswer (s : State) : Prop where
  | nack {c} : frameCause s = some c → c ≠ .unknownCommand → c.response s.straps.nackOnRxFail = [Config.nack] →
      step s = answered s (sendNack s) → FrameAnswer s
  | unknown {op} : frameCause s = some .unknownCommand → verdict s = .unknown op →
      step s = .next (diagUnknown op s) → FrameAnswer s
  | silent {i} : frameCause s = none → verdict s = .silent i → FrameAnswer s
  | ack : frameCause s = none → step s = answered s (sendAckByte s) → FrameAnswer s

theorem frameAnswer_of_frameReceived {s : State} (hs : s.frameReceived) : FrameAnswer s := by
  obtain ⟨hp, hcomplete, -, hcrc⟩ := hs
  have hstep := step_atChecks (.inl ⟨hp, hcomplete⟩)
  simp only [verified_eq_goto hcrc, sendNack_goto, sendAckByte_goto] at hstep
  cases hv : verdict s with
  | malformed =>
    rw [hv] at hstep
    exact .nack (c := .malformedFrame) (by rw [frameCause, hv]) (by simp) rfl hstep
  | unknown op =>
    rw [hv] at hstep
    exact .unknown (by rw [frameCause, hv]) hv hstep
  | silent i => exact .silent (by rw [frameCause, hv]) hv
  | tooShort =>
    rw [hv] at hstep
    exact .nack (c := .frameTooShort) (by rw [frameCause, hv]) (by simp) rfl hstep
  | toVerify i =>
    rw [hv] at hstep
    by_cases hpass : (verifyData s.coveredBytes s.claimedCrc s).1 = .pass
    · exact .ack (by simp [frameCause, hv, hpass]) (hstep.trans (if_pos hpass))
    · exact .nack (c := .integrityFailure) (by simp [frameCause, hv, hpass]) (by simp) rfl
        (hstep.trans (if_neg hpass))

/-- Checks (4) and (5) on a frame of a known opcode (40_dispatcher R131). -/
theorem verdict_of_known {s : State} {op : Opcode} (h0 : byteAt s.frameBytes 0 = s.len) (hl : 5 ≤ s.len.toNat)
    (hop : Opcode.ofByte (byteAt s.frameBytes 1) = some op) :
    (op.implemented = false ∧ ∃ i, verdict s = .silent i) ∨
    (op.implemented = true ∧ (verdict s = .tooShort ∨ ∃ i, verdict s = .toVerify i)) := by
  cases himp : op.implemented with
  | false => exact .inl ⟨rfl, _, verdict_of_unimplemented h0 hl hop himp⟩
  | true =>
    cases hm : minLenOk op.format s.len.toNat s.frameBytes with
    | false => exact .inr ⟨rfl, .inl (verdict_of_tooShort h0 hl hop hm)⟩
    | true => exact .inr ⟨rfl, .inr ⟨_, verdict_of_minLenOk h0 hl hop himp hm⟩⟩

/-- Only the opcode byte of a frame is ever reported as unknown (40_dispatcher R134). -/
theorem opcode_of_verdict_unknown {s : State} (h0 : byteAt s.frameBytes 0 = s.len) {op : Byte}
    (hv : verdict s = .unknown op) : op = byteAt s.frameBytes 1 := by
  by_cases hl : s.len.toNat < 5
  · exact Verdict.noConfusion ((verdict_of_malformed h0 hl).symm.trans hv)
  · cases hop : Opcode.ofByte (byteAt s.frameBytes 1) with
    | none => exact Verdict.unknown.inj (hv.symm.trans (verdict_of_unknown h0 (Nat.not_lt.mp hl) hop))
    | some o =>
      rcases verdict_of_known h0 (Nat.not_lt.mp hl) hop with ⟨-, i, h⟩ | ⟨-, h | ⟨i, h⟩⟩ <;>
        exact Verdict.noConfusion (h.symm.trans hv)

/-- Settles O42: NACK goes out in the step of the checks, for an unknown opcode in the step after it. -/
theorem rejectedFramesGetNack : Obligations.RejectedFramesGetNack := by
  unfold Obligations.RejectedFramesGetNack
  intro s c hs hcause htx
  have ha := accepts_of_always htx
  cases frameAnswer_of_frameReceived hs with
  | nack hc hne hresponse hstep =>
    obtain rfl := Option.some.inj (hcause.symm.trans hc)
    refine ⟨hresponse, fun _ => ?_, fun h => absurd h hne⟩
    rw [hstep, sendNack_accepted ha, answered_some, afterTx_of_always htx]
  | unknown hc hv hstep =>
    obtain rfl := Option.some.inj (hcause.symm.trans hc)
    refine ⟨rfl, fun h => absurd rfl h, fun _ => ?_⟩
    obtain ⟨-, -, h0, -⟩ := hs
    obtain rfl := opcode_of_verdict_unknown h0 hv
    refine Eq.trans (core_run_succ hstep) ?_
    have hnack : step (diagUnknown (byteAt s.frameBytes 1) s) =
        .next ((diagUnknown (byteAt s.frameBytes 1) s).afterTx 0x1F .done) := by
      rw [step_sendNack rfl, sendNack_accepted (s := diagUnknown _ s) ha, answered_some]
    rw [core_run_succ hnack, afterTx_of_always (s := diagUnknown _ s) htx]
    simp [diagUnknown, recordDiag, State.goto, State.emit]
  | silent hc => exact nomatch hc.symm.trans hcause
  | ack hc => exact nomatch hc.symm.trans hcause

end Sys2Proof.Machine
end

section
/-! PROOF. While a port call holds the block makes no step, in the dispatcher and in every command (O11). -/

namespace Sys2Proof.Machine

/-! ## The transmit port holds -/

section
variable {s : State} (ha : s.env.tx.accepts = false)
include ha

theorem txByte_hold (b : Byte) (f : State → State) : (txByte b s).map f = none := by
  rw [(txByte_eq_none_iff b s).mpr ha, Option.map_none]

theorem replyNow_hold (b : Byte) (rest : List Byte) : replyNow (b :: rest) s = .next s :=
  congrArg (answered s) (txByte_hold ha b _)

theorem sendNack_hold : answered s (sendNack s) = .next s := congrArg (answered s) (txByte_hold ha _ _)

theorem sendAckByte_hold : answered s (sendAckByte s) = .next s := congrArg (answered s) (txByte_hold ha _ _)

theorem exec_goToAddress_hold (hp : s.pos ≠ .launch) (addr : Word) : exec (.goToAddress addr) s = .next s := by
  cases hc : classify addr with
  | invalid => rw [exec_goToAddress_invalid hp hc, replyNow_hold ha]
  | valid =>
    rw [exec, execGoToAddress, hc]
    split
    · next h => exact absurd h hp
    · exact congrArg (answered s) (txByte_hold ha _ _)

/-- A frame that is malformed or of an implemented command is answered in the step of its checks, so that step holds. -/
theorem step_checks_hold (hs : s.frameReceived)
    (hsend : s.len.toNat < 5 ∨ ∃ op, Opcode.ofByte (byteAt s.frameBytes 1) = some op ∧ op.implemented = true) :
    step s = .next s := by
  have hanswer := frameAnswer_of_frameReceived hs
  obtain ⟨-, -, h0, -⟩ := hs
  obtain ⟨hunknown, hsilent⟩ : (∀ op, verdict s ≠ .unknown op) ∧ ∀ i, verdict s ≠ .silent i := by
    by_cases hl : s.len.toNat < 5
    · simp [verdict_of_malformed h0 hl]
    · obtain ⟨op, hop, himp⟩ := hsend.resolve_left hl
      rcases verdict_of_known h0 (Nat.not_lt.mp hl) hop with ⟨hn, -⟩ | ⟨-, hv | ⟨i, hv⟩⟩
      · exact nomatch himp.symm.trans hn
      · simp [hv]
      · simp [hv]
  cases hanswer with
  | nack _ _ _ hstep => exact hstep.trans (sendNack_hold ha)
  | ack _ hstep => exact hstep.trans (sendAckByte_hold ha)
  | unknown _ hv => exact absurd hv (hunknown _)
  | silent _ hv => exact absurd hv (hsilent _)

end

/-! ## The flash controller holds -/

section
variable {s : State} (hr : s.env.flashAnswer = none)
include hr

theorem flashUnlock_hold : flashUnlock s = none := by rw [flashUnlock, hr, Option.map_none]

theorem flashLock_hold : flashLock s = none := by rw [flashLock, hr, Option.map_none]

theorem flashProgramByte_hold (a : Word) (v : Byte) : flashProgramByte a v s = none := by
  rw [flashProgramByte, hr, Option.map_none]

theorem writeLockStep_hold (res : WriteResult) : writeLockStep res s = .next s := by
  rw [writeLockStep, flashLock_hold hr, Option.map_none, answered_none]

theorem writePayload_hold (data : List Byte) (a : Word) : writePayload data a s = .next s := by
  unfold writePayload
  split
  · split
    · rw [flashProgramByte_hold hr, Option.map_none, answered_none]
    · exact writeLockStep_hold hr _
  · exact writeLockStep_hold hr _
  · rw [flashUnlock_hold hr, Option.map_none, answered_none]

theorem exec_erase_hold {sector count : Byte} {req : EraseReq} (hreq : eraseRequest sector count = some req)
    (hp : s.pos ≠ .eraseCall) : exec (.erase sector count) s = .next s := by
  rw [exec, execErase, eraseSequence, hreq]
  dsimp only
  split
  · next h => exact absurd h hp
  · rw [flashLock_hold hr, Option.map_none, answered_none]
  · rw [flashUnlock_hold hr, Option.map_none, answered_none]

end

/-- The erase call has answers of its own (10_state R40). -/
theorem exec_eraseCall_hold {sector count : Byte} {req : EraseReq} {s : State} (hr : s.env.eraseAnswer = none)
    (hreq : eraseRequest sector count = some req) (hp : s.pos = .eraseCall) :
    exec (.erase sector count) s = .next s := by
  rw [exec, execErase, eraseSequence, hreq, hp]
  dsimp only
  rw [flashErase, hr, Option.map_none, Option.map_none, answered_none]

/-! ## The option store holds -/

theorem optChain_hold {s : State} (hr : s.env.optAnswer = none) (op : Opcode) (cfg : OptCfg)
    (status : ChainResult → Byte) : optChain op cfg status s = .next s := by
  unfold optChain
  split
  · rw [optProgram, hr, Option.map_none, Option.map_none, answered_none]
  · rw [optLaunch, hr, Option.map_none, Option.map_none, answered_none]
  · rw [optLock, hr, Option.map_none, Option.map_none, answered_none]
  · rw [optUnlock, hr, Option.map_none, Option.map_none, answered_none]

/-- Settles O11, port by port: receive, transmit, the flash calls, the erase call, the option calls. -/
theorem heldPortMakesNoStep : Obligations.HeldPortMakesNoStep := by
  unfold Obligations.HeldPortMakesNoStep
  refine fun s => ⟨fun hrx => ?receive, fun ha => ?transmit, fun hr => ?flash,
    fun hr sector count hreq hp => ?eraseCall, fun hr i cfg hc hg => ?option⟩
  case receive =>
    have hold : answered s (receive s) = .next s := by rw [receive_hold hrx, answered_none]
    exact ⟨fun hp => (step_awaitLength hp).trans hold, fun hp hn => (step_awaitPayload hp hn).trans hold⟩
  case transmit =>
    refine ⟨step_checks_hold ha, fun hp => ?nack, fun hp => ?ackByte, fun i hp hi => ?ackLen, fun b rest hp => ?reply,
      replyNow_hold ha _ _, replyNow_hold ha _ _, fun addr hp => exec_goToAddress_hold ha hp addr,
      fun addr data hp hc => ?badAddress, fun sector count hreq => ?badRequest,
      fun sectorCount sectorCode hn => ?badCount, fun level hl => ?badLevel, fun i level hl hg hp => ?gate⟩
    case nack => rw [step_sendNack hp, sendNack_hold ha]
    case ackByte => rw [step_ackByte hp, sendAckByte_hold ha]
    case ackLen => exact (step_ackLen hp hi).trans (congrArg (answered s) (txByte_hold ha _ _))
    case reply => exact (step_sendReply hp).trans (replyNow_hold ha b rest)
    case badAddress => rw [exec_writeMemory_invalid hp hc, replyNow_hold ha]
    case badRequest => rw [exec_erase_rejected hreq, replyNow_hold ha]
    case badCount =>
      have hold : ∀ op enable, setWrp op sectorCount sectorCode enable s = .next s :=
        fun op enable => by rw [setWrp_rejected hn, replyNow_hold ha]
      exact ⟨hold _ _, hold _ _⟩
    case badLevel => rw [exec_readoutUnprotect_rejected (RdpLevel.ofByte_above hl), replyNow_hold ha]
    case gate => rw [exec_of_gateRefuses hl hg hp, replyNow_hold ha]
  case flash =>
    refine ⟨fun addr data h => ?write, fun sector count hreq hp => ?erase⟩
    case write => rw [exec_writeMemory_eq h, writePayload_hold hr]
    case erase =>
      obtain ⟨req, hreq⟩ := Option.isSome_iff_exists.mp hreq
      exact exec_erase_hold hr hreq hp
  case eraseCall =>
    obtain ⟨req, hreq⟩ := Option.isSome_iff_exists.mp hreq
    exact exec_eraseCall_hold hr hreq hp
  case option => rw [exec_eq_optChain hc hg, optChain_hold hr]

end Sys2Proof.Machine
end

section
/-! PROOF. The write-protected sectors: no program and no erase changes them (O35). -/

namespace Sys2Proof.Machine

/-- A program of a write-protected byte fails, and the event is all it leaves (41_engines R176). -/
theorem flashProgramByte_protected {a : Word} {s : State} (v : Byte) (h : protectedByte s.opt.wrp a.toNat = true)
    (hans : s.env.flashAnswer.isSome = true) :
    flashProgramByte a v s = some (.fail, { s with
      trace := s.trace ++ [.flash (.program a v) (.result .fail)], env := s.env.afterFlash }) := by
  obtain ⟨drawn, hdrawn⟩ := Option.isSome_iff_exists.mp hans
  refine (flashProgramByte_eq_some_iff a v s _ _).mpr ⟨drawn, hdrawn, (programAnswer_protected drawn h).symm, ?_⟩
  rw [programEffect_protected s.mem v _ _ h]

/-- Settles O35: the failed calls are O17's and O20's, and a failed call leads to the lock with the result Fail. -/
theorem protectedSectorsAreNotWritten : Obligations.ProtectedSectorsAreNotWritten := by
  unfold Obligations.ProtectedSectorsAreNotWritten
  refine ⟨fun addr data s k v hp hv hprot hans => ?program, fun sector count req s hreq hp hhits hans => ?erase⟩
  case program =>
    have hin : s.pos.inWrite = true := by rw [hp]; rfl
    rw [exec_writeMemory_eq (.inl hin), writePayload_program hp hv (flashProgramByte_protected v hprot hans)]
    rfl
  case erase =>
    obtain ⟨drawn, hdrawn⟩ := Option.isSome_iff_exists.mp hans
    have hcall := (flashErase_eq_some_iff req s _ _).mpr ⟨drawn, hdrawn, rfl, rfl⟩
    obtain ⟨hforced, -, -, hmem, -⟩ := eraseCallEffect req s _ _ drawn hdrawn hcall
    have hword := hforced hhits
    refine ⟨_, exec_erase_call hreq hp hcall, ?_, fun a ha => (hmem hword a).2 (.inr ha)⟩
    rw [if_neg hword]

end Sys2Proof.Machine
end

section
/-! PROOF. Reset: the value of every state element (O46), the first step (O47), what passes to the next run (O48), the
invariant (O53). -/

namespace Sys2Proof.Machine

/-! ## The flash window of a memory -/

/-- The listed bytes of the flash window are a memory that reads as the whole one there, and has no other byte. -/
theorem Memory.read_flashPart (m : Memory) (a : Nat) :
    m.flashPart.read a = if Config.flash.contains a then m.read a else none := by
  have hlookup := lookup_filter m Config.flash.contains a
  rw [read, flashPart, hlookup]
  by_cases hf : Config.flash.contains a = true
  · simp [read, hf]
  · simp [unlisted, hf]

theorem Memory.flashPart_eq_self {m : Memory} (h : ∀ c ∈ m, Config.flash.contains c.1 = true) : m.flashPart = m :=
  List.filter_eq_self.mpr h

/-! ## The reset state -/

/-- Settles O48: the next run's flash image is the flash window of the memory the last one ended with. -/
theorem runsPassOnOptionsAndFlash : Obligations.RunsPassOnOptionsAndFlash := by
  unfold Obligations.RunsPassOnOptionsAndFlash
  intro s boot env
  exact ⟨rfl, rfl, fun a hf => (Memory.read_flashPart s.mem a).trans (if_pos hf),
    fun a hf => (Memory.read_flashPart s.mem a).trans (if_neg (by simp [hf])), Memory.wf_flashPart⟩

theorem resetWith_phase_of_boot {p : ResetParams} (h : p.bootLaunch = true) :
    (State.resetWith p).phase = .bootLaunch := by
  simp [State.resetWith, h]

theorem resetWith_phase_of_no_boot {p : ResetParams} (h : p.bootLaunch = false) :
    (State.resetWith p).phase = .awaitLength := by
  simp [State.resetWith, h]

/-- Settles O46: an image of flash bytes only is its own flash window, and so has no byte outside it. -/
theorem resetValues : Obligations.ResetValues := by
  unfold Obligations.ResetValues
  intro p
  refine ⟨resetWith_phase_of_no_boot, byteAt_zero, rfl, rfl, rfl, rfl, rfl, rfl, rfl, rfl, rfl, fun _ => rfl,
    fun himage a ha => ?_⟩
  have hread := Memory.read_flashPart p.flashImage a
  rwa [Memory.flashPart_eq_self himage, if_neg (by simp [ha])] at hread

theorem frameInv_resetWith (p : ResetParams) : (State.resetWith p).frameInv := by
  refine ⟨byteAt_zero 0, Nat.zero_le _, fun k _ => byteAt_zero k, ?_⟩
  cases hb : p.bootLaunch with
  | false => rw [resetWith_phase_of_no_boot hb]; rfl
  | true => rw [resetWith_phase_of_boot hb]; rfl

/-- At reset no command is running and nothing has faulted. -/
theorem commandInv_unlockInv_faultInv_resetWith (p : ResetParams) :
    (State.resetWith p).commandInv ∧ (State.resetWith p).unlockInv ∧ (State.resetWith p).faultInv := by
  unfold State.commandInv State.unlockInv State.faultInv
  cases hb : p.bootLaunch with
  | false => rw [resetWith_phase_of_no_boot hb]; exact ⟨trivial, trivial, rfl⟩
  | true => rw [resetWith_phase_of_boot hb]; exact ⟨trivial, trivial, rfl⟩

theorem inv_resetWith {p : ResetParams} (h : p.flashImage.wf = true) : (State.resetWith p).Inv := by
  obtain ⟨hcommand, hunlock, hfault⟩ := commandInv_unlockInv_faultInv_resetWith p
  exact {
    memory := h
    crc := rfl
    frame := frameInv_resetWith p
    command := hcommand
    unlock := hunlock
    rdp := rdpInv_resetWith p
    fault := hfault }

/-- Settles O53: `State.reset` has an empty image. -/
theorem resetMeetsTheInvariant : Obligations.ResetMeetsTheInvariant := by
  unfold Obligations.ResetMeetsTheInvariant
  exact ⟨fun p => inv_resetWith, inv_resetWith Memory.wf_nil⟩

/-! ## The first step -/

theorem step_bootLaunch {s : State} (h : s.phase = .bootLaunch) : step s = .next (launchAt s.straps.appBase s) := by
  simp [step, settle, h]

/-- A launch ends in a final state, whether it goes through or faults (41_engines R200). -/
theorem step_launchAt_ne_next (base : Word) (s u : State) : step (launchAt base s) ≠ .next u := by
  rcases launchAt_cases base s with ⟨-, h⟩ | ⟨-, -, h⟩ | ⟨-, sp, pc, -, -, h⟩
  · rw [h, step_faulted (State.raise_phase ..)]; nofun
  · rw [h, step_faulted (State.raise_phase ..)]; nofun
  · rw [h, step_launched (State.goto_phase ..)]; nofun

/-- Settles O47: the receive call is O4's, and the launch has no step after it. -/
theorem firstStepAfterReset : Obligations.FirstStepAfterReset := by
  unfold Obligations.FirstStepAfterReset
  intro p
  refine ⟨fun hb => ⟨resetWith_phase_of_no_boot hb, fun b rest hrx => ?receive⟩, fun hb => ?launch⟩
  case receive =>
    obtain ⟨hbyte, -⟩ := lengthByteIsReceived _ (resetWith_phase_of_no_boot hb)
    exact ⟨_, hbyte b rest hrx, rfl, rfl, rfl⟩
  case launch =>
    exact ⟨_, step_bootLaunch (resetWith_phase_of_boot hb), rfl, step_launchAt_ne_next p.straps.appBase _⟩

end Sys2Proof.Machine
end
